-- ==== Sys2Proof/Word.lean ====
section
/-! DEFINITION. The bit patterns of the block (spec 00_scope.md R7, R9): bytes, 16-bit words, the
32-bit accumulator, and the two operand widths. -/

namespace Sys2Proof

/-- A byte of memory or half of a register slot (`u8`, R7). -/
abbrev Byte := BitVec 8

/-- A register slot, an address offset or a word operand (`u16`, R7). -/
abbrev Word := BitVec 16

/-- The accumulator of ADD, SUB and CMP (`u32`, 42_arithmetic.md R101). -/
abbrev Acc := BitVec 32

/-- The operand width W (30_encoding.md R65): 1 byte when `wide` is clear, 2 when it is set. -/
inductive Width
  | byte
  | word
deriving DecidableEq, Repr

/-- W as a number of bytes (R65). -/
def Width.bytes : Width → Nat
  | .byte => 1
  | .word => 2

end Sys2Proof
end

