-- ==== Sys2Proof/Syntax/Operand.lean ====
section
/-! DEFINITION. The operand fields of the reference decoder's encodings (30_encoding.md R70 to R78),
each with exactly the choices the bits of an instruction make. -/

namespace Sys2Proof

/-- The `d` bit (R79 to R82): which of the two operands of a register form is the destination. -/
inductive Dir
  /-- d = 0: RM ← R. -/
  | toRm
  /-- d = 1: R ← RM. -/
  | toReg
deriving DecidableEq, Repr

/-- Register numbers 000 to 111 (R74), named by the word register and the byte register they stand
for. -/
inductive RegNum
  | axAl | cxCl | dxDl | bxBl | spAh | bpCh | siDh | diBh
deriving DecidableEq, Repr

/-- Segment register numbers 00 to 11 (R75). -/
inductive SegNum
  | es | cs | ss | ds
deriving DecidableEq, Repr

/-- The `r/m` field 000 to 111 when mod is not 11 (R73). -/
inductive BaseForm
  | bxSi | bxDi | bpSi | bpDi | si | di | bp | bx
deriving DecidableEq, Repr

/-- The displacement of a based memory operand: mod 00, 01 or 10 (R72). -/
inductive Disp
  | zero
  | d8 (d : Byte)
  | d16 (d : Word)
deriving DecidableEq, Repr

/-- The operand that mod and r/m select together (R72, R73): a register number, a direct address, or
terms with a displacement. -/
inductive Rm
  | reg (n : RegNum)
  | direct (addr : Word)
  | based (form : BaseForm) (disp : Disp)
deriving DecidableEq, Repr

/-- The immediate of a form with only a `w` bit (R77): one byte (w = 0) or two (w = 1). -/
inductive Imm
  | byte (v : Byte)
  | word (v : Word)
deriving DecidableEq, Repr

/-- The immediate of opcodes 80 to 83 (R77): `sw` = 00 or 10 is one byte at W = 1 (`opc82` is the `s`
bit, set for the second spelling 82), 01 is two bytes at W = 2, 11 is one sign-extended byte at
W = 2. -/
inductive GroupImm
  | byte (opc82 : Bool) (v : Byte)
  | word (v : Word)
  | signed (v : Byte)
deriving DecidableEq, Repr

end Sys2Proof
end

