-- ==== Sys2Proof/Syntax/Record.lean ====
section
/-! DEFINITION. The decoded-instruction record, which is the block's input interface
(30_encoding.md section 1, R62 to R66), and the names of the 15 register slots (10_state.md R13). -/

namespace Sys2Proof

/-- The 15 register slots, in the order of their indices 0 to 14 (10_state.md R12, R13). -/
inductive Slot
  | none | a | b | c | d | sp | bp | si | di | es | cs | ss | ds | ip | flags
deriving DecidableEq, Repr

/-- The slot's index in the table of R13. -/
def Slot.index : Slot → Nat
  | .none => 0 | .a => 1 | .b => 2 | .c => 3 | .d => 4
  | .sp => 5 | .bp => 6 | .si => 7 | .di => 8
  | .es => 9 | .cs => 10 | .ss => 11 | .ds => 12
  | .ip => 13 | .flags => 14

/-- A register access: slot, byte offset within the slot, byte count (30_encoding.md R64). -/
structure RegAccess where
  slot   : Slot
  offset : Fin 2
  count  : Width
deriving DecidableEq, Repr

/-- A term of a memory operand: a register access and a signed scale (30_encoding.md R64). -/
structure Term where
  reg   : RegAccess
  scale : Int
deriving DecidableEq, Repr

/-- The operand forms of a record (30_encoding.md R64). `disp`, `scale` and `value` are unbounded
integers; each rule that uses one reduces it. -/
inductive Operand
  | none
  | reg (access : RegAccess)
  | mem (terms : List Term) (disp : Int) (seg : Option Slot)
  | imm (value : Int)
deriving DecidableEq, Repr

/-- The operation kinds (30_encoding.md R63). `other` is a decoded kind outside the subset. -/
inductive OpKind
  | mov | add | sub | cmp | je | jne | loop
  | other (name : String)
deriving DecidableEq, Repr

/-- The decoded record (30_encoding.md R62). -/
structure Record where
  op       : OpKind
  operands : List Operand
  wide     : Bool
  length   : Nat
deriving DecidableEq, Repr

/-- The record's width W (30_encoding.md R65). -/
def Record.width (r : Record) : Width := if r.wide then .word else .byte

/-- `operands[k]` (30_encoding.md R66); a record that is too short has no operand there. -/
def Record.operand (r : Record) (k : Nat) : Operand := r.operands.getD k .none

end Sys2Proof
end

