-- ==== Sys2Proof/Syntax.lean ====
section
/-! DEFINITION. The instructions: one constructor for each row of spec/opcode_table.json
(30_encoding.md R79 to R83). The record that a row's bytes stand for is in Decode.lean. -/

namespace Sys2Proof

/-- The 19 forms of the reference decoder. -/
inductive Instr
  /-- MOV-rm-r, opcodes 88 to 8B (R79). -/
  | movRmReg (d : Dir) (w : Width) (reg : RegNum) (rm : Rm)
  /-- MOV-rm-imm, opcodes C6 and C7 (R79). -/
  | movRmImm (rm : Rm) (imm : Imm)
  /-- MOV-r-imm, opcodes B0 to BF (R79). -/
  | movRegImm (reg : RegNum) (imm : Imm)
  /-- MOV-acc-mem, opcodes A0 and A1 (R79). -/
  | movAccMem (w : Width) (addr : Word)
  /-- MOV-mem-acc, opcodes A2 and A3 (R79). -/
  | movMemAcc (w : Width) (addr : Word)
  /-- MOV-sr-rm, opcode 8E (R79). -/
  | movSregRm (sr : SegNum) (rm : Rm)
  /-- MOV-rm-sr, opcode 8C (R79). -/
  | movRmSreg (rm : Rm) (sr : SegNum)
  /-- ADD-rm-r, opcodes 00 to 03 (R80). -/
  | addRmReg (d : Dir) (w : Width) (reg : RegNum) (rm : Rm)
  /-- ADD-rm-imm, opcodes 80 to 83 with reg = 000 (R80). -/
  | addRmImm (rm : Rm) (imm : GroupImm)
  /-- ADD-acc-imm, opcodes 04 and 05 (R80). -/
  | addAccImm (imm : Imm)
  /-- SUB-rm-r, opcodes 28 to 2B (R81). -/
  | subRmReg (d : Dir) (w : Width) (reg : RegNum) (rm : Rm)
  /-- SUB-rm-imm, opcodes 80 to 83 with reg = 101 (R81). -/
  | subRmImm (rm : Rm) (imm : GroupImm)
  /-- SUB-acc-imm, opcodes 2C and 2D (R81). -/
  | subAccImm (imm : Imm)
  /-- CMP-rm-r, opcodes 38 to 3B (R82). -/
  | cmpRmReg (d : Dir) (w : Width) (reg : RegNum) (rm : Rm)
  /-- CMP-rm-imm, opcodes 80 to 83 with reg = 111 (R82). -/
  | cmpRmImm (rm : Rm) (imm : GroupImm)
  /-- CMP-acc-imm, opcodes 3C and 3D (R82). -/
  | cmpAccImm (imm : Imm)
  /-- JE, opcode 74 (R83). -/
  | je (rel : Byte)
  /-- JNE, opcode 75 (R83). -/
  | jne (rel : Byte)
  /-- LOOP, opcode E2 (R83). -/
  | loop (rel : Byte)
deriving DecidableEq, Repr

end Sys2Proof
end

