-- ==== Sys2Proof/WellFormed.lean ====
section
/-! DEFINITION. Well-formedness: the checks WF1 to WF8 of decoded records (30_encoding.md R68, R69)
with the first failing one, and the one choice of instruction fields that no bytes encode. -/

namespace Sys2Proof

/-- The named checks of R68. -/
inductive WfCheck
  | wf1 | wf2 | wf3 | wf4 | wf5 | wf6 | wf7 | wf8
deriving DecidableEq, Repr

/-- Indices 1 to 12: the slots a register operand or term may name (WF2). -/
def Slot.isOperand (s : Slot) : Bool := decide (1 ≤ s.index ∧ s.index ≤ 12)

/-- Indices 1 to 4: the slots with byte halves (WF3; 10_state.md R13, R18). -/
def Slot.hasBytes (s : Slot) : Bool := decide (1 ≤ s.index ∧ s.index ≤ 4)

/-- The kinds that WF5 and the two-operand shape of WF1 speak of. -/
def OpKind.isTwoOperand : OpKind → Bool
  | .mov | .add | .sub | .cmp => true
  | .je | .jne | .loop | .other _ => false

def Operand.isRegOrMem : Operand → Bool
  | .reg _ | .mem _ _ _ => true
  | .none | .imm _ => false

def Operand.isSource : Operand → Bool
  | .reg _ | .mem _ _ _ | .imm _ => true
  | .none => false

def Operand.isImm : Operand → Bool
  | .imm _ => true
  | .none | .reg _ | .mem _ _ _ => false

/-- The register operands among a record's operands (WF2, WF5). -/
def Record.regOperands (r : Record) : List RegAccess :=
  r.operands.filterMap fun
    | .reg a => some a
    | .none | .mem _ _ _ | .imm _ => none

/-- The term accesses of the memory operands that name a register: a term that names NONE is absent
(10_state.md R23) and WF7 binds WF3 and WF4 to present ones. -/
def Record.termAccesses (r : Record) : List RegAccess :=
  r.operands.flatMap fun
    | .mem ts _ _ => (ts.map Term.reg).filter fun a => decide (a.slot ≠ .none)
    | .none | .reg _ | .imm _ => []

/-- WF1, the shape: destination and source, or one immediate. -/
def Record.shapeOk (r : Record) : Bool :=
  match r.op, r.operands with
  | .mov, [d, s] | .add, [d, s] | .sub, [d, s] | .cmp, [d, s] => d.isRegOrMem && s.isSource
  | .je, [x] | .jne, [x] | .loop, [x] => x.isImm
  | .other _, _ => true
  | _, _ => false

/-- WF3 for one access: a byte access names one of A, B, C, D. -/
def RegAccess.byteOk (a : RegAccess) : Bool := a.count == .word || a.slot.hasBytes

/-- WF4 for one access: `(0,2)`, `(0,1)` or `(1,1)`. -/
def RegAccess.rangeOk (a : RegAccess) : Bool := a.count == .byte || a.offset == 0

/-- WF7 for one operand: at most two terms, each absent or naming an operand slot, which may be a segment
slot (DESIGN CHOICE, log entry 18). -/
def Operand.termsOk : Operand → Bool
  | .mem ts _ _ =>
    decide (ts.length ≤ 2) &&
      ts.all fun t => t.reg.slot == .none ||
        (t.reg.slot.isOperand && t.reg.byteOk && t.reg.rangeOk)
  | .none | .reg _ | .imm _ => true

/-- Whether one check of R68 holds of a record of the seven kinds. -/
def Record.passes (r : Record) : WfCheck → Bool
  | .wf1 => r.shapeOk
  | .wf2 => r.regOperands.all fun a => a.slot.isOperand
  | .wf3 => (r.regOperands ++ r.termAccesses).all RegAccess.byteOk
  | .wf4 => (r.regOperands ++ r.termAccesses).all RegAccess.rangeOk
  | .wf5 => !r.op.isTwoOperand || r.regOperands.all fun a => a.count == r.width
  | .wf6 => !r.op.isTwoOperand || !(r.operand 0).isImm
  | .wf7 => r.operands.all Operand.termsOk
  | .wf8 => decide (1 ≤ r.length)

/-- The checks that bind a record: all eight for the seven kinds, WF8 alone for `Other` (R68). -/
def OpKind.checks : OpKind → List WfCheck
  | .other _ => [.wf8]
  | .mov | .add | .sub | .cmp | .je | .jne | .loop =>
    [.wf1, .wf2, .wf3, .wf4, .wf5, .wf6, .wf7, .wf8]

/-- `firstFailingCheck` (40_execution_cycle.md R96): the first check of R68 that fails, or none for a
well-formed record. -/
def Record.firstFailingCheck (r : Record) : Option WfCheck :=
  r.op.checks.find? fun c => !r.passes c

/-- Mod 00 with r/m 110 is the direct address (R72): BP with no displacement has no encoding. -/
def Rm.encodable : Rm → Bool
  | .based .bp .zero => false
  | .reg _ | .direct _ | .based _ _ => true

/-- An instruction's fields can be encoded. -/
def Instr.wf : Instr → Bool
  | .movRmReg _ _ _ rm | .movRmImm rm _ | .movSregRm _ rm | .movRmSreg rm _ => rm.encodable
  | .addRmReg _ _ _ rm | .addRmImm rm _ => rm.encodable
  | .subRmReg _ _ _ rm | .subRmImm rm _ => rm.encodable
  | .cmpRmReg _ _ _ rm | .cmpRmImm rm _ => rm.encodable
  | .movRegImm _ _ | .movAccMem _ _ | .movMemAcc _ _ => true
  | .addAccImm _ | .subAccImm _ | .cmpAccImm _ => true
  | .je _ | .jne _ | .loop _ => true

end Sys2Proof
end

