-- ==== Sys2Proof/Decode.lean ====
section
/-! DEFINITION. The reference decoder RD (30_encoding.md section 3): bytes to an instruction and the
bytes after it, total, `none` for `Unrecognized` (R85); the encoder written from the same tables; and
the decoded record each instruction stands for (R79 to R84). -/

namespace Sys2Proof

/-! ## Bit fields and byte order -/

/-- Two instruction bytes, low byte first (R70, R76, R77): `hi << 8 | lo`. -/
def wordOf (lo hi : Byte) : Word := hi ++ lo

/-- The low byte of a word. -/
def loByte (v : Word) : Byte := v.extractLsb' 0 8

/-- The high byte of a word. -/
def hiByte (v : Word) : Byte := v.extractLsb' 8 8

/-- `sint_8(v)` (00_scope.md R8). -/
def sint8 (v : Byte) : Int := v.toInt

/-- `sint_16(v)` (00_scope.md R8). -/
def sint16 (v : Word) : Int := v.toInt

/-- A width from a `w` bit: clear is 1 byte, set is 2 (R65). -/
def Width.ofBit (w : Bool) : Width := if w then .word else .byte

def Width.bit : Width → Bool
  | .byte => false
  | .word => true

/-- A direction from a `d` bit (R79). -/
def Dir.ofBit (d : Bool) : Dir := if d then .toReg else .toRm

def Dir.bit : Dir → Bool
  | .toRm => false
  | .toReg => true

/-- The register with a 3-bit number (R74). -/
def RegNum.ofBits (n : BitVec 3) : RegNum :=
  if n = 0 then .axAl else if n = 1 then .cxCl else if n = 2 then .dxDl else if n = 3 then .bxBl
  else if n = 4 then .spAh else if n = 5 then .bpCh else if n = 6 then .siDh else .diBh

/-- The number of a register (R74). -/
def RegNum.bits : RegNum → BitVec 3
  | .axAl => 0 | .cxCl => 1 | .dxDl => 2 | .bxBl => 3 | .spAh => 4 | .bpCh => 5 | .siDh => 6
  | .diBh => 7

/-- The segment register with a 2-bit number (R75). -/
def SegNum.ofBits (n : BitVec 2) : SegNum :=
  if n = 0 then .es else if n = 1 then .cs else if n = 2 then .ss else .ds

/-- The number of a segment register (R75). -/
def SegNum.bits : SegNum → BitVec 2
  | .es => 0 | .cs => 1 | .ss => 2 | .ds => 3

/-- The terms that a 3-bit r/m field selects when mod is not 11 (R73). -/
def BaseForm.ofBits (n : BitVec 3) : BaseForm :=
  if n = 0 then .bxSi else if n = 1 then .bxDi else if n = 2 then .bpSi else if n = 3 then .bpDi
  else if n = 4 then .si else if n = 5 then .di else if n = 6 then .bp else .bx

/-- The r/m field of a memory form (R73). -/
def BaseForm.bits : BaseForm → BitVec 3
  | .bxSi => 0 | .bxDi => 1 | .bpSi => 2 | .bpDi => 3 | .si => 4 | .di => 5 | .bp => 6 | .bx => 7

/-! ## The opcode table -/

/-- The rows of the opcode table, by the instruction they decode to. -/
inductive Form
  | movRmReg | movRmImm | movRegImm | movAccMem | movMemAcc | movSregRm | movRmSreg
  | addRmReg | addRmImm | addAccImm
  | subRmReg | subRmImm | subAccImm
  | cmpRmReg | cmpRmImm | cmpAccImm
  | je | jne | loop
deriving DecidableEq, Repr

/-- A row: mask and match for byte 0 and, where the row fixes bits of it, the ModRM byte. -/
structure Row where
  form   : Form
  match0 : Byte
  mask0  : Byte
  match1 : Byte := 0
  mask1  : Byte := 0
deriving DecidableEq, Repr

/-- `(bytes & mask) == match` (30_encoding.md, opening). -/
def Row.accepts (r : Row) (b0 b1 : Byte) : Bool :=
  b0 &&& r.mask0 == r.match0 && b1 &&& r.mask1 == r.match1

def movRows : List Row := [
  { form := .movRmReg, match0 := 0x88, mask0 := 0xFC },
  { form := .movRmImm, match0 := 0xC6, mask0 := 0xFE, match1 := 0x00, mask1 := 0x38 },
  { form := .movRegImm, match0 := 0xB0, mask0 := 0xF0 },
  { form := .movAccMem, match0 := 0xA0, mask0 := 0xFE },
  { form := .movMemAcc, match0 := 0xA2, mask0 := 0xFE },
  { form := .movSregRm, match0 := 0x8E, mask0 := 0xFF, match1 := 0x00, mask1 := 0x20 },
  { form := .movRmSreg, match0 := 0x8C, mask0 := 0xFF, match1 := 0x00, mask1 := 0x20 }]

def arithRows : List Row := [
  { form := .addRmReg, match0 := 0x00, mask0 := 0xFC },
  { form := .addRmImm, match0 := 0x80, mask0 := 0xFC, match1 := 0x00, mask1 := 0x38 },
  { form := .addAccImm, match0 := 0x04, mask0 := 0xFE },
  { form := .subRmReg, match0 := 0x28, mask0 := 0xFC },
  { form := .subRmImm, match0 := 0x80, mask0 := 0xFC, match1 := 0x28, mask1 := 0x38 },
  { form := .subAccImm, match0 := 0x2C, mask0 := 0xFE },
  { form := .cmpRmReg, match0 := 0x38, mask0 := 0xFC },
  { form := .cmpRmImm, match0 := 0x80, mask0 := 0xFC, match1 := 0x38, mask1 := 0x38 },
  { form := .cmpAccImm, match0 := 0x3C, mask0 := 0xFE }]

def branchRows : List Row := [
  { form := .je, match0 := 0x74, mask0 := 0xFF },
  { form := .jne, match0 := 0x75, mask0 := 0xFF },
  { form := .loop, match0 := 0xE2, mask0 := 0xFF }]

/-- The 19 rows of opcode_table.json. -/
def rows : List Row := movRows ++ arithRows ++ branchRows

/-- The row that a stream with these first two bytes matches, if any (R85). -/
def rowOf (b0 b1 : Byte) : Option Row := rows.find? fun r => r.accepts b0 b1

/-! ## Reading the fields -/

def takeByte : List Byte → Option (Byte × List Byte)
  | [] => none
  | b :: bs => some (b, bs)

/-- Two bytes, low byte first (R70). -/
def takeWord : List Byte → Option (Word × List Byte)
  | lo :: hi :: bs => some (wordOf lo hi, bs)
  | _ => none

/-- The operand that mod and r/m select, with its displacement bytes (R72, R73). -/
def takeRm (mod : BitVec 2) (rm : BitVec 3) (bs : List Byte) : Option (Rm × List Byte) :=
  if mod = 3 then some (.reg (RegNum.ofBits rm), bs)
  else if mod = 2 then (takeWord bs).map fun p => (.based (BaseForm.ofBits rm) (.d16 p.1), p.2)
  else if mod = 1 then (takeByte bs).map fun p => (.based (BaseForm.ofBits rm) (.d8 p.1), p.2)
  else if rm = 6 then (takeWord bs).map fun p => (.direct p.1, p.2)
  else some (.based (BaseForm.ofBits rm) .zero, bs)

/-- The ModRM byte (R71) and the displacement after it: the reg field and the r/m operand. -/
def takeModRm : List Byte → Option (BitVec 3 × Rm × List Byte)
  | [] => none
  | b :: bs =>
    (takeRm (b.extractLsb' 6 2) (b.extractLsb' 0 3) bs).map fun p =>
      (b.extractLsb' 3 3, p.1, p.2)

/-- The immediate of a form with only a `w` bit (R77). -/
def takeImm (w : Bool) (bs : List Byte) : Option (Imm × List Byte) :=
  if w then (takeWord bs).map fun p => (.word p.1, p.2)
  else (takeByte bs).map fun p => (.byte p.1, p.2)

/-- The immediate of opcodes 80 to 83 by the `s` and `w` bits (R77). -/
def takeGroupImm (s w : Bool) (bs : List Byte) : Option (GroupImm × List Byte) :=
  if w then
    if s then (takeByte bs).map fun p => (.signed p.1, p.2)
    else (takeWord bs).map fun p => (.word p.1, p.2)
  else (takeByte bs).map fun p => (.byte s p.1, p.2)

/-- The fields of a form with a ModRM byte and a register (R79 to R82). -/
def takeRmReg (b0 : Byte) (bs : List Byte) : Option ((Dir × Width × RegNum × Rm) × List Byte) :=
  (takeModRm bs).map fun p =>
    ((Dir.ofBit (b0.getLsbD 1), Width.ofBit (b0.getLsbD 0), RegNum.ofBits p.1, p.2.1), p.2.2)

/-- The fields of opcodes 80 to 83 (R80 to R82). -/
def takeRmGroupImm (b0 : Byte) (bs : List Byte) : Option ((Rm × GroupImm) × List Byte) :=
  (takeModRm bs).bind fun p =>
    (takeGroupImm (b0.getLsbD 1) (b0.getLsbD 0) p.2.2).map fun q => ((p.2.1, q.1), q.2)

/-- The bytes after byte 0, read by the form of the row (R79 to R83). -/
def decodeForm (f : Form) (b0 : Byte) (bs : List Byte) : Option (Instr × List Byte) :=
  match f with
  | .movRmReg => (takeRmReg b0 bs).map fun p => (.movRmReg p.1.1 p.1.2.1 p.1.2.2.1 p.1.2.2.2, p.2)
  | .movRmImm =>
    (takeModRm bs).bind fun p =>
      (takeImm (b0.getLsbD 0) p.2.2).map fun q => (.movRmImm p.2.1 q.1, q.2)
  | .movRegImm =>
    (takeImm (b0.getLsbD 3) bs).map fun q =>
      (.movRegImm (RegNum.ofBits (b0.extractLsb' 0 3)) q.1, q.2)
  | .movAccMem => (takeWord bs).map fun p => (.movAccMem (Width.ofBit (b0.getLsbD 0)) p.1, p.2)
  | .movMemAcc => (takeWord bs).map fun p => (.movMemAcc (Width.ofBit (b0.getLsbD 0)) p.1, p.2)
  | .movSregRm =>
    (takeModRm bs).map fun p => (.movSregRm (SegNum.ofBits (p.1.extractLsb' 0 2)) p.2.1, p.2.2)
  | .movRmSreg =>
    (takeModRm bs).map fun p => (.movRmSreg p.2.1 (SegNum.ofBits (p.1.extractLsb' 0 2)), p.2.2)
  | .addRmReg => (takeRmReg b0 bs).map fun p => (.addRmReg p.1.1 p.1.2.1 p.1.2.2.1 p.1.2.2.2, p.2)
  | .addRmImm => (takeRmGroupImm b0 bs).map fun p => (.addRmImm p.1.1 p.1.2, p.2)
  | .addAccImm => (takeImm (b0.getLsbD 0) bs).map fun p => (.addAccImm p.1, p.2)
  | .subRmReg => (takeRmReg b0 bs).map fun p => (.subRmReg p.1.1 p.1.2.1 p.1.2.2.1 p.1.2.2.2, p.2)
  | .subRmImm => (takeRmGroupImm b0 bs).map fun p => (.subRmImm p.1.1 p.1.2, p.2)
  | .subAccImm => (takeImm (b0.getLsbD 0) bs).map fun p => (.subAccImm p.1, p.2)
  | .cmpRmReg => (takeRmReg b0 bs).map fun p => (.cmpRmReg p.1.1 p.1.2.1 p.1.2.2.1 p.1.2.2.2, p.2)
  | .cmpRmImm => (takeRmGroupImm b0 bs).map fun p => (.cmpRmImm p.1.1 p.1.2, p.2)
  | .cmpAccImm => (takeImm (b0.getLsbD 0) bs).map fun p => (.cmpAccImm p.1, p.2)
  | .je => (takeByte bs).map fun p => (.je p.1, p.2)
  | .jne => (takeByte bs).map fun p => (.jne p.1, p.2)
  | .loop => (takeByte bs).map fun p => (.loop p.1, p.2)

/-- RD on a list of bytes: the instruction and the bytes after it, or `none` for `Unrecognized`. -/
def decodeRest : List Byte → Option (Instr × List Byte)
  | [] => none
  | b0 :: bs => (rowOf b0 (bs.headD 0)).bind fun r => decodeForm r.form b0 bs

/-- RD on a list of bytes: the instruction alone. -/
def decode (bs : List Byte) : Option Instr := (decodeRest bs).map Prod.fst

/-! ## The encoder -/

/-- A word as two bytes, low byte first (R70). -/
def wordBytes (v : Word) : List Byte := [loByte v, hiByte v]

/-- Byte 0 with a `w` bit in bit 0. -/
def opW (base : Byte) (w : Bool) : Byte := base ||| (if w then 1 else 0)

/-- Byte 0 with a `d` or `s` bit in bit 1 and a `w` bit in bit 0. -/
def opDW (base : Byte) (d w : Bool) : Byte := opW (base ||| (if d then 2 else 0)) w

def Disp.modBits : Disp → BitVec 2
  | .zero => 0
  | .d8 _ => 1
  | .d16 _ => 2

def Disp.encode : Disp → List Byte
  | .zero => []
  | .d8 d => [d]
  | .d16 d => wordBytes d

/-- The mod field (R72). -/
def Rm.modBits : Rm → BitVec 2
  | .reg _ => 3
  | .direct _ => 0
  | .based _ d => d.modBits

/-- The r/m field (R72, R73, R74). -/
def Rm.rmBits : Rm → BitVec 3
  | .reg n => n.bits
  | .direct _ => 6
  | .based f _ => f.bits

/-- The displacement bytes (R72). -/
def Rm.dispBytes : Rm → List Byte
  | .reg _ => []
  | .direct a => wordBytes a
  | .based _ d => d.encode

/-- The ModRM byte (R71) and the displacement bytes. -/
def encodeModRm (reg : BitVec 3) (rm : Rm) : List Byte :=
  (rm.modBits ++ reg ++ rm.rmBits : BitVec 8) :: rm.dispBytes

def Imm.isWord : Imm → Bool
  | .byte _ => false
  | .word _ => true

def Imm.encode : Imm → List Byte
  | .byte v => [v]
  | .word v => wordBytes v

def GroupImm.sBit : GroupImm → Bool
  | .byte opc82 _ => opc82
  | .word _ => false
  | .signed _ => true

def GroupImm.wBit : GroupImm → Bool
  | .byte _ _ => false
  | .word _ | .signed _ => true

def GroupImm.encode : GroupImm → List Byte
  | .byte _ v | .signed v => [v]
  | .word v => wordBytes v

def encodeRmReg (base : Byte) (d : Dir) (w : Width) (reg : RegNum) (rm : Rm) : List Byte :=
  opDW base d.bit w.bit :: encodeModRm reg.bits rm

def encodeGroup (ext : BitVec 3) (rm : Rm) (imm : GroupImm) : List Byte :=
  opDW 0x80 imm.sBit imm.wBit :: (encodeModRm ext rm ++ imm.encode)

/-- The bytes of an instruction (R79 to R83). -/
def encode : Instr → List Byte
  | .movRmReg d w reg rm => encodeRmReg 0x88 d w reg rm
  | .movRmImm rm imm => opW 0xC6 imm.isWord :: (encodeModRm 0 rm ++ imm.encode)
  | .movRegImm reg imm =>
    ((0xB0 ||| (if imm.isWord then 8 else 0) ||| reg.bits.setWidth 8 : Byte)) :: imm.encode
  | .movAccMem w addr => opW 0xA0 w.bit :: wordBytes addr
  | .movMemAcc w addr => opW 0xA2 w.bit :: wordBytes addr
  | .movSregRm sr rm => 0x8E :: encodeModRm (sr.bits.setWidth 3) rm
  | .movRmSreg rm sr => 0x8C :: encodeModRm (sr.bits.setWidth 3) rm
  | .addRmReg d w reg rm => encodeRmReg 0x00 d w reg rm
  | .addRmImm rm imm => encodeGroup 0 rm imm
  | .addAccImm imm => opW 0x04 imm.isWord :: imm.encode
  | .subRmReg d w reg rm => encodeRmReg 0x28 d w reg rm
  | .subRmImm rm imm => encodeGroup 5 rm imm
  | .subAccImm imm => opW 0x2C imm.isWord :: imm.encode
  | .cmpRmReg d w reg rm => encodeRmReg 0x38 d w reg rm
  | .cmpRmImm rm imm => encodeGroup 7 rm imm
  | .cmpAccImm imm => opW 0x3C imm.isWord :: imm.encode
  | .je rel => [0x74, rel]
  | .jne rel => [0x75, rel]
  | .loop rel => [0xE2, rel]

/-! ## The decoded record -/

/-- The register access of a number (R74). -/
def RegNum.access (w : Width) (n : RegNum) : RegAccess :=
  match w with
  | .word =>
    match n with
    | .axAl => ⟨.a, 0, .word⟩ | .cxCl => ⟨.c, 0, .word⟩ | .dxDl => ⟨.d, 0, .word⟩
    | .bxBl => ⟨.b, 0, .word⟩ | .spAh => ⟨.sp, 0, .word⟩ | .bpCh => ⟨.bp, 0, .word⟩
    | .siDh => ⟨.si, 0, .word⟩ | .diBh => ⟨.di, 0, .word⟩
  | .byte =>
    match n with
    | .axAl => ⟨.a, 0, .byte⟩ | .cxCl => ⟨.c, 0, .byte⟩ | .dxDl => ⟨.d, 0, .byte⟩
    | .bxBl => ⟨.b, 0, .byte⟩ | .spAh => ⟨.a, 1, .byte⟩ | .bpCh => ⟨.c, 1, .byte⟩
    | .siDh => ⟨.d, 1, .byte⟩ | .diBh => ⟨.b, 1, .byte⟩

/-- The register access of a segment number (R75). -/
def SegNum.access : SegNum → RegAccess
  | .es => ⟨.es, 0, .word⟩
  | .cs => ⟨.cs, 0, .word⟩
  | .ss => ⟨.ss, 0, .word⟩
  | .ds => ⟨.ds, 0, .word⟩

/-- A term of RD: a word access with scale 1 (R73). -/
def wordTerm (s : Slot) : Term := ⟨⟨s, 0, .word⟩, 1⟩

/-- The terms of an r/m field, in record order (R73). -/
def BaseForm.terms : BaseForm → List Term
  | .bxSi => [wordTerm .b, wordTerm .si]
  | .bxDi => [wordTerm .b, wordTerm .di]
  | .bpSi => [wordTerm .bp, wordTerm .si]
  | .bpDi => [wordTerm .bp, wordTerm .di]
  | .si => [wordTerm .si]
  | .di => [wordTerm .di]
  | .bp => [wordTerm .bp]
  | .bx => [wordTerm .b]

/-- The signed displacement (R76). -/
def Disp.value : Disp → Int
  | .zero => 0
  | .d8 d => sint8 d
  | .d16 d => sint16 d

/-- A memory operand with no terms and an unsigned address (R76). -/
def directOperand (addr : Word) : Operand := .mem [] addr.toNat none

/-- The operand of mod and r/m (R72 to R74); RD sets no segment. -/
def Rm.operand (w : Width) : Rm → Operand
  | .reg n => .reg (n.access w)
  | .direct a => directOperand a
  | .based f d => .mem f.terms d.value none

/-- al or ax (R79). -/
def accOperand (w : Width) : Operand := .reg ⟨.a, 0, w⟩

def Imm.width : Imm → Width
  | .byte _ => .byte
  | .word _ => .word

/-- The literal (R77): unsigned. -/
def Imm.operand : Imm → Operand
  | .byte v => .imm v.toNat
  | .word v => .imm v.toNat

def GroupImm.width : GroupImm → Width
  | .byte _ _ => .byte
  | .word _ | .signed _ => .word

/-- The literal (R77): sign-extended for opcode 83 alone. -/
def GroupImm.operand : GroupImm → Operand
  | .byte _ v => .imm v.toNat
  | .word v => .imm v.toNat
  | .signed v => .imm (sint8 v)

/-- D of R84 for a ModRM form. -/
def Rm.dispLength : Rm → Nat
  | .reg _ => 0
  | .direct _ => 2
  | .based _ .zero => 0
  | .based _ (.d8 _) => 1
  | .based _ (.d16 _) => 2

/-- I of R84. -/
def Imm.length : Imm → Nat
  | .byte _ => 1
  | .word _ => 2

/-- I of R84 for opcodes 80 to 83. -/
def GroupImm.length : GroupImm → Nat
  | .byte _ _ | .signed _ => 1
  | .word _ => 2

/-- A record of a two-operand kind; `length = 1 + M + D + I` (R84). -/
def pairRecord (op : OpKind) (dst src : Operand) (w : Width) (length : Nat) : Record :=
  { op := op, operands := [dst, src], wide := w.bit, length := length }

/-- The `-rm-r` forms (R79 to R82): d = 0 is RM, R and d = 1 is R, RM. -/
def rmRegRecord (op : OpKind) (d : Dir) (w : Width) (reg : RegNum) (rm : Rm) : Record :=
  match d with
  | .toRm => pairRecord op (rm.operand w) (.reg (reg.access w)) w (2 + rm.dispLength)
  | .toReg => pairRecord op (.reg (reg.access w)) (rm.operand w) w (2 + rm.dispLength)

/-- The `-rm-imm` forms of opcodes 80 to 83 (R80 to R82). -/
def rmGroupRecord (op : OpKind) (rm : Rm) (imm : GroupImm) : Record :=
  pairRecord op (rm.operand imm.width) imm.operand imm.width (2 + rm.dispLength + imm.length)

/-- The `-acc-imm` forms (R80 to R82). -/
def accImmRecord (op : OpKind) (imm : Imm) : Record :=
  pairRecord op (accOperand imm.width) imm.operand imm.width (1 + imm.length)

/-- MOV-rm-imm (R79). -/
def movRmImmRecord (rm : Rm) (imm : Imm) : Record :=
  pairRecord .mov (rm.operand imm.width) imm.operand imm.width (2 + rm.dispLength + imm.length)

/-- MOV-r-imm (R79). -/
def movRegImmRecord (reg : RegNum) (imm : Imm) : Record :=
  pairRecord .mov (.reg (reg.access imm.width)) imm.operand imm.width (1 + imm.length)

/-- MOV-acc-mem (R79). -/
def movAccMemRecord (w : Width) (addr : Word) : Record :=
  pairRecord .mov (accOperand w) (directOperand addr) w 3

/-- MOV-mem-acc (R79). -/
def movMemAccRecord (w : Width) (addr : Word) : Record :=
  pairRecord .mov (directOperand addr) (accOperand w) w 3

/-- MOV-sr-rm (R79). -/
def movSregRmRecord (sr : SegNum) (rm : Rm) : Record :=
  pairRecord .mov (.reg sr.access) (rm.operand .word) .word (2 + rm.dispLength)

/-- MOV-rm-sr (R79). -/
def movRmSregRecord (rm : Rm) (sr : SegNum) : Record :=
  pairRecord .mov (rm.operand .word) (.reg sr.access) .word (2 + rm.dispLength)

/-- JE, JNE and LOOP (R78, R83). -/
def relRecord (op : OpKind) (rel : Byte) : Record :=
  { op := op, operands := [.imm (sint8 rel)], wide := false, length := 2 }

/-- The decoded record of an instruction (R79 to R84). -/
def Instr.toRecord : Instr → Record
  | .movRmReg d w reg rm => rmRegRecord .mov d w reg rm
  | .movRmImm rm imm => movRmImmRecord rm imm
  | .movRegImm reg imm => movRegImmRecord reg imm
  | .movAccMem w addr => movAccMemRecord w addr
  | .movMemAcc w addr => movMemAccRecord w addr
  | .movSregRm sr rm => movSregRmRecord sr rm
  | .movRmSreg rm sr => movRmSregRecord rm sr
  | .addRmReg d w reg rm => rmRegRecord .add d w reg rm
  | .addRmImm rm imm => rmGroupRecord .add rm imm
  | .addAccImm imm => accImmRecord .add imm
  | .subRmReg d w reg rm => rmRegRecord .sub d w reg rm
  | .subRmImm rm imm => rmGroupRecord .sub rm imm
  | .subAccImm imm => accImmRecord .sub imm
  | .cmpRmReg d w reg rm => rmRegRecord .cmp d w reg rm
  | .cmpRmImm rm imm => rmGroupRecord .cmp rm imm
  | .cmpAccImm imm => accImmRecord .cmp imm
  | .je rel => relRecord .je rel
  | .jne rel => relRecord .jne rel
  | .loop rel => relRecord .loop rel

/-! ## The decoder as a parameter -/

/-- The `Decode` parameter (R62, R67): a function of `ip` and of the code view, whose byte `k` is the
memory byte at `Reduce(Origin + ip + k)`. That it reads nothing else and writes nothing holds by its
type. -/
abbrev Decoder := Word → (Nat → Byte) → Option Record

/-- The six bytes that the longest instruction needs (R84). -/
def codeBytes (code : Nat → Byte) : List Byte := (List.range 6).map code

/-- The reference decoder, the default of the `Decode` parameter (R70 to R85). -/
def rd : Decoder := fun _ code => (decode (codeBytes code)).map Instr.toRecord

/-! ## The opcode table's numbering of a row's bits -/

/-- Six bytes of a number, the first byte in bits 7 to 0. -/
def bytesLowFirst (w : Nat) : List Byte := (List.range 6).map fun k => BitVec.ofNat 8 (w >>> (8 * k))

/-- A two-byte row of the table as the table writes it: byte 0 is the high pair of hex digits, the
ModRM byte the low pair. -/
def bytesHighFirst (w : Nat) : List Byte := [BitVec.ofNat 8 (w >>> 8), BitVec.ofNat 8 w, 0, 0, 0, 0]

/-- The forms whose row has four hex digits. -/
def Instr.hasTwoByteRow : Instr → Bool
  | .movRmImm _ _ | .movSregRm _ _ | .movRmSreg _ _ => true
  | .addRmImm _ _ | .subRmImm _ _ | .cmpRmImm _ _ => true
  | .movRmReg _ _ _ _ | .movRegImm _ _ | .movAccMem _ _ | .movMemAcc _ _ => false
  | .addRmReg _ _ _ _ | .addAccImm _ | .subRmReg _ _ _ _ | .subAccImm _ => false
  | .cmpRmReg _ _ _ _ | .cmpAccImm _ | .je _ | .jne _ | .loop _ => false

/-- The bytes, as they lie in memory, of a table row's bits: a 16-bit number that reads as a two-byte
row with byte 0 in its high half, as the table's match and mask are written, is read so; every other
number has its first byte in bits 7 to 0. -/
def tableBytes (nbits w : Nat) : List Byte :=
  if nbits = 16 && (decode (bytesHighFirst w)).any Instr.hasTwoByteRow then bytesHighFirst w
  else bytesLowFirst w

/-- The instruction RD reads from an instruction whose bits are `w`, numbered as the opcode table
numbers them. -/
def decodeTableWord (nbits w : Nat) : Option Instr := decode (tableBytes nbits w)

end Sys2Proof
end

