-- ==== Sys2Proof/Config.lean ====
section
/-! DEFINITION. The parameters of a run (00_scope.md R6) and what is fixed for it (10_state.md R29).
The `Decode` parameter is the argument of `stepWith` (Machine/Step.lean). -/

namespace Sys2Proof

/-- The parameters the host gives at start, with the defaults of R6. `endLimit = none` is the default
`codeLength`. The empty `program` is the model's, since R6 gives `Program` no default. -/
structure Params where
  sizePow2 : Nat := 20
  origin   : Nat := 0
  program  : List Byte := []
  endLimit : Option Nat := none
  allocOK  : Bool := true
deriving DecidableEq, Repr

/-- R42's condition on the origin: `0 <= Origin <= MASK`. -/
def Params.wf (p : Params) : Bool := decide (p.origin < 2 ^ p.sizePow2)

/-- `codeLength = min(len(Program), cap)` with `cap = 2^SizePow2 - Origin` (20_memory.md R42). -/
def Params.codeLength (p : Params) : Nat := min p.program.length (2 ^ p.sizePow2 - p.origin)

/-- `EndLimit`, by default `codeLength` (R6). -/
def Params.limit (p : Params) : Nat := p.endLimit.getD p.codeLength

/-- What is fixed for a run (10_state.md R29), carried in `State` because a step takes one argument. -/
structure RunConfig where
  sizePow2   : Nat
  origin     : Nat
  codeLength : Nat
  endLimit   : Nat
deriving DecidableEq, Repr

end Sys2Proof
end

