-- ==== Sys2Proof/Machine/Memory.lean ====
section
/-! DEFINITION. The memory region's bytes (20_memory.md R34, R43): a list of (address, byte) pairs in
one canonical form, where an unlisted address reads as 0. -/

namespace Sys2Proof.Machine

/-- The bytes of the region that are not 0, by address. -/
abbrev Memory := List Host.Cell

/-- What an unlisted address reads as: "Every memory byte that the load does not write is 0 at reset"
(R43). -/
def unlistedByte : Byte := 0

/-- The byte at an address. -/
def Memory.get : Memory → Nat → Byte
  | [], _ => unlistedByte
  | (a, b) :: m, k => if k = a then b else Memory.get m k

/-- Store one byte; storing what an unlisted address reads as removes the entry. -/
def Memory.set : Memory → Nat → Byte → Memory
  | [], k, v => if v = unlistedByte then [] else [(k, v)]
  | (a, b) :: m, k, v =>
    if k < a then (if v = unlistedByte then (a, b) :: m else (k, v) :: (a, b) :: m)
    else if k = a then (if v = unlistedByte then m else (k, v) :: m)
    else (a, b) :: Memory.set m k v

/-- The canonical form: addresses strictly rising, no entry equal to what an unlisted address reads
as. -/
def Memory.wf : Memory → Bool
  | [] => true
  | (a, b) :: m => decide (b ≠ unlistedByte) && m.all (fun c => decide (a < c.1)) && Memory.wf m

/-- Every listed address lies in a region of `n` bytes. -/
def Memory.below (m : Memory) (n : Nat) : Bool := m.all fun c => decide (c.1 < n)

/-- Store bytes at successive addresses from `at0` (the program load of R42). -/
def Memory.load : Memory → Nat → List Byte → Memory
  | m, _, [] => m
  | m, at0, b :: bs => Memory.load (Memory.set m at0 b) (at0 + 1) bs

end Sys2Proof.Machine
end

