-- ==== Sys2Proof/Machine/State.lean ====
section
/-! DEFINITION. The machine state (10_state.md), the reasons a step can stop, and the reset sequence
(70_reset_and_hazards.md R134, R135). -/

namespace Sys2Proof.Machine

/-- The byte-backed storage of one register slot (10_state.md R12, R15). -/
structure RegCell where
  byte0 : Byte := 0
  byte1 : Byte := 0
deriving DecidableEq, Repr

/-- The 15 slots (10_state.md R13), each 0 by default (R30). -/
structure RegFile where
  none  : RegCell := {}
  a     : RegCell := {}
  b     : RegCell := {}
  c     : RegCell := {}
  d     : RegCell := {}
  sp    : RegCell := {}
  bp    : RegCell := {}
  si    : RegCell := {}
  di    : RegCell := {}
  es    : RegCell := {}
  cs    : RegCell := {}
  ss    : RegCell := {}
  ds    : RegCell := {}
  ip    : RegCell := {}
  flags : RegCell := {}
deriving DecidableEq, Repr

/-- The flag bit-set Parity, Zero, Sign (10_state.md R20). -/
structure Flags where
  pf : Bool
  zf : Bool
  sf : Bool
deriving DecidableEq, Repr

/-- The trace events (60_exceptions.md R129). -/
inductive Event
  | exec (r : Record)
  | flagsDelta (before after : Flags)
  | unhandled (r : Record)
  | decodeError (ip : Word)
deriving DecidableEq, Repr

/-- The run status (10_state.md R25). -/
inductive Status
  | running
  | haltedEndOfCode
  | haltedDecodeError (ip : Word)
  | abortedInvalidMemory
deriving DecidableEq, Repr

/-- The machine state: register file, memory region, memory-validity flag, run status, trace
(10_state.md), and the run's fixed configuration (R29). -/
structure State where
  regs     : RegFile
  mem      : Memory
  memValid : Bool
  status   : Status
  trace    : List Event
  cfg      : RunConfig
deriving DecidableEq, Repr

/-- Why a step stops with no next state. -/
inductive Fault
  /-- Raised by `step` and `stepWith` when the status is not `Running`: a halted or aborted run has no
  further step (40_execution_cycle.md R95). Safe: the machine has none either. -/
  | notRunning (status : Status)
  /-- Raised by `step` and `stepWith` when the validity flag is clear: it "gates all further execution"
  (10_state.md R26, 20_memory.md R44). No run reaches it with status `Running`. Safe. -/
  | invalidMemory
deriving DecidableEq, Repr

/-- Why the model gives an instruction no meaning. -/
inductive Refusal
  /-- Raised by `exec` alone, for an instruction not modelled yet; no arm raises it. Safe. -/
  | notModelled (mnemonic : String)
  /-- Raised by `stepWith` when a substituted decoder returns an ill-formed record, naming the first
  failing check (30_encoding.md R69, 60_exceptions.md R118). Safe: the state is unchanged and no
  meaning is given. -/
  | illFormed (check : WfCheck)
deriving DecidableEq, Repr

/-- The status after reset step 6: the end test at start with `ip = 0` (40_execution_cycle.md R89). -/
def startStatus (endLimit : Nat) : Status :=
  if endLimit ≤ 0 then .haltedEndOfCode else .running

/-- The reset sequence (70_reset_and_hazards.md R134). When allocation fails the region is 1 byte long
with the validity flag clear (20_memory.md R44), and nothing is loaded. -/
def State.resetWith (p : Params) : State :=
  if p.allocOK then
    { regs := {}
      mem := Memory.load [] p.origin (p.program.take p.codeLength)
      memValid := true
      status := startStatus p.limit
      trace := []
      cfg := { sizePow2 := p.sizePow2, origin := p.origin, codeLength := p.codeLength,
               endLimit := p.limit } }
  else
    { regs := {}
      mem := []
      memValid := false
      status := .abortedInvalidMemory
      trace := []
      cfg := { sizePow2 := 0, origin := p.origin, codeLength := 0, endLimit := p.endLimit.getD 0 } }

/-- The machine right after reset with the default parameters of 00_scope.md R6 and no program. -/
def State.reset : State := State.resetWith {}

end Sys2Proof.Machine
end

