-- ==== Sys2Proof/Machine/Ops.lean ====
section
/-! DEFINITION. The named operations over registers, memory, the instruction pointer, the trace and the
run status: register access (10_state.md R15, R16), memory access (20_memory.md R35 to R41), and the
parts of a step (40_execution_cycle.md R90, R91, R94). -/

namespace Sys2Proof.Machine

/-! ## The register file -/

/-- `byte0 | (byte1 << 8)` (10_state.md R15). -/
def RegCell.toWord (c : RegCell) : Word := wordOf c.byte0 c.byte1

/-- `byte0 <- v[7:0]`, `byte1 <- v[15:8]` (10_state.md R15). -/
def RegCell.ofWord (v : Word) : RegCell := { byte0 := loByte v, byte1 := hiByte v }

def RegFile.get (r : RegFile) : Slot → RegCell
  | .none => r.none | .a => r.a | .b => r.b | .c => r.c | .d => r.d
  | .sp => r.sp | .bp => r.bp | .si => r.si | .di => r.di
  | .es => r.es | .cs => r.cs | .ss => r.ss | .ds => r.ds
  | .ip => r.ip | .flags => r.flags

def RegFile.set (r : RegFile) (i : Slot) (c : RegCell) : RegFile :=
  match i with
  | .none => { r with none := c }
  | .a => { r with a := c }
  | .b => { r with b := c }
  | .c => { r with c := c }
  | .d => { r with d := c }
  | .sp => { r with sp := c }
  | .bp => { r with bp := c }
  | .si => { r with si := c }
  | .di => { r with di := c }
  | .es => { r with es := c }
  | .cs => { r with cs := c }
  | .ss => { r with ss := c }
  | .ds => { r with ds := c }
  | .ip => { r with ip := c }
  | .flags => { r with flags := c }

/-- `readWord(i)`, `R[i]` (10_state.md R15). -/
def State.readWord (s : State) (i : Slot) : Word := (s.regs.get i).toWord

/-- `writeWord(i, v)`, `R[i] <- v` (10_state.md R15). -/
def State.writeWord (s : State) (i : Slot) (v : Word) : State :=
  { s with regs := s.regs.set i (RegCell.ofWord v) }

/-- The half of a slot: byte offset 0 is the low byte, 1 the high byte (10_state.md R16). -/
def RegCell.half (c : RegCell) (offset : Fin 2) : Byte := if offset = 0 then c.byte0 else c.byte1

/-- Replace one half and leave the other (10_state.md R16, R17). -/
def RegCell.setHalf (c : RegCell) (offset : Fin 2) (v : Byte) : RegCell :=
  if offset = 0 then { c with byte0 := v } else { c with byte1 := v }

/-- `readByte(i, half)` (10_state.md R16). -/
def State.readByte (s : State) (i : Slot) (offset : Fin 2) : Byte := (s.regs.get i).half offset

/-- `writeByte(i, half, v)` (10_state.md R16). -/
def State.writeByte (s : State) (i : Slot) (offset : Fin 2) (v : Byte) : State :=
  { s with regs := s.regs.set i ((s.regs.get i).setHalf offset v) }

/-! ## The memory region -/

/-- The region's length `2^SizePow2` (20_memory.md R34). -/
def State.memSize (s : State) : Nat := 2 ^ s.cfg.sizePow2

/-- `Reduce(a) = a mod 2^SizePow2` of any integer address (20_memory.md R35). -/
def State.reduce (s : State) (a : Int) : Nat := (a % (s.memSize : Int)).toNat

/-- The byte at an address, reduced first (20_memory.md R35). -/
def State.byteAt (s : State) (a : Int) : Byte := Memory.get s.mem (s.reduce a)

/-- Store one byte at an address, reduced first (20_memory.md R35). -/
def State.setByteAt (s : State) (a : Int) (v : Byte) : State :=
  { s with mem := Memory.set s.mem (s.reduce a) v }

/-- `MemRead(addr, n)`, little-endian, each byte reduced on its own (20_memory.md R36, R37); a 1-byte
value is zero-extended. -/
def State.memRead (s : State) (a : Int) : Width → Word
  | .byte => (s.byteAt a).setWidth 16
  | .word => wordOf (s.byteAt a) (s.byteAt (a + 1))

/-- `MemWrite(addr, n, v)`: the low n bytes of v, each address reduced on its own, byte 0 first
(20_memory.md R38). -/
def State.memWrite (s : State) (a : Int) (w : Width) (v : Word) : State :=
  match w with
  | .byte => s.setByteAt a (loByte v)
  | .word => (s.setByteAt a (loByte v)).setByteAt (a + 1) (hiByte v)

/-- `highestAddress()`: the mask (20_memory.md R41). -/
def State.highestAddress (s : State) : Nat := s.memSize - 1

/-- `baseAddress(offset)`: the origin added, then masked (20_memory.md R41). -/
def State.baseAddress (s : State) (offset : Int) : Nat := s.reduce (s.cfg.origin + offset)

/-! ## The instruction pointer, the trace and the status -/

/-- `ip` is `R[IP]` (10_state.md R19). -/
def State.ip (s : State) : Word := s.readWord .ip

/-- `ip <- v`. -/
def State.setIp (s : State) (v : Word) : State := s.writeWord .ip v

/-- `Trace(e)` (00_scope.md R8): append an event. -/
def State.emit (s : State) (e : Event) : State := { s with trace := s.trace ++ [e] }

/-- `ip <- (ip + length) mod 2^16`, before the body runs (40_execution_cycle.md R91). -/
def advance (length : Nat) (s : State) : State := s.setIp (s.ip + BitVec.ofNat 16 length)

/-- A taken branch: `ip <- (ip + rel) mod 2^16` (43_control_transfer.md R110). -/
def branchTo (rel : Int) (s : State) : State := s.setIp (s.ip + BitVec.ofInt 16 rel)

/-- The end test: `HaltedEndOfCode` if `ip >= EndLimit`, unsigned (40_execution_cycle.md R94). -/
def endTest (s : State) : State :=
  if s.cfg.endLimit ≤ s.ip.toNat then { s with status := .haltedEndOfCode } else s

/-- A decode failure, the block's one synchronous fault (60_exceptions.md R117,
40_execution_cycle.md R90): the status records `ip`, the trace gets `DecodeError(ip)`, nothing else
changes. The block has no other exception, no trap entry and no trap return (60_exceptions.md R116,
R124). -/
def takeDecodeError (s : State) : State :=
  { s.emit (.decodeError s.ip) with status := .haltedDecodeError s.ip }

/-- Start of a decoded record's execution: `Exec(I)` is traced (40_execution_cycle.md R98), then `ip`
is advanced (R91). -/
def begin (r : Record) (s : State) : State := advance r.length (s.emit (.exec r))

/-- A well-formed record from its trace event to the end test, around its body
(40_execution_cycle.md R96). -/
def complete (r : Record) (body : State → State) (s : State) : State := endTest (body (begin r s))

end Sys2Proof.Machine
end

