-- ==== Sys2Proof/Machine/Flags.lean ====
section
/-! DEFINITION. The flags engine (42_arithmetic.md R102, R103, R108) and the FLAGS slot's layout
(10_state.md R20). -/

namespace Sys2Proof.Machine

/-- The number of 1 bits of a byte (00_scope.md R7). -/
def popcount (b : Byte) : Nat := ((List.range 8).filter fun k => b.getLsbD k).length

/-- `computeFlags(resultWord)` (42_arithmetic.md R102). -/
def computeFlags (v : Word) : Flags :=
  { pf := popcount (loByte v) % 2 == 0
    zf := v == 0
    sf := v.getLsbD 15 }

/-- PF in bit 2, ZF in bit 6, SF in bit 7, all other bits 0 (10_state.md R20). -/
def Flags.toWord (f : Flags) : Word :=
  (if f.pf then 0x0004 else 0) ||| (if f.zf then 0x0040 else 0) ||| (if f.sf then 0x0080 else 0)

/-- The three bits of the FLAGS slot (10_state.md R20). -/
def State.flags (s : State) : Flags :=
  let v := s.readWord .flags
  { pf := v.getLsbD 2, zf := v.getLsbD 6, sf := v.getLsbD 7 }

/-- Replace all three bits (42_arithmetic.md R103). -/
def State.setFlags (s : State) (f : Flags) : State := s.writeWord .flags f.toWord

/-- Trace the flag delta if the flags differ from those before (42_arithmetic.md R108). -/
def emitDelta (before after : Flags) (s : State) : State :=
  if before = after then s else s.emit (.flagsDelta before after)

end Sys2Proof.Machine
end

