-- ==== Sys2Proof/Machine/Operands.lean ====
section
/-! DEFINITION. The operand resolver (20_memory.md section 5): term values, the effective-address fold,
locations, and reading and writing through them. -/

namespace Sys2Proof.Machine

/-- A byte location (20_memory.md R51). The scratch cell of an immediate is the value in `imm`
(10_state.md R27). -/
inductive Loc
  | reg (slot : Slot) (offset : Fin 2) (count : Width)
  | mem (addr : Int) (count : Width)
  | imm (cell : Word) (count : Width)
deriving DecidableEq, Repr

/-- `0xFF` for one byte, `0xFFFF` for two (20_memory.md R53, R59). -/
def widthMask : Width → Word
  | .byte => 0xFF
  | .word => 0xFFFF

/-- `(R[i] >> (8*off)) & mask` (20_memory.md R53, R59). -/
def accessValue (s : State) (a : RegAccess) : Word :=
  (s.readWord a.slot >>> (8 * a.offset.val)) &&& widthMask a.count

/-- One term of the fold: `acc <- (acc + TermValue) * scale`; a term that names NONE is absent and its
scale is not applied (20_memory.md R54). DESIGN CHOICE (log entry 18): a present term's value is added whatever
slot it names, so a term that names ES, CS, SS or DS adds that slot's value. -/
def foldTerm (s : State) (acc : Int) (t : Term) : Int :=
  if t.reg.slot = .none then acc else (acc + (accessValue s t.reg).toNat) * t.scale

/-- The effective address: the left-to-right fold plus the displacement, in unbounded integers
(20_memory.md R54, R55). -/
def effectiveAddress (s : State) (terms : List Term) (disp : Int) : Int :=
  terms.foldl (foldTerm s) 0 + disp

/-- `Resolve(operand)` at width W (20_memory.md R52, R57, R58). A segment field has no effect (R56);
a term that names a segment slot is no such field (log entry 18).
`NoOperand` resolves to an empty cell; WF1 (30_encoding.md R68) keeps it from any operand that is
resolved. -/
def resolve (w : Width) (o : Operand) (s : State) : Loc :=
  match o with
  | .none => .imm 0 w
  | .reg a => .reg a.slot a.offset a.count
  | .mem terms disp _ => .mem (effectiveAddress s terms disp) w
  | .imm v => .imm (BitVec.ofInt 16 v) w

/-- `ReadLoc(loc, n)`, an unsigned number of n bytes (20_memory.md R59). -/
def readLoc (l : Loc) (s : State) : Word :=
  match l with
  | .reg i off cnt => accessValue s ⟨i, off, cnt⟩
  | .mem a cnt => s.memRead a cnt
  | .imm c cnt => c &&& widthMask cnt

/-- `WriteLoc(loc, n, v)`: the low n bytes of v (20_memory.md R60). A write to an immediate never
happens: WF6 (30_encoding.md R68). -/
def writeLoc (l : Loc) (v : Word) (s : State) : State :=
  match l with
  | .reg i off cnt =>
    match cnt with
    | .word => s.writeWord i v
    | .byte => s.writeByte i off (loByte v)
  | .mem a cnt => s.memWrite a cnt v
  | .imm _ _ => s

end Sys2Proof.Machine
end

