-- ==== Sys2Proof/Machine/Body.lean ====
section
/-! DEFINITION. The bodies of the seven operation kinds over decoded operands, and the execution of a
whole record: what a step does once a record is decoded (40_execution_cycle.md R92, R93, R96). -/

namespace Sys2Proof.Machine

/-- MOV: copy W bytes from source to destination (41_data_movement.md R100). Both locations are
resolved and the source read before the write (20_memory.md R61). -/
def movBody (w : Width) (dst src : Operand) (s : State) : State :=
  writeLoc (resolve w dst s) (readLoc (resolve w src s) s) s

/-- `zext_32` of an operand read as W bytes (42_arithmetic.md R101). -/
def widen (w : Width) (o : Operand) (s : State) : Acc := (readLoc (resolve w o s) s).setWidth 32

/-- ADD's accumulator: `(a + b) mod 2^32` (42_arithmetic.md R105). -/
def addAcc (w : Width) (dst src : Operand) (s : State) : Acc := widen w dst s + widen w src s

/-- SUB's and CMP's accumulator: `(a - b) mod 2^32` (42_arithmetic.md R106, R107). -/
def subAcc (w : Width) (dst src : Operand) (s : State) : Acc := widen w dst s - widen w src s

/-- Flags from the low 16 bits of the accumulator, the write-back of its low W bytes, then the flag
delta (42_arithmetic.md R105). -/
def arithStore (acc : Acc) (dst : Loc) (s : State) : State :=
  let f := computeFlags (acc.setWidth 16)
  emitDelta s.flags f (writeLoc dst (acc.setWidth 16) (s.setFlags f))

/-- Flags from the low 16 bits of the accumulator, then the flag delta; nothing is written back
(42_arithmetic.md R107). -/
def arithFlags (acc : Acc) (s : State) : State :=
  let f := computeFlags (acc.setWidth 16)
  emitDelta s.flags f (s.setFlags f)

/-- ADD (42_arithmetic.md R105). -/
def addBody (w : Width) (dst src : Operand) (s : State) : State :=
  arithStore (addAcc w dst src s) (resolve w dst s) s

/-- SUB (42_arithmetic.md R106). -/
def subBody (w : Width) (dst src : Operand) (s : State) : State :=
  arithStore (subAcc w dst src s) (resolve w dst s) s

/-- CMP (42_arithmetic.md R107). -/
def cmpBody (w : Width) (dst src : Operand) (s : State) : State :=
  arithFlags (subAcc w dst src s) s

/-- The value of an `Imm` operand as a signed integer (43_control_transfer.md R110). WF1 gives every
branch one. -/
def relOf : Operand → Int
  | .imm v => v
  | .none | .reg _ | .mem _ _ _ => 0

/-- JE: branch if ZF is set (43_control_transfer.md R111). -/
def jeBody (rel : Int) (s : State) : State := if s.flags.zf then branchTo rel s else s

/-- JNE: branch if ZF is clear (43_control_transfer.md R112). -/
def jneBody (rel : Int) (s : State) : State := if s.flags.zf then s else branchTo rel s

/-- LOOP: decrement CX, branch if the new value is not zero (43_control_transfer.md R113). -/
def loopBody (rel : Int) (s : State) : State :=
  let t := s.writeWord .c (s.readWord .c - 1)
  if t.readWord .c = 0 then t else branchTo rel t

/-- An operation outside the subset: reported and stepped over (40_execution_cycle.md R93). -/
def otherBody (r : Record) (s : State) : State := s.emit (.unhandled r)

/-- The dispatch on the operation kind (40_execution_cycle.md R92). -/
def recordBody (r : Record) : State → State :=
  match r.op with
  | .mov => movBody r.width (r.operand 0) (r.operand 1)
  | .add => addBody r.width (r.operand 0) (r.operand 1)
  | .sub => subBody r.width (r.operand 0) (r.operand 1)
  | .cmp => cmpBody r.width (r.operand 0) (r.operand 1)
  | .je => jeBody (relOf (r.operand 0))
  | .jne => jneBody (relOf (r.operand 0))
  | .loop => loopBody (relOf (r.operand 0))
  | .other _ => otherBody r

/-- A decoded record's execution: refused with the first failing check if it is ill-formed
(30_encoding.md R69), else completed (40_execution_cycle.md R96). -/
def runRecord (r : Record) (s : State) : Host.Outcome State Fault Refusal :=
  match r.firstFailingCheck with
  | some c => .refused (.illFormed c)
  | none => .next (complete r (recordBody r) s)

/-! The execution of a record of each kind, which the instructions' meanings share. -/

def runMov (r : Record) (s : State) : Host.Outcome State Fault Refusal :=
  .next (complete r (movBody r.width (r.operand 0) (r.operand 1)) s)

def runAdd (r : Record) (s : State) : Host.Outcome State Fault Refusal :=
  .next (complete r (addBody r.width (r.operand 0) (r.operand 1)) s)

def runSub (r : Record) (s : State) : Host.Outcome State Fault Refusal :=
  .next (complete r (subBody r.width (r.operand 0) (r.operand 1)) s)

def runCmp (r : Record) (s : State) : Host.Outcome State Fault Refusal :=
  .next (complete r (cmpBody r.width (r.operand 0) (r.operand 1)) s)

end Sys2Proof.Machine
end

