-- ==== Sys2Proof/Machine/Cycle.lean ====
section
/-! DEFINITION. Instruction fetch (10_state.md R19, 20_memory.md R39, R49), when a step may be taken
(40_execution_cycle.md R88, R95), the step for any decoder (R96), and a run of steps (R97). -/

namespace Sys2Proof.Machine

/-- The code view: byte k is at `Reduce(Origin + ip + k)` (20_memory.md R39, R41). -/
def codeAt (s : State) (k : Nat) : Byte := s.byteAt (s.cfg.origin + s.ip.toNat + k)

/-- The bytes the reference decoder reads, as memory holds them at the start of the step
(20_memory.md R49). -/
def fetch (s : State) : List Byte := codeBytes (codeAt s)

/-- Why no step is taken: "A step is taken only while the status is `Running`"
(40_execution_cycle.md R88, R95), and the validity flag gates execution (20_memory.md R44). -/
def stopReason (s : State) : Option Fault :=
  if s.status ≠ .running then some (.notRunning s.status)
  else if s.memValid then none
  else some .invalidMemory

/-- The complete step for a `Decode` parameter (40_execution_cycle.md R96). -/
def stepWith (decoder : Decoder) (s : State) : Host.Outcome State Fault Refusal :=
  match stopReason s with
  | some f => .fault f
  | none =>
    match decoder s.ip (codeAt s) with
    | none => .next (takeDecodeError s)
    | some r => runRecord r s

/-- Why a run ends at a state whose status is still `Running`: its step is refused (40_execution_cycle.md
R88), or faults (in states that no run reaches, 20_memory.md R44). -/
inductive RunStop
  | fault (f : Fault)
  | refused (r : Refusal)
deriving DecidableEq, Repr

/-- The end of a run (40_execution_cycle.md R97): the state it came to, whose status, slots, memory and
trace the host reads (60_exceptions.md R131), and the mark of a step that stopped there, which is kept for
the whole run (R88, 60_exceptions.md R118). -/
structure RunEnd where
  state : State
  stop  : Option RunStop
deriving DecidableEq, Repr

/-- A run under fuel (40_execution_cycle.md R97, R99): steps until the status is not `Running` or a step
stops. A refused step changes no state, so the run ends at the state it was taken from (R88). -/
def runWith (decoder : Decoder) : Nat → State → RunEnd
  | 0, s => { state := s, stop := none }
  | k + 1, s =>
    if s.status = .running then
      match stepWith decoder s with
      | .next t => runWith decoder k t
      | .fault f => { state := s, stop := some (.fault f) }
      | .refused r => { state := s, stop := some (.refused r) }
    else { state := s, stop := none }

/-- A run from reset (40_execution_cycle.md R97); `State.resetWith` applies the end test at start
(R89). -/
def runFromReset (decoder : Decoder) (p : Params) (fuel : Nat) : RunEnd :=
  runWith decoder fuel (State.resetWith p)

/-- Put bytes where the code view reads them, from its byte k on; where a small region makes two of them
meet, the earlier one stands. -/
def placeCode (s : State) : Nat → List Byte → State
  | _, [] => s
  | k, b :: bs =>
    (placeCode s (k + 1) bs).setByteAt (s.cfg.origin + s.ip.toNat + k) b

/-- A run that is going on, with loaded code up to the end of the six bytes at `ip`. -/
def coverCode (s : State) : State :=
  { s with
    status := .running
    memValid := true
    cfg := { s.cfg with
      codeLength := max s.cfg.codeLength (s.ip.toNat + 6)
      endLimit := max s.cfg.endLimit (s.ip.toNat + 6) } }

end Sys2Proof.Machine
end

