-- ==== Sys2Proof/Machine/Arith.lean ====
section
/-! DEFINITION. The meanings of the ADD, SUB and CMP forms (42_arithmetic.md R105 to R107): each runs
the record its bytes stand for (30_encoding.md R80 to R82). -/

namespace Sys2Proof.Machine

def execAddRmReg (d : Dir) (w : Width) (reg : RegNum) (rm : Rm) (s : State) :
    Host.Outcome State Fault Refusal :=
  runAdd (rmRegRecord .add d w reg rm) s

def execAddRmImm (rm : Rm) (imm : GroupImm) (s : State) : Host.Outcome State Fault Refusal :=
  runAdd (rmGroupRecord .add rm imm) s

def execAddAccImm (imm : Imm) (s : State) : Host.Outcome State Fault Refusal :=
  runAdd (accImmRecord .add imm) s

def execSubRmReg (d : Dir) (w : Width) (reg : RegNum) (rm : Rm) (s : State) :
    Host.Outcome State Fault Refusal :=
  runSub (rmRegRecord .sub d w reg rm) s

def execSubRmImm (rm : Rm) (imm : GroupImm) (s : State) : Host.Outcome State Fault Refusal :=
  runSub (rmGroupRecord .sub rm imm) s

def execSubAccImm (imm : Imm) (s : State) : Host.Outcome State Fault Refusal :=
  runSub (accImmRecord .sub imm) s

def execCmpRmReg (d : Dir) (w : Width) (reg : RegNum) (rm : Rm) (s : State) :
    Host.Outcome State Fault Refusal :=
  runCmp (rmRegRecord .cmp d w reg rm) s

def execCmpRmImm (rm : Rm) (imm : GroupImm) (s : State) : Host.Outcome State Fault Refusal :=
  runCmp (rmGroupRecord .cmp rm imm) s

def execCmpAccImm (imm : Imm) (s : State) : Host.Outcome State Fault Refusal :=
  runCmp (accImmRecord .cmp imm) s

end Sys2Proof.Machine
end

