-- ==== Sys2Proof/Machine/Branch.lean ====
section
/-! DEFINITION. The meanings of JE, JNE and LOOP (43_control_transfer.md R110 to R113), with the signed
displacement of 30_encoding.md R78. -/

namespace Sys2Proof.Machine

def execJe (rel : Byte) (s : State) : Host.Outcome State Fault Refusal :=
  .next (complete (relRecord .je rel) (jeBody (sint8 rel)) s)

def execJne (rel : Byte) (s : State) : Host.Outcome State Fault Refusal :=
  .next (complete (relRecord .jne rel) (jneBody (sint8 rel)) s)

def execLoop (rel : Byte) (s : State) : Host.Outcome State Fault Refusal :=
  .next (complete (relRecord .loop rel) (loopBody (sint8 rel)) s)

end Sys2Proof.Machine
end

