-- ==== Sys2Proof/Machine/Mov.lean ====
section
/-! DEFINITION. The meanings of the seven MOV forms (41_data_movement.md R100): each runs the record its
bytes stand for (30_encoding.md R79). -/

namespace Sys2Proof.Machine

def execMovRmReg (d : Dir) (w : Width) (reg : RegNum) (rm : Rm) (s : State) :
    Host.Outcome State Fault Refusal :=
  runMov (rmRegRecord .mov d w reg rm) s

def execMovRmImm (rm : Rm) (imm : Imm) (s : State) : Host.Outcome State Fault Refusal :=
  runMov (movRmImmRecord rm imm) s

def execMovRegImm (reg : RegNum) (imm : Imm) (s : State) : Host.Outcome State Fault Refusal :=
  runMov (movRegImmRecord reg imm) s

def execMovAccMem (w : Width) (addr : Word) (s : State) : Host.Outcome State Fault Refusal :=
  runMov (movAccMemRecord w addr) s

def execMovMemAcc (w : Width) (addr : Word) (s : State) : Host.Outcome State Fault Refusal :=
  runMov (movMemAccRecord w addr) s

/-- A segment slot is plain word storage; CS is written like any other (10_state.md R22,
30_encoding.md R85). -/
def execMovSregRm (sr : SegNum) (rm : Rm) (s : State) : Host.Outcome State Fault Refusal :=
  runMov (movSregRmRecord sr rm) s

def execMovRmSreg (rm : Rm) (sr : SegNum) (s : State) : Host.Outcome State Fault Refusal :=
  runMov (movRmSregRecord rm sr) s

end Sys2Proof.Machine
end

