-- ==== Sys2Proof/Machine/Step.lean ====
section
/-! DEFINITION. One step of the execution loop with the reference decoder (40_execution_cycle.md R96). -/

namespace Sys2Proof.Machine

/-- A step: none is taken unless the run is going on (R88); a decode failure halts it (R90); a decoded
instruction runs (R91 to R94). -/
def step (s : State) : Host.Outcome State Fault Refusal :=
  match stopReason s with
  | some f => .fault f
  | none =>
    match decode (fetch s) with
    | none => .next (takeDecodeError s)
    | some i => exec i s

/-- The state with an instruction of the opcode table stored where the next step fetches, as a program
load leaves it: the bytes in the code view at `ip`, the run going on, and the loaded code reaching past
those bytes. -/
def State.withFetchWord (s : State) (nbits w : Nat) : State :=
  coverCode (placeCode s 0 (tableBytes nbits w))

end Sys2Proof.Machine
end

