-- ==== Sys2Proof/Machine/Report.lean ====
section
/-! DEFINITION. What the host reads at the end of a run: the trace's text, the final report and the
memory dump (42_arithmetic.md R108, 60_exceptions.md R129, R131 to R133). Observation only: no step
reads any of it. -/

namespace Sys2Proof.Machine

/-- `L(f)`: the set flags in the order P, Z, S (42_arithmetic.md R108). -/
def Flags.letters (f : Flags) : String :=
  (if f.pf then "P" else "") ++ (if f.zf then "Z" else "") ++ (if f.sf then "S" else "")

/-- The flag-delta text `L(before) "->" L(after)` (42_arithmetic.md R108). -/
def deltaText (before after : Flags) : String := before.letters ++ "->" ++ after.letters

/-- The text of a trace event. The record formatter and the decode-error message are the host's
(60_exceptions.md R129; 92_eei_decisions.md D31 leaves them open), so they are arguments. -/
def eventText (format unhandled : Record → String) (message : Word → String) : Event → String
  | .exec r => format r
  | .flagsDelta before after => deltaText before after
  | .unhandled r => unhandled r
  | .decodeError ip => message ip

/-- The slots of the final report, in its order, with their word names (60_exceptions.md R132,
10_state.md R13). -/
def reportSlots : List (Slot × String) := [
  (.a, "ax"), (.b, "bx"), (.c, "cx"), (.d, "dx"), (.sp, "sp"), (.bp, "bp"), (.si, "si"), (.di, "di"),
  (.es, "es"), (.cs, "cs"), (.ss, "ss"), (.ds, "ds")]

def hexDigit (n : Nat) : Char :=
  ['0', '1', '2', '3', '4', '5', '6', '7', '8', '9', 'a', 'b', 'c', 'd', 'e', 'f'].getD n '0'

/-- Four lower-case hexadecimal digits (60_exceptions.md R132). -/
def hex4 (v : Word) : String :=
  String.ofList [hexDigit (v.toNat / 4096), hexDigit (v.toNat / 256 % 16),
    hexDigit (v.toNat / 16 % 16), hexDigit (v.toNat % 16)]

/-- `<name>: 0x<hex> (<decimal>)` (60_exceptions.md R132). -/
def reportLine (name : String) (v : Word) : String :=
  name ++ ": 0x" ++ hex4 v ++ " (" ++ toString v.toNat ++ ")"

/-- The final report: one line per non-zero general slot, then the flags (60_exceptions.md R132). -/
def finalReport (s : State) : List String :=
  (reportSlots.filterMap fun p =>
      if s.readWord p.1 = 0 then none else some (reportLine p.2 (s.readWord p.1))) ++
    ["flags: " ++ s.flags.letters]

/-- The memory dump: every byte of the region in address order (60_exceptions.md R133). -/
def memoryDump (s : State) : List Byte := (List.range s.memSize).map fun (a : Nat) => s.byteAt a

/-- What the optional dump flag makes of the final state: the file `DumpFileName`, whose name is a parameter
(92_eei_decisions.md D30), and its raw bytes; without the flag, no file (60_exceptions.md R133). -/
def dumpFile (dumpFileName : String) (flag : Bool) (s : State) : Option (String × List Byte) :=
  if flag then some (dumpFileName, memoryDump s) else none

/-- The word values of the 15 slots, by index (60_exceptions.md R131). -/
def slotWords (s : State) : List Word :=
  [Slot.none, .a, .b, .c, .d, .sp, .bp, .si, .di, .es, .cs, .ss, .ds, .ip, .flags].map s.readWord

end Sys2Proof.Machine
end

