-- ==== Sys2Proof/Safety.lean ====
section
/-! DEFINITION. The terms claims use: instruction families, locations and what a store leaves at one, the
byte-level counts of RD's tables, the state invariant, and safe runs. -/

namespace Sys2Proof

/-- The MOV forms. -/
def Instr.isMov : Instr → Bool
  | .movRmReg _ _ _ _ | .movRmImm _ _ | .movRegImm _ _ | .movAccMem _ _ | .movMemAcc _ _ => true
  | .movSregRm _ _ | .movRmSreg _ _ => true
  | .addRmReg _ _ _ _ | .addRmImm _ _ | .addAccImm _ => false
  | .subRmReg _ _ _ _ | .subRmImm _ _ | .subAccImm _ => false
  | .cmpRmReg _ _ _ _ | .cmpRmImm _ _ | .cmpAccImm _ => false
  | .je _ | .jne _ | .loop _ => false

/-- The ADD forms. -/
def Instr.isAdd : Instr → Bool
  | .addRmReg _ _ _ _ | .addRmImm _ _ | .addAccImm _ => true
  | .movRmReg _ _ _ _ | .movRmImm _ _ | .movRegImm _ _ | .movAccMem _ _ | .movMemAcc _ _ => false
  | .movSregRm _ _ | .movRmSreg _ _ => false
  | .subRmReg _ _ _ _ | .subRmImm _ _ | .subAccImm _ => false
  | .cmpRmReg _ _ _ _ | .cmpRmImm _ _ | .cmpAccImm _ => false
  | .je _ | .jne _ | .loop _ => false

/-- The SUB forms. -/
def Instr.isSub : Instr → Bool
  | .subRmReg _ _ _ _ | .subRmImm _ _ | .subAccImm _ => true
  | .movRmReg _ _ _ _ | .movRmImm _ _ | .movRegImm _ _ | .movAccMem _ _ | .movMemAcc _ _ => false
  | .movSregRm _ _ | .movRmSreg _ _ => false
  | .addRmReg _ _ _ _ | .addRmImm _ _ | .addAccImm _ => false
  | .cmpRmReg _ _ _ _ | .cmpRmImm _ _ | .cmpAccImm _ => false
  | .je _ | .jne _ | .loop _ => false

/-- The CMP forms. -/
def Instr.isCmp : Instr → Bool
  | .cmpRmReg _ _ _ _ | .cmpRmImm _ _ | .cmpAccImm _ => true
  | .movRmReg _ _ _ _ | .movRmImm _ _ | .movRegImm _ _ | .movAccMem _ _ | .movMemAcc _ _ => false
  | .movSregRm _ _ | .movRmSreg _ _ => false
  | .addRmReg _ _ _ _ | .addRmImm _ _ | .addAccImm _ => false
  | .subRmReg _ _ _ _ | .subRmImm _ _ | .subAccImm _ => false
  | .je _ | .jne _ | .loop _ => false

/-- The relative branches and their displacement byte. -/
def Instr.relByte? : Instr → Option Byte
  | .je rel | .jne rel | .loop rel => some rel
  | .movRmReg _ _ _ _ | .movRmImm _ _ | .movRegImm _ _ | .movAccMem _ _ | .movMemAcc _ _ => none
  | .movSregRm _ _ | .movRmSreg _ _ => none
  | .addRmReg _ _ _ _ | .addRmImm _ _ | .addAccImm _ => none
  | .subRmReg _ _ _ _ | .subRmImm _ _ | .subAccImm _ => none
  | .cmpRmReg _ _ _ _ | .cmpRmImm _ _ | .cmpAccImm _ => none

/-! The tables of 30_encoding.md section 3 read off raw bytes, apart from the decoder's own rows. -/

/-- The opcode bytes listed in R79 to R83. -/
def listedOpcodes : List Byte :=
  [0x88, 0x89, 0x8A, 0x8B, 0xC6, 0xC7] ++
  [0xB0, 0xB1, 0xB2, 0xB3, 0xB4, 0xB5, 0xB6, 0xB7, 0xB8, 0xB9, 0xBA, 0xBB, 0xBC, 0xBD, 0xBE, 0xBF] ++
  [0xA0, 0xA1, 0xA2, 0xA3, 0x8E, 0x8C] ++
  [0x00, 0x01, 0x02, 0x03, 0x80, 0x81, 0x82, 0x83, 0x04, 0x05] ++
  [0x28, 0x29, 0x2A, 0x2B, 0x2C, 0x2D, 0x38, 0x39, 0x3A, 0x3B, 0x3C, 0x3D] ++
  [0x74, 0x75, 0xE2]

/-- The opcodes whose form has a ModRM byte (R84: M = 1). -/
def modRmOpcodes : List Byte :=
  [0x88, 0x89, 0x8A, 0x8B, 0xC6, 0xC7, 0x8E, 0x8C, 0x00, 0x01, 0x02, 0x03, 0x80, 0x81, 0x82, 0x83] ++
  [0x28, 0x29, 0x2A, 0x2B, 0x38, 0x39, 0x3A, 0x3B]

/-- The two first bytes of an encoding RD does not recognise (R85). -/
def unrecognizedBytes (b0 b1 : Byte) : Bool :=
  let reg := b1.toNat / 8 % 8
  !listedOpcodes.contains b0
    || ([0x80, 0x81, 0x82, 0x83] : List Byte).contains b0 && [1, 2, 3, 4, 6].contains reg
    || ([0xC6, 0xC7] : List Byte).contains b0 && reg != 0
    || ([0x8C, 0x8E] : List Byte).contains b0 && b1.toNat / 32 % 2 == 1

/-- The displacement bytes that a ModRM byte calls for (R72). -/
def modRmDispCount (b1 : Byte) : Nat :=
  let mod := b1.toNat / 64
  if mod = 1 then 1 else if mod = 2 then 2 else if mod = 0 && b1.toNat % 8 = 6 then 2 else 0

/-- The operand of a register number (R74). -/
def registerOperand (w : Bool) (n : Nat) : Operand :=
  let bytes : List RegAccess :=
    [⟨.a, 0, .byte⟩, ⟨.c, 0, .byte⟩, ⟨.d, 0, .byte⟩, ⟨.b, 0, .byte⟩,
     ⟨.a, 1, .byte⟩, ⟨.c, 1, .byte⟩, ⟨.d, 1, .byte⟩, ⟨.b, 1, .byte⟩]
  let words : List RegAccess :=
    [⟨.a, 0, .word⟩, ⟨.c, 0, .word⟩, ⟨.d, 0, .word⟩, ⟨.b, 0, .word⟩,
     ⟨.sp, 0, .word⟩, ⟨.bp, 0, .word⟩, ⟨.si, 0, .word⟩, ⟨.di, 0, .word⟩]
  .reg ((if w then words else bytes).getD n ⟨.none, 0, .byte⟩)

/-- The terms of an r/m number that selects memory (R73). -/
def modRmTerms (rm : Nat) : List Term :=
  let slots : List (List Slot) :=
    [[.b, .si], [.b, .di], [.bp, .si], [.bp, .di], [.si], [.di], [.bp], [.b]]
  (slots.getD rm []).map fun s => ⟨⟨s, 0, .word⟩, 1⟩

/-- `sint_8` and `sint_16` (00_scope.md R8) of an unsigned number. -/
def signed8 (n : Nat) : Int := if n < 128 then (n : Int) else (n : Int) - 256
def signed16 (n : Nat) : Int := if n < 32768 then (n : Int) else (n : Int) - 65536

/-- The operand that a ModRM byte and the two bytes after it select, of which it takes
`modRmDispCount b1` (R72, R76). -/
def modRmOperand (w : Bool) (b1 d0 d1 : Byte) : Operand :=
  let mod := b1.toNat / 64
  let rm := b1.toNat % 8
  let two := d1.toNat * 256 + d0.toNat
  if mod = 3 then registerOperand w rm
  else if mod = 2 then .mem (modRmTerms rm) (signed16 two) none
  else if mod = 1 then .mem (modRmTerms rm) (signed8 d0.toNat) none
  else if rm = 6 then .mem [] two none
  else .mem (modRmTerms rm) 0 none

/-- The sixteen opcodes of the `-rm-r` forms, with their kind, `d` bit and `w` bit (R79 to R82). -/
def rmRegOpcodes : List (Byte × OpKind × Bool × Bool) := [
  (0x88, .mov, false, false), (0x89, .mov, false, true),
  (0x8A, .mov, true, false), (0x8B, .mov, true, true),
  (0x00, .add, false, false), (0x01, .add, false, true),
  (0x02, .add, true, false), (0x03, .add, true, true),
  (0x28, .sub, false, false), (0x29, .sub, false, true),
  (0x2A, .sub, true, false), (0x2B, .sub, true, true),
  (0x38, .cmp, false, false), (0x39, .cmp, false, true),
  (0x3A, .cmp, true, false), (0x3B, .cmp, true, true)]

/-- The record RD reads at the head of a stream, and the bytes left. -/
def recordOf (bs : List Byte) : Option (Record × List Byte) :=
  (decodeRest bs).map fun p => (p.1.toRecord, p.2)

/-- M of R84. -/
def modRmCount (b0 : Byte) : Nat := if modRmOpcodes.contains b0 then 1 else 0

/-- D of R84. -/
def dispCount (b0 b1 : Byte) : Nat :=
  if modRmOpcodes.contains b0 then modRmDispCount b1
  else if ([0xA0, 0xA1, 0xA2, 0xA3] : List Byte).contains b0 then 2 else 0

/-- I of R84. -/
def immCount (b0 : Byte) : Nat :=
  if ([0xC7, 0xB8, 0xB9, 0xBA, 0xBB, 0xBC, 0xBD, 0xBE, 0xBF, 0x81, 0x05, 0x2D, 0x3D] :
    List Byte).contains b0 then 2
  else if ([0xC6, 0xB0, 0xB1, 0xB2, 0xB3, 0xB4, 0xB5, 0xB6, 0xB7, 0x80, 0x82, 0x83, 0x04, 0x2C, 0x3C,
    0x74, 0x75, 0xE2] : List Byte).contains b0 then 1
  else 0

/-- The 1 bits among the low eight bits of a number are even in number (42_arithmetic.md R102). -/
def evenOnes (n : Nat) : Bool := ((List.range 8).map fun k => n / 2 ^ k % 2).sum % 2 == 0

end Sys2Proof

namespace Sys2Proof.Machine

/-- The destination location an instruction writes through, resolved in a state. -/
def dstLoc (i : Instr) (s : State) : Loc := resolve i.toRecord.width (i.toRecord.operand 0) s

/-- The source location an instruction reads through, resolved in a state. -/
def srcLoc (i : Instr) (s : State) : Loc := resolve i.toRecord.width (i.toRecord.operand 1) s

/-- A location lies in a byte range of memory: `a` is one of its reduced addresses. -/
def Loc.covers (l : Loc) (s : State) (a : Nat) : Bool :=
  match l with
  | .mem addr .byte => a == s.reduce addr
  | .mem addr .word => a == s.reduce addr || a == s.reduce (addr + 1)
  | .reg _ _ _ | .imm _ _ => false

/-- The slot a location lies in. -/
def Loc.inSlot (l : Loc) (i : Slot) : Bool :=
  match l with
  | .reg j _ _ => i == j
  | .mem _ _ | .imm _ _ => false

/-- After a store of `v` through a location, from `s` to `t` (20_memory.md R60): a word register holds
`v`; a byte half holds its low byte and the other half is kept; memory holds its low bytes, where byte 1
of a word, stored last, is what a one-byte region keeps. -/
def storedAt (l : Loc) (v : Word) (s t : State) : Prop :=
  match l with
  | .reg i _ .word => t.readWord i = v
  | .reg i off .byte =>
    if off = 0 then t.readWord i = (s.readWord i &&& 0xFF00#16) ||| (v &&& 0x00FF#16)
    else t.readWord i = (s.readWord i &&& 0x00FF#16) ||| (v <<< 8)
  | .mem a .byte => (t.byteAt a).toNat = v.toNat % 256
  | .mem a .word =>
    (t.byteAt (a + 1)).toNat = v.toNat / 256 ∧
      (s.reduce a ≠ s.reduce (a + 1) → (t.byteAt a).toNat = v.toNat % 256)
  | .imm _ _ => False

/-- The state invariant: memory canonical and inside the region (20_memory.md R34), NONE 0
(10_state.md R23), the FLAGS bits other than 2, 6, 7 zero (10_state.md R20), the validity flag set
and `ip` below the end limit while running (20_memory.md R44, 40_execution_cycle.md R89, R94), and a
decode error recorded at `ip` (40_execution_cycle.md R90). -/
structure State.Inv (s : State) : Prop where
  memWf : Memory.wf s.mem = true
  memBelow : Memory.below s.mem s.memSize = true
  noneZero : s.readWord .none = 0
  flagsReserved : s.readWord .flags &&& 0xFF3B = 0
  runningValid : s.status = .running → s.memValid = true
  runningBelow : s.status = .running → s.ip.toNat < s.cfg.endLimit
  errorAtIp : ∀ v, s.status = .haltedDecodeError v → s.ip = v

/-- A step that goes on: a next state that no decode error halted. -/
def safeStep (s : State) : Prop :=
  ∃ t, step s = .next t ∧ ∀ v, t.status ≠ .haltedDecodeError v

/-- A run of at most `k` steps that meets no decode error before it stops. -/
def SafeRun : Nat → State → Prop
  | 0, _ => True
  | k + 1, s => s.status = .haltedEndOfCode ∨ ∃ t, step s = .next t ∧
      (∀ v, t.status ≠ .haltedDecodeError v) ∧ SafeRun k t

end Sys2Proof.Machine
end

