-- ==== Sys2Proof/Certificates/Slice0/Obligations.lean ====
section
/-! DEFINITION. The statements for the provers, from the numbered rules of spec/. -/

open Sys2Proof Sys2Proof.Machine

/-! ## Encoding (30_encoding.md section 3) -/

/-- Decoding an encoded well-formed instruction gives it back, with every operand at every value, and
leaves the bytes after it. RD's encodings are the spec's decision D22. -/
def Obligations.DecodeOfEncode : Prop :=
  ∀ (i : Instr) (rest : List Byte), i.wf = true → decodeRest (encode i ++ rest) = some (i, rest)

/-- Whatever bytes the decoder accepts are the encoding of the instruction it gives, so no bit of them
is dropped, and the instruction is well-formed. RD's encodings are the spec's decision D22. -/
def Obligations.EncodeOfDecode : Prop :=
  ∀ (bs : List Byte) (i : Instr) (rest : List Byte), decodeRest bs = some (i, rest) →
    i.wf = true ∧ encode i ++ rest = bs

/-- The opening of 30_encoding.md: "At most one row matches any stream." RD is the spec's decision D22. -/
def Obligations.AtMostOneRowMatches : Prop :=
  ∀ (b0 b1 : Byte) (r1 r2 : Row), r1 ∈ rows → r2 ∈ rows → r1.accepts b0 b1 = true →
    r2.accepts b0 b1 = true → r1 = r2

/-- R84: `length = 1 + M + D + I` from the opcode and the ModRM byte alone, at least 2 and at most 6,
both reached; the bytes after the instruction are those from `length` on. RD is the spec's decision
D22. -/
def Obligations.LengthFromOpcodeAndModRm : Prop :=
  (∀ (b0 b1 : Byte) (bs : List Byte) (i : Instr) (rest : List Byte),
    decodeRest (b0 :: b1 :: bs) = some (i, rest) →
      i.toRecord.length = 1 + modRmCount b0 + dispCount b0 b1 + immCount b0 ∧
      2 ≤ i.toRecord.length ∧ i.toRecord.length ≤ 6 ∧
      i.toRecord.length ≤ (b0 :: b1 :: bs).length ∧
      rest = (b0 :: b1 :: bs).drop i.toRecord.length) ∧
  (decode [0x74, 0]).map (fun i => i.toRecord.length) = some 2 ∧
  (decode [0xB0, 0]).map (fun i => i.toRecord.length) = some 2 ∧
  (decode [0xC7, 0x80, 0, 0, 0, 0]).map (fun i => i.toRecord.length) = some 6 ∧
  (decode [0x81, 0x80, 0, 0, 0, 0]).map (fun i => i.toRecord.length) = some 6

/-- R85: on six bytes or more RD answers `Unrecognized` for exactly the patterns listed, a step on such
bytes halts with a decode error, and `mov cs, r/m16` is accepted and writes CS. The set is the spec's
decisions D22 and D23. -/
def Obligations.UnrecognizedSetHalts : Prop :=
  (∀ (b0 b1 b2 b3 b4 b5 : Byte) (rest : List Byte),
    decodeRest (b0 :: b1 :: b2 :: b3 :: b4 :: b5 :: rest) = none ↔
      unrecognizedBytes b0 b1 = true) ∧
  (∀ s : State, s.status = .running → s.memValid = true →
    unrecognizedBytes (codeAt s 0) (codeAt s 1) = true →
      ∃ t, step s = .next t ∧ t.status = .haltedDecodeError s.ip) ∧
  (∀ (rm : Rm) (s : State), ∃ t, exec (.movSregRm .cs rm) s = .next t ∧
    t.readWord .cs = readLoc (resolve .word (rm.operand .word) s) s)

/-- Words written out from the tables of R79 to R83, one or more of each kind, and what they decode to.
RD is the spec's decision D22. -/
def Obligations.DecodeSampleWords : Prop :=
  decode [0x88, 0xE0] = some (.movRmReg .toRm .byte .spAh (.reg .axAl)) ∧
  decode [0x8B, 0x40, 0x02] = some (.movRmReg .toReg .word .axAl (.based .bxSi (.d8 2))) ∧
  decode [0xC7, 0x06, 0x00, 0x02, 0x05, 0x00] = some (.movRmImm (.direct 0x200) (.word 5)) ∧
  decode [0xB9, 0x03, 0x00] = some (.movRegImm .cxCl (.word 3)) ∧
  decode [0xA1, 0x00, 0x03] = some (.movAccMem .word 0x300) ∧
  decode [0xA2, 0x00, 0x03] = some (.movMemAcc .byte 0x300) ∧
  decode [0x8E, 0xD8] = some (.movSregRm .ds (.reg .axAl)) ∧
  decode [0x8C, 0xC3] = some (.movRmSreg (.reg .bxBl) .es) ∧
  decode [0x01, 0xC8] = some (.addRmReg .toRm .word .cxCl (.reg .axAl)) ∧
  decode [0x83, 0xC3, 0x02] = some (.addRmImm (.reg .bxBl) (.signed 2)) ∧
  decode [0x2D, 0x05, 0x00] = some (.subAccImm (.word 5)) ∧
  decode [0x80, 0xFB, 0x34] = some (.cmpRmImm (.reg .bxBl) (.byte false 0x34)) ∧
  decode [0x74, 0x03] = some (.je 3) ∧
  decode [0x75, 0x80] = some (.jne 0x80) ∧
  decode [0xE2, 0xFE] = some (.loop 0xFE)

/-- R78: the operand of JE, JNE and LOOP is the byte after the opcode read as a signed integer in
-128..127. RD is the spec's decision D22. -/
def Obligations.RelativeDisplacementIsSignedByte : Prop :=
  ∀ (r8 : Byte) (rest : List Byte),
    let rel : Int := if r8.toNat < 128 then (r8.toNat : Int) else (r8.toNat : Int) - 256
    let record (op : OpKind) : Record :=
      { op := op, operands := [.imm rel], wide := false, length := 2 }
    (decodeRest (0x74 :: r8 :: rest)).map (fun p => (p.1.toRecord, p.2)) = some (record .je, rest) ∧
    (decodeRest (0x75 :: r8 :: rest)).map (fun p => (p.1.toRecord, p.2)) = some (record .jne, rest) ∧
    (decodeRest (0xE2 :: r8 :: rest)).map (fun p => (p.1.toRecord, p.2)) = some (record .loop, rest) ∧
    -128 ≤ rel ∧ rel ≤ 127

/-- R72 to R74 and the `-rm-r` rows of R79 to R82: for all sixteen opcodes and every ModRM byte, the kind,
the two operands in record order (d = 0: RM, R; d = 1: R, RM), the width flag, the length and the bytes
left. The tables are the spec's decision D22, the signs of displacements D24, the operand order D7. -/
def Obligations.ModRmOperandTables : Prop :=
  ∀ (b0 : Byte) (op : OpKind) (d w : Bool) (b1 d0 d1 : Byte) (rest : List Byte),
    (b0, op, d, w) ∈ rmRegOpcodes →
    let reg := registerOperand w (b1.toNat / 8 % 8)
    let rm := modRmOperand w b1 d0 d1
    recordOf (b0 :: b1 :: d0 :: d1 :: rest) =
      some ({ op := op, operands := if d then [reg, rm] else [rm, reg], wide := w,
              length := 2 + modRmDispCount b1 }, (d0 :: d1 :: rest).drop (modRmDispCount b1))

/-- R75 and the segment rows of R79: opcode 8E moves the word r/m operand to the segment register of ModRM
bits 4:3, opcode 8C moves it the other way; kind MOV, wide, with the length and the bytes left. The table
is the spec's decision D22, the operand order D7. -/
def Obligations.SegmentNumberTable : Prop :=
  ∀ (b1 d0 d1 : Byte) (rest : List Byte), b1.toNat / 32 % 2 = 0 →
    let segs : List Slot := [.es, .cs, .ss, .ds]
    let seg : Operand := .reg ⟨segs.getD (b1.toNat / 8 % 4) .none, 0, .word⟩
    let rm := modRmOperand true b1 d0 d1
    let answer (operands : List Operand) : Option (Record × List Byte) :=
      some ({ op := .mov, operands := operands, wide := true, length := 2 + modRmDispCount b1 },
        (d0 :: d1 :: rest).drop (modRmDispCount b1))
    recordOf (0x8E :: b1 :: d0 :: d1 :: rest) = answer [seg, rm] ∧
    recordOf (0x8C :: b1 :: d0 :: d1 :: rest) = answer [rm, seg]

/-- R77, R76 and the immediate, accumulator and address rows of R79 to R82, with the kind, both operands, the
width flag, the length and the bytes left: opcodes 80 to 83 by the reg field (0 ADD, 5 SUB, 7 CMP) in the
four cases of `sw`, C6 and C7, the accumulator forms, B0 to BF, and A0 to A3 with an unsigned address. RD
is the spec's decision D22, opcode 82 D23, the unsigned address D24, the operand order D7. -/
def Obligations.ImmediateAssembly : Prop :=
  ∀ (b1 i0 i1 : Byte) (disp rest : List Byte), disp.length = modRmDispCount b1 →
    let one : Int := i0.toNat
    let two : Int := (i1.toNat : Int) * 256 + i0.toNat
    let rm (w : Bool) : Operand := modRmOperand w b1 (disp.getD 0 0) (disp.getD 1 0)
    let acc (w : Bool) : Operand := registerOperand w 0
    let long (b0 : Byte) := recordOf (b0 :: b1 :: (disp ++ i0 :: i1 :: rest))
    let short (b0 : Byte) := recordOf (b0 :: i0 :: i1 :: rest)
    let narrow (op : OpKind) (dst src : Operand) (length : Nat) : Option (Record × List Byte) :=
      some ({ op := op, operands := [dst, src], wide := false, length := length }, i1 :: rest)
    let wide (op : OpKind) (dst src : Operand) (length : Nat) : Option (Record × List Byte) :=
      some ({ op := op, operands := [dst, src], wide := true, length := length }, rest)
    (∀ (n : Nat) (op : OpKind), (n, op) ∈ ([(0, .add), (5, .sub), (7, .cmp)] : List (Nat × OpKind)) →
      b1.toNat / 8 % 8 = n →
      long 0x80 = narrow op (rm false) (.imm one) (3 + disp.length) ∧
      long 0x81 = wide op (rm true) (.imm two) (4 + disp.length) ∧
      long 0x82 = narrow op (rm false) (.imm one) (3 + disp.length) ∧
      long 0x83 = some ({ op := op, operands := [rm true, .imm (signed8 i0.toNat)], wide := true,
                          length := 3 + disp.length }, i1 :: rest)) ∧
    (b1.toNat / 8 % 8 = 0 →
      long 0xC6 = narrow .mov (rm false) (.imm one) (3 + disp.length) ∧
      long 0xC7 = wide .mov (rm true) (.imm two) (4 + disp.length)) ∧
    short 0x04 = narrow .add (acc false) (.imm one) 2 ∧
    short 0x05 = wide .add (acc true) (.imm two) 3 ∧
    short 0x2C = narrow .sub (acc false) (.imm one) 2 ∧
    short 0x2D = wide .sub (acc true) (.imm two) 3 ∧
    short 0x3C = narrow .cmp (acc false) (.imm one) 2 ∧
    short 0x3D = wide .cmp (acc true) (.imm two) 3 ∧
    (∀ n : Nat, n < 8 →
      short (BitVec.ofNat 8 (0xB0 + n)) = narrow .mov (registerOperand false n) (.imm one) 2 ∧
      short (BitVec.ofNat 8 (0xB8 + n)) = wide .mov (registerOperand true n) (.imm two) 3) ∧
    short 0xA0 = some ({ op := .mov, operands := [acc false, .mem [] two none], wide := false,
                         length := 3 }, rest) ∧
    short 0xA1 = wide .mov (acc true) (.mem [] two none) 3 ∧
    short 0xA2 = some ({ op := .mov, operands := [.mem [] two none, acc false], wide := false,
                         length := 3 }, rest) ∧
    short 0xA3 = wide .mov (.mem [] two none) (acc true) 3

/-! ## Registers (10_state.md) -/

/-- R15 and R17: a written word reads back; a written byte half replaces that half of the word and keeps
the other, whatever slot; no other slot changes. -/
def Obligations.RegisterHalvesAlias : Prop :=
  ∀ (s : State) (i : Slot) (v : Word) (b : Byte),
    (s.writeWord i v).readWord i = v ∧
    ((s.writeByte i 0 b).readWord i).toNat = (s.readWord i).toNat / 256 * 256 + b.toNat ∧
    ((s.writeByte i 1 b).readWord i).toNat = b.toNat * 256 + (s.readWord i).toNat % 256 ∧
    ((s.readByte i 0).toNat = (s.readWord i).toNat % 256) ∧
    ((s.readByte i 1).toNat = (s.readWord i).toNat / 256) ∧
    (∀ j, j ≠ i → ∀ h : Fin 2, (s.writeWord i v).readWord j = s.readWord j ∧
      (s.writeByte i h b).readWord j = s.readWord j)

/-- R18: a record of the seven kinds with a one-byte register operand of a slot outside A, B, C, D is
refused, for WF3 or an earlier check. The refusal is the spec's decision D20. -/
def Obligations.ByteAccessToWordOnlyRefused : Prop :=
  ∀ (D : Decoder) (s : State) (r : Record) (i : Slot) (off : Fin 2), s.status = .running →
    s.memValid = true → D s.ip (codeAt s) = some r → (∀ n, r.op ≠ .other n) →
    .reg ⟨i, off, .byte⟩ ∈ r.operands → i ∉ ([.a, .b, .c, .d] : List Slot) →
    ∃ c ∈ ([.wf1, .wf2, .wf3] : List WfCheck), stepWith D s = .refused (.illFormed c)

/-- R14 and R23, for every decoder: besides IP and FLAGS, a slot changes only where it is the
destination register of a MOV, ADD or SUB, or is C under LOOP; NONE never changes. That NONE is a slot
is the spec's decision D1, the LOOP counter D15. -/
def Obligations.RegistersChangeOnlyAsDestination : Prop :=
  ∀ (D : Decoder) (s t : State) (j : Slot), stepWith D s = .next t → j ≠ .ip → j ≠ .flags →
    t.readWord j ≠ s.readWord j →
    j ≠ .none ∧ ∃ r, D s.ip (codeAt s) = some r ∧
      ((r.op ∈ ([.mov, .add, .sub] : List OpKind) ∧
          (resolve r.width (r.operand 0) s).inSlot j = true) ∨
        (r.op = .loop ∧ j = .c))

/-- R21, for every decoder: a step that changes the FLAGS slot runs an ADD, SUB or CMP. R21 marks this
as derived from R14 and R93. -/
def Obligations.OnlyArithmeticWritesFlags : Prop :=
  ∀ (D : Decoder) (s t : State), stepWith D s = .next t → t.readWord .flags ≠ s.readWord .flags →
    ∃ r, D s.ip (codeAt s) = some r ∧ r.op ∈ ([.add, .sub, .cmp] : List OpKind)

/-! ## Memory and operands (20_memory.md) -/

/-- R35: `Reduce(a) = a mod 2^SizePow2`, the same as keeping the low SizePow2 bits of `a` in two's
complement; every byte access uses the reduced address. The reduction of any integer is the spec's
decision D9. -/
def Obligations.AddressReduction : Prop :=
  ∀ (s : State) (a b : Int) (v : Byte),
    (s.reduce a : Int) = a % (2 ^ s.cfg.sizePow2 : Nat) ∧
    s.reduce a = (BitVec.ofInt s.cfg.sizePow2 a).toNat ∧
    (s.reduce a = s.reduce b → s.byteAt a = s.byteAt b ∧ s.setByteAt a v = s.setByteAt b v)

/-- R37 and R38: little-endian reads and writes of one and two bytes, each address reduced on its own,
so that a word at the top address wraps to 0; a write changes no other byte. On a one-byte region byte
1, stored last, stands. The byte order is the spec's decision D4, the reduction of each byte D5; the
one-byte region is log entry 13. -/
def Obligations.MemoryReadAndWrite : Prop :=
  ∀ (s : State) (a x : Int) (v : Word), Memory.wf s.mem = true →
    (s.memRead a .byte).toNat = (s.byteAt a).toNat ∧
    (s.memRead a .word).toNat = (s.byteAt a).toNat + 256 * (s.byteAt (a + 1)).toNat ∧
    ((s.memWrite a .byte v).byteAt x).toNat =
      (if s.reduce x = s.reduce a then v.toNat % 256 else (s.byteAt x).toNat) ∧
    ((s.memWrite a .word v).byteAt x).toNat =
      (if s.reduce x = s.reduce (a + 1) then v.toNat / 256
       else if s.reduce x = s.reduce a then v.toNat % 256 else (s.byteAt x).toNat) ∧
    s.reduce ((s.memSize : Int) - 1 + 1) = 0

/-- R53 and R54: the value of a term, and the fold in which the scale multiplies the running sum and an
absent term is skipped. The offset and mask are the spec's decision D10, the absent term D11, the
integers D9. That a term naming a segment slot counts like any other is the model's choice, log entry
18. -/
def Obligations.EffectiveAddressFold : Prop :=
  ∀ (s : State) (t1 t2 : Term) (d : Int),
    let value (t : Term) : Int :=
      if t.reg.count = .byte then ((s.readWord t.reg.slot).toNat / 256 ^ t.reg.offset.val % 256 : Nat)
      else ((s.readWord t.reg.slot).toNat / 256 ^ t.reg.offset.val : Nat)
    effectiveAddress s [] d = d ∧
    effectiveAddress s [t1] d =
      (if t1.reg.slot = .none then d else value t1 * t1.scale + d) ∧
    effectiveAddress s [t1, t2] d =
      (if t1.reg.slot = .none then
        if t2.reg.slot = .none then d else value t2 * t2.scale + d
       else if t2.reg.slot = .none then value t1 * t1.scale + d
       else (value t1 * t1.scale + value t2) * t2.scale + d)

/-- R56 and R22: no segment register's value enters the address of an RD memory operand or a fetch, and
a segment field has no effect. This is the spec's decision D12. A term of another decoder that names a
segment slot does add its value: log entry 18. -/
def Obligations.SegmentsTakeNoPartInAddressing : Prop :=
  (∀ (s : State) (g : SegNum) (v : Word) (w : Width) (rm : Rm) (k : Nat), (∀ n, rm ≠ .reg n) →
    resolve w (rm.operand w) (s.writeWord g.access.slot v) = resolve w (rm.operand w) s ∧
    codeAt (s.writeWord g.access.slot v) k = codeAt s k) ∧
  (∀ (s : State) (w : Width) (ts : List Term) (d : Int) (g g' : Option Slot),
    resolve w (.mem ts d g) s = resolve w (.mem ts d g') s)

/-- R58: an immediate is reduced mod 2^16 into the cell and read as W bytes. The width of the cell is
the spec's decision D13. -/
def Obligations.ImmediateCell : Prop :=
  ∀ (s : State) (v : Int),
    ((readLoc (resolve .word (.imm v) s) s).toNat : Int) = v % 65536 ∧
    ((readLoc (resolve .byte (.imm v) s) s).toNat : Int) = v % 65536 % 256

/-- R52, R57 and R59: a register operand is the location of its slot, offset and count, a memory operand
that of its effective address at width W; reading gives the word, the selected byte half, the memory bytes
little-endian, or the low bytes of the cell. The halves are the spec's decision D2, the byte order D4, the
reduction of each byte D5, the origin-free address D17. -/
def Obligations.OperandLocationsAndReads : Prop :=
  ∀ (s : State) (w cnt : Width) (i : Slot) (off : Fin 2) (ts : List Term) (d a : Int) (g : Option Slot)
    (c : Word),
    resolve w (.reg ⟨i, off, cnt⟩) s = .reg i off cnt ∧
    resolve w (.mem ts d g) s = .mem (effectiveAddress s ts d) w ∧
    readLoc (.reg i 0 .word) s = s.readWord i ∧
    (readLoc (.reg i off .byte) s).toNat = (s.readByte i off).toNat ∧
    (readLoc (.reg i off cnt) s).toNat =
      (s.readWord i).toNat / 256 ^ off.val % (if cnt = .byte then 256 else 65536) ∧
    (readLoc (.mem a .byte) s).toNat = (s.byteAt a).toNat ∧
    (readLoc (.mem a .word) s).toNat = (s.byteAt a).toNat + 256 * (s.byteAt (a + 1)).toNat ∧
    (readLoc (.imm c .byte) s).toNat = c.toNat % 256 ∧
    readLoc (.imm c .word) s = c

/-- R49: a store is seen by the next fetch at the bytes it wrote, and no other code byte changes. R49
marks this as derived from R47 and R90. -/
def Obligations.FetchSeesStores : Prop :=
  ∀ (s : State) (a : Int) (v : Byte) (k : Nat), Memory.wf s.mem = true →
    codeAt (s.setByteAt a v) k =
      if s.baseAddress (s.ip.toNat + k) = s.reduce a then v
      else Memory.get s.mem (s.baseAddress (s.ip.toNat + k))

/-- For every decoder: a step changes a byte of memory only where it is covered by the destination of a
MOV, ADD or SUB. Which steps write memory is 40_execution_cycle.md R90 and R93, 41_data_movement.md R100,
42_arithmetic.md R105 to R107 and 43_control_transfer.md R111 to R113; which bytes, 20_memory.md R38 and
R51, whose reduction of each byte is the spec's decision D5. -/
def Obligations.MemoryChangesOnlyAtDestination : Prop :=
  ∀ (D : Decoder) (s t : State) (x : Int), stepWith D s = .next t → t.byteAt x ≠ s.byteAt x →
    ∃ r, D s.ip (codeAt s) = some r ∧ r.op ∈ ([.mov, .add, .sub] : List OpKind) ∧
      (resolve r.width (r.operand 0) s).covers s (s.reduce x) = true

/-! ## The instructions -/

/-- R100: every MOV form completes and copies W bytes from its source, read before the write, to its
destination; no flag effect, and no trace event but the instruction's own. The read before the write is
the spec's decision D21; what a word store leaves in a one-byte region is the model's reading, log entry
13. -/
def Obligations.MovCopiesWidthBytes : Prop :=
  ∀ (i : Instr) (s : State), i.isMov = true → Memory.wf s.mem = true →
    ∃ t, exec i s = .next t ∧
      storedAt (dstLoc i s) (readLoc (srcLoc i s) s) s t ∧
      t.readWord .flags = s.readWord .flags ∧
      t.trace = s.trace ++ [.exec i.toRecord] ∧
      t.ip = s.ip + BitVec.ofNat 16 i.toRecord.length

/-- The frame of the MOV forms: every slot but IP and the destination's, every flag bit, every byte of
memory the destination does not cover, and the configuration. -/
def Obligations.MovFrame : Prop :=
  ∀ (i : Instr) (s t : State), i.isMov = true → exec i s = .next t →
    (∀ j, j ≠ .ip → (dstLoc i s).inSlot j = false → t.readWord j = s.readWord j) ∧
    t.readWord .flags = s.readWord .flags ∧
    (∀ x : Int, (dstLoc i s).covers s (s.reduce x) = false → t.byteAt x = s.byteAt x) ∧
    t.memValid = s.memValid ∧ t.cfg = s.cfg

/-- R105: every ADD form completes, writes `(a + b) mod 2^(8W)` and takes the three flags from the low 16
bits of the 32-bit sum; the trace gets the instruction and, if the flags changed, their delta. The
zero-extension is the spec's decision D8, the read before the write D21, the trace order D34; what a word
store leaves in a one-byte region is the model's reading, log entry 13. -/
def Obligations.AddWritesSumAndFlags : Prop :=
  ∀ (i : Instr) (s : State), i.isAdd = true → Memory.wf s.mem = true →
    let a := (readLoc (dstLoc i s) s).toNat
    let b := (readLoc (srcLoc i s) s).toNat
    ∃ t, exec i s = .next t ∧
      storedAt (dstLoc i s) (BitVec.ofNat 16 (a + b)) s t ∧
      t.flags.pf = evenOnes ((a + b) % 256) ∧
      t.flags.zf = decide ((a + b) % 65536 = 0) ∧
      t.flags.sf = decide (32768 ≤ (a + b) % 65536) ∧
      t.trace = s.trace ++ .exec i.toRecord ::
        (if s.flags = t.flags then [] else [.flagsDelta s.flags t.flags]) ∧
      t.ip = s.ip + BitVec.ofNat 16 i.toRecord.length

/-- R106: every SUB form completes, writes `(a - b) mod 2^(8W)` and takes the three flags from
`(a - b) mod 65536`; the trace gets the instruction and, if the flags changed, their delta. The
zero-extension is the spec's decision D8, the read before the write D21, the trace order D34; what a word
store leaves in a one-byte region is the model's reading, log entry 13. -/
def Obligations.SubWritesDifferenceAndFlags : Prop :=
  ∀ (i : Instr) (s : State), i.isSub = true → Memory.wf s.mem = true →
    let a : Int := (readLoc (dstLoc i s) s).toNat
    let b : Int := (readLoc (srcLoc i s) s).toNat
    ∃ t, exec i s = .next t ∧
      storedAt (dstLoc i s) (BitVec.ofInt 16 (a - b)) s t ∧
      t.flags.pf = evenOnes ((a - b) % 65536).toNat ∧
      t.flags.zf = decide ((a - b) % 65536 = 0) ∧
      t.flags.sf = decide (32768 ≤ (a - b) % 65536) ∧
      t.trace = s.trace ++ .exec i.toRecord ::
        (if s.flags = t.flags then [] else [.flagsDelta s.flags t.flags]) ∧
      t.ip = s.ip + BitVec.ofNat 16 i.toRecord.length

/-- R107: every CMP form completes, sets the flags from `(a - b) mod 65536`, and leaves its operands'
stored values and all of memory; the trace gets the instruction and, if the flags changed, their delta.
The zero-extension is the spec's decision D8, the trace order D34. -/
def Obligations.CmpSetsFlagsOnly : Prop :=
  ∀ (i : Instr) (s : State), i.isCmp = true →
    let a : Int := (readLoc (dstLoc i s) s).toNat
    let b : Int := (readLoc (srcLoc i s) s).toNat
    ∃ t, exec i s = .next t ∧
      readLoc (dstLoc i s) t = readLoc (dstLoc i s) s ∧
      readLoc (srcLoc i s) t = readLoc (srcLoc i s) s ∧
      (∀ x : Int, t.byteAt x = s.byteAt x) ∧
      t.flags.pf = evenOnes ((a - b) % 65536).toNat ∧
      t.flags.zf = decide ((a - b) % 65536 = 0) ∧
      t.flags.sf = decide (32768 ≤ (a - b) % 65536) ∧
      t.trace = s.trace ++ .exec i.toRecord ::
        (if s.flags = t.flags then [] else [.flagsDelta s.flags t.flags]) ∧
      t.ip = s.ip + BitVec.ofNat 16 i.toRecord.length

/-- The frame of the ADD and SUB forms: every slot but IP, FLAGS and the destination's, every byte of
memory the destination does not cover; FLAGS holds its three bits and zeros (10_state.md R20). The
places of the bits are the spec's decision D3. -/
def Obligations.AddSubFrame : Prop :=
  ∀ (i : Instr) (s t : State), (i.isAdd = true ∨ i.isSub = true) → exec i s = .next t →
    (∀ j, j ≠ .ip → j ≠ .flags → (dstLoc i s).inSlot j = false → t.readWord j = s.readWord j) ∧
    t.readWord .flags &&& 0xFF3B = 0 ∧
    (∀ x : Int, (dstLoc i s).covers s (s.reduce x) = false → t.byteAt x = s.byteAt x) ∧
    t.memValid = s.memValid ∧ t.cfg = s.cfg

/-- The frame of the CMP forms: every slot but IP and FLAGS, and every byte of memory. FLAGS holds its
three bits and zeros (decision D3). -/
def Obligations.CmpFrame : Prop :=
  ∀ (i : Instr) (s t : State), i.isCmp = true → exec i s = .next t →
    (∀ j, j ≠ .ip → j ≠ .flags → t.readWord j = s.readWord j) ∧
    t.readWord .flags &&& 0xFF3B = 0 ∧
    (∀ x : Int, t.byteAt x = s.byteAt x) ∧
    t.memValid = s.memValid ∧ t.cfg = s.cfg

/-- R104: at W = 1 the flags still come from 16 bits of the accumulator. R104 marks this as derived;
the zero-extension is the spec's decision D8. -/
def Obligations.ByteWidthFlagLaw : Prop :=
  ∀ (i : Instr) (s t : State), i.toRecord.width = .byte → exec i s = .next t →
    let a := (readLoc (dstLoc i s) s).toNat
    let b := (readLoc (srcLoc i s) s).toNat
    (i.isAdd = true →
      t.flags.zf = decide (a = 0 ∧ b = 0) ∧ t.flags.sf = false ∧
        t.flags.pf = evenOnes ((a + b) % 256)) ∧
    (i.isSub = true ∨ i.isCmp = true →
      (b ≤ a → t.flags.zf = decide (a = b) ∧ t.flags.sf = false ∧ t.flags.pf = evenOnes (a - b)) ∧
      (a < b → t.flags.zf = false ∧ t.flags.sf = true))

/-- R102: `computeFlags` on a 16-bit word. -/
def Obligations.ComputeFlagsOfWord : Prop :=
  ∀ v : Word, computeFlags v =
    { pf := evenOnes (v.toNat % 256), zf := decide (v.toNat = 0), sf := decide (32768 ≤ v.toNat) }

/-- R107: CMP sets exactly the flags SUB would set on the same operands, form by form. -/
def Obligations.CmpFlagsAreSubFlags : Prop :=
  ∀ s : State,
    (∀ d w reg rm, ∃ t u, exec (.cmpRmReg d w reg rm) s = .next t ∧
      exec (.subRmReg d w reg rm) s = .next u ∧ t.readWord .flags = u.readWord .flags) ∧
    (∀ rm imm, ∃ t u, exec (.cmpRmImm rm imm) s = .next t ∧
      exec (.subRmImm rm imm) s = .next u ∧ t.readWord .flags = u.readWord .flags) ∧
    (∀ imm, ∃ t u, exec (.cmpAccImm imm) s = .next t ∧
      exec (.subAccImm imm) s = .next u ∧ t.readWord .flags = u.readWord .flags)

/-- R111 and R112: `74 r8` is JE and branches if ZF is set, `75 r8` is JNE and branches if it is clear, by
the signed displacement from the address after the instruction; both complete and write no flag. -/
def Obligations.ConditionalBranches : Prop :=
  ∀ (rel : Byte) (s : State),
    (decode [0x74, rel] = some (.je rel) ∧ ∃ t, exec (.je rel) s = .next t ∧
      t.readWord .flags = s.readWord .flags ∧
      t.ip = if s.flags.zf then s.ip + 2 + BitVec.signExtend 16 rel else s.ip + 2) ∧
    (decode [0x75, rel] = some (.jne rel) ∧ ∃ t, exec (.jne rel) s = .next t ∧
      t.readWord .flags = s.readWord .flags ∧
      t.ip = if s.flags.zf then s.ip + 2 else s.ip + 2 + BitVec.signExtend 16 rel)

/-- LOOP, `E2 r8`, decrements CX, branches if the new value is not zero, and writes no flag; it completes
(43_control_transfer.md R113; that the counter is CX is 92_eei_decisions.md D15). -/
def Obligations.LoopDecrementsAndBranches : Prop :=
  ∀ (rel : Byte) (s : State), decode [0xE2, rel] = some (.loop rel) ∧
    ∃ t, exec (.loop rel) s = .next t ∧
    t.readWord .c = s.readWord .c - 1 ∧ t.readWord .flags = s.readWord .flags ∧
    t.ip = if s.readWord .c = 1 then s.ip + 2 else s.ip + 2 + BitVec.signExtend 16 rel

/-- The frame of the branches: JE and JNE change no slot but IP, LOOP none but IP and C; no flag bit and
no byte of memory changes. -/
def Obligations.BranchFrame : Prop :=
  ∀ (i : Instr) (rel : Byte) (s t : State), i.relByte? = some rel → exec i s = .next t →
    (∀ j, j ≠ .ip → (j ≠ .c ∨ i ≠ .loop rel) → t.readWord j = s.readWord j) ∧
    t.readWord .flags = s.readWord .flags ∧
    (∀ x : Int, t.byteAt x = s.byteAt x) ∧
    t.memValid = s.memValid ∧ t.cfg = s.cfg

/-- For every decoder: a step on a well-formed record completes with the effect of its kind (R100, R105 to
R107, R111 to R113) and the trace events R98 and R108 give it (the order of events is decision D34), two
memory operands, scaled terms and unbounded literals included, with both operands read before the write
(20_memory.md R61, decision D21). That an absent term may have any offset and count is the model's reading,
log entry 7; so are what a word store leaves in a one-byte region, log entry 13, and the value of a term
that names a segment slot, log entry 18. -/
def Obligations.RecordsOfAnyDecoderExecute : Prop :=
  ∀ (D : Decoder) (s : State) (r : Record), s.status = .running → s.memValid = true →
    Memory.wf s.mem = true → D s.ip (codeAt s) = some r → r.firstFailingCheck = none →
    let dst := resolve r.width (r.operand 0) s
    let a := readLoc dst s
    let b := readLoc (resolve r.width (r.operand 1) s) s
    let next := s.ip + BitVec.ofNat 16 r.length
    ∃ t, stepWith D s = .next t ∧
      ((∀ n, r.op ≠ .other n) → t.trace = s.trace ++ .exec r ::
        (if s.flags = t.flags then [] else [.flagsDelta s.flags t.flags])) ∧
      (r.op ∈ ([.je, .jne, .loop] : List OpKind) → t.flags = s.flags) ∧
      (r.op = .mov → storedAt dst b s t ∧ t.flags = s.flags ∧ t.ip = next) ∧
      (r.op = .add → storedAt dst (a + b) s t ∧ t.flags = computeFlags (a + b) ∧ t.ip = next) ∧
      (r.op = .sub → storedAt dst (a - b) s t ∧ t.flags = computeFlags (a - b) ∧ t.ip = next) ∧
      (r.op = .cmp → readLoc dst t = a ∧ t.flags = computeFlags (a - b) ∧ t.ip = next) ∧
      (∀ v, r.operand 0 = .imm v →
        (r.op = .je → t.ip = if s.flags.zf then next + BitVec.ofInt 16 v else next) ∧
        (r.op = .jne → t.ip = if s.flags.zf then next else next + BitVec.ofInt 16 v) ∧
        (r.op = .loop → t.readWord .c = s.readWord .c - 1 ∧
          t.ip = if s.readWord .c = 1 then next else next + BitVec.ofInt 16 v))

/-- R113's corner case: `loop $` (E2 FE) runs CX times when CX is not 0 and 65536 times when it is, at
the same `ip` until the last, and always ends, with CX = 0 and `ip` past it. The counter is the spec's
decision D15. -/
def Obligations.LoopToItselfEnds : Prop :=
  ∀ (s : State) (n : Nat), s.status = .running → s.memValid = true →
    decode (fetch s) = some (.loop 0xFE) → s.ip.toNat < s.cfg.endLimit →
    n = (if s.readWord .c = 0 then 65536 else (s.readWord .c).toNat) →
    (∀ k, k < n → ∃ u : State, Host.Core.run Sys2Proof.core k s = .next u ∧ u.ip = s.ip) ∧
    ∃ t : State, Host.Core.run Sys2Proof.core n s = .next t ∧ t.readWord .c = 0 ∧ t.ip = s.ip + 2

/-- R99's first example: `je $` (74 FE) with ZF set, below the end limit, is still running after any
number of steps. -/
def Obligations.JeToItselfNeverEnds : Prop :=
  ∀ (s : State) (k : Nat), s.status = .running → s.memValid = true →
    decode (fetch s) = some (.je 0xFE) → s.flags.zf = true → s.ip.toNat < s.cfg.endLimit →
    ∃ t, runWith rd k s = { state := t, stop := none } ∧ t.status = .running ∧ t.ip = s.ip ∧
      t.flags = s.flags

/-! ## The cycle (40_execution_cycle.md) -/

/-- R97, for every decoder: a run starts at the reset state, goes on from each next state, ends at a state
that is not `Running` or whose step is refused, keeps that state and the refusal mark, and stays there under
more fuel; a mark is always that of the end state's own step. Under RD a run from a state the reset can
give, or any with valid memory, meets no refusal and no fault: that half rests on 60_exceptions.md R118 and
on 30_encoding.md R69, whose sentence on RD the spec marks as derived. That a run is taken under fuel, and
ends at a fault as at a refusal, is the model's, log entry 17. -/
def Obligations.RunEndIsFinal : Prop :=
  (∀ (D : Decoder) (p : Params) (k : Nat), runFromReset D p k = runWith D k (State.resetWith p)) ∧
  (∀ (D : Decoder) (k : Nat) (s : State),
    let e := runWith D k s
    runWith D 0 s = { state := s, stop := none } ∧
    (e.stop = none → ∀ t, stepWith D e.state = .next t →
      runWith D (k + 1) s = { state := t, stop := none }) ∧
    (e.stop = none → e.state.status = .running → ∀ r, stepWith D e.state = .refused r →
      runWith D (k + 1) s = { state := e.state, stop := some (.refused r) }) ∧
    (e.stop ≠ none ∨ e.state.status ≠ .running → ∀ j, runWith D (k + j) s = e) ∧
    (∀ r, e.stop = some (.refused r) →
      e.state.status = .running ∧ stepWith D e.state = .refused r) ∧
    (∀ f, e.stop = some (.fault f) → e.state.status = .running ∧ stepWith D e.state = .fault f)) ∧
  (∀ (k : Nat) (s : State), (s.status = .running → s.memValid = true) →
    (runWith rd k s).stop = none) ∧
  (∀ (p : Params) (k : Nat), (runFromReset rd p k).stop = none)

/-- When the six bytes at `Reduce(Origin + ip + k)` decode to an instruction, the step of a running
machine is `exec` of it at that state: trace, advance, body and end test are inside `exec`. -/
def Obligations.StepRunsDecodedInstruction : Prop :=
  ∀ (s : State) (i : Instr), s.status = .running → s.memValid = true →
    decode ((List.range 6).map fun (k : Nat) => s.byteAt (s.cfg.origin + s.ip.toNat + k)) = some i →
    step s = exec i s

/-- R96 under RD: the step over instructions is the complete step over decoded records, with the
well-formedness check and the dispatch on the operation kind. RD is the spec's decision D22 (log entry
5). -/
def Obligations.StepIsReferenceCycle : Prop :=
  ∀ s : State, step s = stepWith rd s

/-- R90: on `Unrecognized`, from any decoder and from RD, the status records `ip`, the event is traced,
and nothing else changes. -/
def Obligations.DecodeFailureHalts : Prop :=
  ∀ s : State, s.status = .running → s.memValid = true →
    (∀ D : Decoder, D s.ip (codeAt s) = none → ∃ t, stepWith D s = .next t ∧
      t.status = .haltedDecodeError s.ip ∧ t.trace = s.trace ++ [.decodeError s.ip] ∧
      t.regs = s.regs ∧ t.mem = s.mem ∧ t.memValid = s.memValid ∧ t.cfg = s.cfg) ∧
    (decode (fetch s) = none → ∃ t, step s = .next t ∧
      t.status = .haltedDecodeError s.ip ∧ t.trace = s.trace ++ [.decodeError s.ip] ∧
      t.regs = s.regs ∧ t.mem = s.mem ∧ t.memValid = s.memValid ∧ t.cfg = s.cfg)

/-- R95: a halted or aborted machine has no further step. The model answers the fault `notRunning` (log
entry 3). -/
def Obligations.HaltedStatesAreFinal : Prop :=
  ∀ s : State, s.status ≠ .running →
    step s = .fault (.notRunning s.status) ∧
    ∀ D : Decoder, stepWith D s = .fault (.notRunning s.status)

/-- R118: under RD no refusal can happen, and a running machine with valid memory always has a next
state. -/
def Obligations.RunningMachineSteps : Prop :=
  (∀ s : State, s.status = .running → s.memValid = true → ∃ t, step s = .next t) ∧
  (∀ (s : State) (r : Refusal), step s ≠ .refused r)

/-- R115, for every decoder: `ip` changes only by the sequential advance and by a taken branch; a decode
error leaves it, and no operand or term of an instruction that runs names it. -/
def Obligations.IpChangesInTwoPlaces : Prop :=
  ∀ (D : Decoder) (s t : State), stepWith D s = .next t →
    (D s.ip (codeAt s) = none → t.ip = s.ip) ∧
    ∀ r, D s.ip (codeAt s) = some r →
      let next := s.ip + BitVec.ofNat 16 r.length
      (t.ip = next ∨ ∃ v, r.op ∈ ([.je, .jne, .loop] : List OpKind) ∧ r.operand 0 = .imm v ∧
        t.ip = next + BitVec.ofInt 16 v) ∧
      ((∀ n, r.op ≠ .other n) → ∀ a ∈ r.regOperands ++ r.termAccesses, a.slot ≠ .ip)

/-- R94: after every step that did not halt on a decode error, the status is `HaltedEndOfCode` exactly
if the new `ip` is at or past the end limit. EndLimit as a parameter is the spec's decision D18. -/
def Obligations.EndTestAfterEveryStep : Prop :=
  (∀ (D : Decoder) (s t : State) (r : Record), stepWith D s = .next t →
    D s.ip (codeAt s) = some r →
    t.status = if s.cfg.endLimit ≤ t.ip.toNat then .haltedEndOfCode else .running) ∧
  (∀ (i : Instr) (s t : State), s.status = .running → exec i s = .next t →
    t.status = if s.cfg.endLimit ≤ t.ip.toNat then .haltedEndOfCode else .running)

/-- R98 and R108: an instruction appends `Exec(I)`, then the flag delta if its flags differ, and
nothing more; the delta's text lists the set flags as P, Z, S on each side of an arrow. The order is
the spec's decision D34, the text D26. -/
def Obligations.TraceOfAnInstruction : Prop :=
  (∀ (i : Instr) (s t : State), exec i s = .next t →
    t.trace = s.trace ++ .exec i.toRecord ::
      (if s.flags = t.flags then [] else [.flagsDelta s.flags t.flags])) ∧
  (∀ before after : Flags, deltaText before after =
    (if before.pf then "P" else "") ++ (if before.zf then "Z" else "") ++
      (if before.sf then "S" else "") ++ "->" ++ (if after.pf then "P" else "") ++
      (if after.zf then "Z" else "") ++ (if after.sf then "S" else ""))

/-- R93: an operation outside the subset is traced as executed and unhandled, `ip` advances, the end test
applies, and no other register, flag or memory byte changes. The order of the two events is the spec's
decision D34. -/
def Obligations.UnhandledIsSteppedOver : Prop :=
  ∀ (D : Decoder) (s : State) (r : Record) (name : String), s.status = .running →
    s.memValid = true → D s.ip (codeAt s) = some r → r.op = .other name → 1 ≤ r.length →
    ∃ t, stepWith D s = .next t ∧
      t.trace = s.trace ++ [.exec r, .unhandled r] ∧
      t.ip = s.ip + BitVec.ofNat 16 r.length ∧
      (∀ j, j ≠ .ip → t.readWord j = s.readWord j) ∧
      t.mem = s.mem ∧ t.memValid = s.memValid ∧ t.cfg = s.cfg ∧
      t.status = if s.cfg.endLimit ≤ t.ip.toNat then .haltedEndOfCode else .running

/-- R69: an ill-formed record is refused, naming the first check that fails, and the records of RD are
never ill-formed. R69 marks its last sentence on RD as derived; the refusal is the spec's decision D20. -/
def Obligations.IllFormedRecordRefused : Prop :=
  (∀ (D : Decoder) (s : State) (r : Record) (c : WfCheck), s.status = .running →
    s.memValid = true → D s.ip (codeAt s) = some r → r.firstFailingCheck = some c →
    stepWith D s = .refused (.illFormed c) ∧ r.passes c = false ∧
      ∃ before after, r.op.checks = before ++ c :: after ∧ ∀ b ∈ before, r.passes b = true) ∧
  (∀ (bs : List Byte) (i : Instr) (rest : List Byte), decodeRest bs = some (i, rest) →
    i.toRecord.firstFailingCheck = none)

/-- R68: the checks WF1 to WF8, read off the record; `Other` records are checked only by WF8. The
checks are the spec's decision D20; an absent term is exempt from WF3 and WF4 (log entry 7), a term
may name a segment slot (log entry 18). -/
def Obligations.WellFormedRecordsMeetTheChecks : Prop :=
  (∀ r : Record, (∀ n, r.op ≠ .other n) →
    (r.firstFailingCheck = none ↔
      ((r.op ∈ ([.mov, .add, .sub, .cmp] : List OpKind) ∧ ∃ d s, r.operands = [d, s] ∧
          ((∃ a, d = .reg a) ∨ ∃ ts x g, d = .mem ts x g) ∧
          ((∃ a, s = .reg a) ∨ (∃ ts x g, s = .mem ts x g) ∨ ∃ v, s = .imm v) ∧
          ∀ a, .reg a ∈ r.operands → a.count = r.width) ∨
        (r.op ∈ ([.je, .jne, .loop] : List OpKind) ∧ ∃ v, r.operands = [.imm v])) ∧
      (∀ a, .reg a ∈ r.operands → 1 ≤ a.slot.index ∧ a.slot.index ≤ 12 ∧
        (a.count = .byte → a.slot.index ≤ 4) ∧ (a.count = .word → a.offset = 0)) ∧
      (∀ ts x g, .mem ts x g ∈ r.operands → ts.length ≤ 2 ∧ ∀ t ∈ ts, t.reg.slot = .none ∨
        (1 ≤ t.reg.slot.index ∧ t.reg.slot.index ≤ 12 ∧
          (t.reg.count = .byte → t.reg.slot.index ≤ 4) ∧
          (t.reg.count = .word → t.reg.offset = 0))) ∧
      1 ≤ r.length)) ∧
  (∀ (r : Record) (n : String), r.op = .other n → (r.firstFailingCheck = none ↔ 1 ≤ r.length))

/-- R28: the trace is only appended to and never feeds back into execution: with another trace the step
of any decoder answers alike, up to what stood in the trace before. -/
def Obligations.TraceNeverFeedsBack : Prop :=
  ∀ (D : Decoder) (s : State) (tr : List Event),
    (∀ t, stepWith D s = .next t → ∃ t' ev, stepWith D { s with trace := tr } = .next t' ∧
      t.trace = s.trace ++ ev ∧ t' = { t with trace := tr ++ ev }) ∧
    (∀ f, stepWith D s = .fault f → stepWith D { s with trace := tr } = .fault f) ∧
    (∀ r, stepWith D s = .refused r → stepWith D { s with trace := tr } = .refused r)

/-! ## Reset and the invariant (70_reset_and_hazards.md) -/

/-- R30: all 15 register slots are 0 at reset, whatever the parameters. -/
def Obligations.AllRegistersZeroAtReset : Prop :=
  ∀ (p : Params) (i : Slot), (State.resetWith p).readWord i = 0

/-- R134 and R135: the reset state for all parameters of R6 with the origin inside the region. Zero
memory is the spec's decision D6, the truncation D19, the end test at start D16, the origin D17. -/
def Obligations.ResetTable : Prop :=
  ∀ p : Params, p.wf = true →
    let s := State.resetWith p
    (∀ i, s.readWord i = 0) ∧ s.trace = [] ∧ s.memValid = p.allocOK ∧
    (p.allocOK = true →
      s.memSize = 2 ^ p.sizePow2 ∧ s.cfg.origin = p.origin ∧
      s.cfg.codeLength = min p.program.length (2 ^ p.sizePow2 - p.origin) ∧
      s.cfg.endLimit = p.endLimit.getD s.cfg.codeLength ∧
      s.status = (if s.cfg.endLimit = 0 then .haltedEndOfCode else .running) ∧
      (∀ k, k < s.cfg.codeLength → some (s.byteAt (p.origin + k)) = p.program[k]?) ∧
      (∀ a : Nat, a < s.memSize → (a < p.origin ∨ p.origin + s.cfg.codeLength ≤ a) →
        s.byteAt a = 0))

/-- R44 and R120: when allocation fails the region is one byte with the validity flag clear, nothing is
loaded, and no step runs. The status is the spec's decision D25. -/
def Obligations.AllocationFailureAborts : Prop :=
  ∀ p : Params, p.allocOK = false →
    let s := State.resetWith p
    s.status = .abortedInvalidMemory ∧ s.memValid = false ∧ s.memSize = 1 ∧ s.highestAddress = 0 ∧
    (∀ i, s.readWord i = 0) ∧ s.trace = [] ∧ s.mem = [] ∧
    (∀ t, step s ≠ .next t) ∧ ∀ (D : Decoder) (t : State), stepWith D s ≠ .next t

/-- The default reset state: 1 MiB, origin 0. The empty program, and with it the status
`HaltedEndOfCode`, is the model's choice (log entry 2), since R6 gives Program no default. -/
def Obligations.DefaultResetState : Prop :=
  State.reset.cfg = { sizePow2 := 20, origin := 0, codeLength := 0, endLimit := 0 } ∧
  State.reset.status = .haltedEndOfCode ∧ State.reset.mem = [] ∧ State.reset.memValid = true ∧
  State.reset.trace = [] ∧ ∀ i, State.reset.readWord i = 0

/-- The invariant holds after reset, for all parameters with the origin inside the region, and so at
`State.reset`. It rests on decisions D3, D6 and D16 of the spec and on log entry 2. -/
def Obligations.ResetMeetsInvariant : Prop :=
  State.reset.Inv ∧ ∀ p : Params, p.wf = true → (State.resetWith p).Inv

/-- Every step keeps the invariant: memory canonical and inside the region, NONE 0, the unused FLAGS bits
0, `ip` below the end limit while running, a decode error recorded at `ip`. -/
def Obligations.StepKeepsInvariant : Prop :=
  ∀ s t : State, s.Inv → step s = .next t → t.Inv

/-- The same for every decoder: whatever records it returns, the step of the complete cycle keeps the
invariant. -/
def Obligations.AnyDecoderKeepsInvariant : Prop :=
  ∀ (D : Decoder) (s t : State), s.Inv → stepWith D s = .next t → t.Inv

/-- R26 and R29: no step changes the validity flag or the configuration. -/
def Obligations.StepKeepsConfiguration : Prop :=
  ∀ (D : Decoder) (s t : State), (stepWith D s = .next t ∨ step s = .next t) →
    t.memValid = s.memValid ∧ t.cfg = s.cfg

/-- R41 and R133: the mask is the highest address, the code view starts at `baseAddress(ip)`, and the
dump is every byte of the region in address order, written under the name the host gives when its flag is
set. The origin of the code view is the spec's decision D17, the dump's file name as a parameter D30. -/
def Obligations.RegionQueriesAndDump : Prop :=
  ∀ (s : State) (k : Nat),
    s.highestAddress = 2 ^ s.cfg.sizePow2 - 1 ∧
    (s.baseAddress k : Int) = ((s.cfg.origin : Int) + k) % (2 ^ s.cfg.sizePow2 : Nat) ∧
    codeAt s k = Memory.get s.mem (s.baseAddress (s.ip.toNat + k)) ∧
    (memoryDump s).length = 2 ^ s.cfg.sizePow2 ∧
    (k ≤ s.highestAddress → (memoryDump s)[k]? = some (s.byteAt k)) ∧
    ∀ name, dumpFile name true s = some (name, memoryDump s) ∧ dumpFile name false s = none
end

