-- ==== Sys2Proof/Laws/State.lean ====
section
/-! SUPPORT. One lemma per field and update: register cells and the register file, and what each named
operation on a state leaves in each field. -/

namespace Sys2Proof.Machine

/-! ## Words and bytes -/

@[simp] theorem wordOf_lo_hi (v : Word) : wordOf (loByte v) (hiByte v) = v := by
  apply BitVec.eq_of_getLsbD_eq
  intro k hk
  simp only [wordOf, loByte, hiByte, BitVec.getLsbD_append, BitVec.getLsbD_extractLsb']
  by_cases h : k < 8
  · simp [h]
  · have : k - 8 < 8 := by omega
    simp [h, this]
    congr 1; omega

@[simp] theorem loByte_wordOf (lo hi : Byte) : loByte (wordOf lo hi) = lo := by
  apply BitVec.eq_of_getLsbD_eq
  intro k hk
  simp only [wordOf, loByte, BitVec.getLsbD_append, BitVec.getLsbD_extractLsb']
  simp [hk]

@[simp] theorem hiByte_wordOf (lo hi : Byte) : hiByte (wordOf lo hi) = hi := by
  apply BitVec.eq_of_getLsbD_eq
  intro k hk
  simp only [wordOf, hiByte, BitVec.getLsbD_append, BitVec.getLsbD_extractLsb']
  simp [hk]

theorem toNat_loByte (v : Word) : (loByte v).toNat = v.toNat % 256 := by
  simp [loByte, BitVec.extractLsb'_toNat]

theorem toNat_hiByte (v : Word) : (hiByte v).toNat = v.toNat / 256 := by
  simp only [hiByte, BitVec.extractLsb'_toNat, Nat.shiftRight_eq_div_pow]
  omega

theorem toNat_wordOf (lo hi : Byte) : (wordOf lo hi).toNat = hi.toNat * 256 + lo.toNat := by
  have h1 := toNat_loByte (wordOf lo hi)
  have h2 := toNat_hiByte (wordOf lo hi)
  rw [loByte_wordOf] at h1
  rw [hiByte_wordOf] at h2
  omega

@[simp] theorem RegCell.toWord_ofWord (v : Word) : (RegCell.ofWord v).toWord = v := by
  simp [RegCell.toWord, RegCell.ofWord]

@[simp] theorem RegCell.ofWord_toWord (c : RegCell) : RegCell.ofWord c.toWord = c := by
  simp [RegCell.toWord, RegCell.ofWord]

theorem RegCell.toWord_zero : RegCell.toWord {} = 0 := by decide

/-! ## The register file -/

theorem RegFile.get_zero (i : Slot) : RegFile.get {} i = {} := by cases i <;> rfl

theorem RegFile.get_set (r : RegFile) (i j : Slot) (c : RegCell) :
    (r.set i c).get j = if j = i then c else r.get j := by
  cases i <;> cases j <;> rfl

@[simp] theorem RegFile.get_set_same (r : RegFile) (i : Slot) (c : RegCell) :
    (r.set i c).get i = c := by
  simp [RegFile.get_set]

theorem RegFile.get_set_ne (r : RegFile) {i j : Slot} (c : RegCell) (h : j ≠ i) :
    (r.set i c).get j = r.get j := by
  simp [RegFile.get_set, h]

/-! ## Reading a slot after an update -/

/-- Every slot of the zeroed register file reads 0 (10_state.md R30). -/
theorem State.readWord_of_zero {s : State} (h : s.regs = {}) (i : Slot) : s.readWord i = 0 := by
  rw [State.readWord, h, RegFile.get_zero, RegCell.toWord_zero]

theorem State.readWord_writeWord (s : State) (i j : Slot) (v : Word) :
    (s.writeWord i v).readWord j = if j = i then v else s.readWord j := by
  by_cases h : j = i <;> simp [State.readWord, State.writeWord, RegFile.get_set, h]

@[simp] theorem State.readWord_writeWord_same (s : State) (i : Slot) (v : Word) :
    (s.writeWord i v).readWord i = v := by
  simp [State.readWord_writeWord]

theorem State.readWord_writeWord_ne (s : State) {i j : Slot} (v : Word) (h : j ≠ i) :
    (s.writeWord i v).readWord j = s.readWord j := by
  simp [State.readWord_writeWord, h]

theorem State.readWord_writeByte_ne (s : State) {i j : Slot} (off : Fin 2) (v : Byte) (h : j ≠ i) :
    (s.writeByte i off v).readWord j = s.readWord j := by
  simp [State.readWord, State.writeByte, RegFile.get_set, h]

/-- The aliasing law for the low byte (10_state.md R17). -/
theorem State.readWord_writeByte_lo (s : State) (i : Slot) (v : Byte) :
    (s.writeByte i 0 v).readWord i = wordOf v (hiByte (s.readWord i)) := by
  simp [State.readWord, State.writeByte, RegCell.setHalf, RegCell.toWord]

/-- The aliasing law for the high byte (10_state.md R17). -/
theorem State.readWord_writeByte_hi (s : State) (i : Slot) (v : Byte) :
    (s.writeByte i 1 v).readWord i = wordOf (loByte (s.readWord i)) v := by
  simp [State.readWord, State.writeByte, RegCell.setHalf, RegCell.toWord]

theorem State.readByte_lo (s : State) (i : Slot) : s.readByte i 0 = loByte (s.readWord i) := by
  simp [State.readByte, State.readWord, RegCell.half, RegCell.toWord]

theorem State.readByte_hi (s : State) (i : Slot) : s.readByte i 1 = hiByte (s.readWord i) := by
  simp [State.readByte, State.readWord, RegCell.half, RegCell.toWord]

@[simp] theorem State.readWord_setByteAt (s : State) (a : Int) (v : Byte) (j : Slot) :
    (s.setByteAt a v).readWord j = s.readWord j := rfl

@[simp] theorem State.readWord_emit (s : State) (e : Event) (j : Slot) :
    (s.emit e).readWord j = s.readWord j := rfl

@[simp] theorem State.readWord_memWrite (s : State) (a : Int) (w : Width) (v : Word) (j : Slot) :
    (s.memWrite a w v).readWord j = s.readWord j := by
  cases w <;> rfl

/-! ## The fields after a register write -/

@[simp] theorem State.writeWord_mem (s : State) (i : Slot) (v : Word) :
    (s.writeWord i v).mem = s.mem := rfl
@[simp] theorem State.writeWord_memValid (s : State) (i : Slot) (v : Word) :
    (s.writeWord i v).memValid = s.memValid := rfl
@[simp] theorem State.writeWord_status (s : State) (i : Slot) (v : Word) :
    (s.writeWord i v).status = s.status := rfl
@[simp] theorem State.writeWord_trace (s : State) (i : Slot) (v : Word) :
    (s.writeWord i v).trace = s.trace := rfl
@[simp] theorem State.writeWord_cfg (s : State) (i : Slot) (v : Word) :
    (s.writeWord i v).cfg = s.cfg := rfl

@[simp] theorem State.writeByte_mem (s : State) (i : Slot) (off : Fin 2) (v : Byte) :
    (s.writeByte i off v).mem = s.mem := rfl
@[simp] theorem State.writeByte_memValid (s : State) (i : Slot) (off : Fin 2) (v : Byte) :
    (s.writeByte i off v).memValid = s.memValid := rfl
@[simp] theorem State.writeByte_status (s : State) (i : Slot) (off : Fin 2) (v : Byte) :
    (s.writeByte i off v).status = s.status := rfl
@[simp] theorem State.writeByte_trace (s : State) (i : Slot) (off : Fin 2) (v : Byte) :
    (s.writeByte i off v).trace = s.trace := rfl
@[simp] theorem State.writeByte_cfg (s : State) (i : Slot) (off : Fin 2) (v : Byte) :
    (s.writeByte i off v).cfg = s.cfg := rfl

/-! ## The fields after a memory write -/

@[simp] theorem State.setByteAt_regs (s : State) (a : Int) (v : Byte) :
    (s.setByteAt a v).regs = s.regs := rfl
@[simp] theorem State.setByteAt_memValid (s : State) (a : Int) (v : Byte) :
    (s.setByteAt a v).memValid = s.memValid := rfl
@[simp] theorem State.setByteAt_status (s : State) (a : Int) (v : Byte) :
    (s.setByteAt a v).status = s.status := rfl
@[simp] theorem State.setByteAt_trace (s : State) (a : Int) (v : Byte) :
    (s.setByteAt a v).trace = s.trace := rfl
@[simp] theorem State.setByteAt_cfg (s : State) (a : Int) (v : Byte) :
    (s.setByteAt a v).cfg = s.cfg := rfl

@[simp] theorem State.memWrite_regs (s : State) (a : Int) (w : Width) (v : Word) :
    (s.memWrite a w v).regs = s.regs := by cases w <;> rfl
@[simp] theorem State.memWrite_memValid (s : State) (a : Int) (w : Width) (v : Word) :
    (s.memWrite a w v).memValid = s.memValid := by cases w <;> rfl
@[simp] theorem State.memWrite_status (s : State) (a : Int) (w : Width) (v : Word) :
    (s.memWrite a w v).status = s.status := by cases w <;> rfl
@[simp] theorem State.memWrite_trace (s : State) (a : Int) (w : Width) (v : Word) :
    (s.memWrite a w v).trace = s.trace := by cases w <;> rfl
@[simp] theorem State.memWrite_cfg (s : State) (a : Int) (w : Width) (v : Word) :
    (s.memWrite a w v).cfg = s.cfg := by cases w <;> rfl

/-! ## The fields after a trace event -/

@[simp] theorem State.emit_regs (s : State) (e : Event) : (s.emit e).regs = s.regs := rfl
@[simp] theorem State.emit_mem (s : State) (e : Event) : (s.emit e).mem = s.mem := rfl
@[simp] theorem State.emit_memValid (s : State) (e : Event) :
    (s.emit e).memValid = s.memValid := rfl
@[simp] theorem State.emit_status (s : State) (e : Event) : (s.emit e).status = s.status := rfl
@[simp] theorem State.emit_trace (s : State) (e : Event) :
    (s.emit e).trace = s.trace ++ [e] := rfl
@[simp] theorem State.emit_cfg (s : State) (e : Event) : (s.emit e).cfg = s.cfg := rfl

end Sys2Proof.Machine
end

