-- ==== Sys2Proof/Laws/Decode.lean ====
section
/-! SUPPORT. What the decoder's field readers give on the bytes the encoder writes, and the fields of the
bytes that carry them. -/

namespace Sys2Proof

open Machine

/-- A word read from its own two bytes (30_encoding.md R70). -/
theorem takeWord_wordBytes (v : Word) (rest : List Byte) :
    takeWord (wordBytes v ++ rest) = some (v, rest) := by
  simp only [wordBytes, List.cons_append, List.nil_append, takeWord]
  congr
  apply BitVec.eq_of_toNat_eq
  rw [toNat_wordOf, toNat_hiByte, toNat_loByte]
  omega

/-- Two bytes are the bytes of the word they make. -/
theorem wordBytes_wordOf (lo hi : Byte) : wordBytes (wordOf lo hi) = [lo, hi] := by
  have h1 : loByte (wordOf lo hi) = lo := by
    apply BitVec.eq_of_toNat_eq
    rw [toNat_loByte, toNat_wordOf]
    have := lo.isLt
    omega
  have h2 : hiByte (wordOf lo hi) = hi := by
    apply BitVec.eq_of_toNat_eq
    rw [toNat_hiByte, toNat_wordOf]
    have := lo.isLt
    omega
  rw [wordBytes, h1, h2]

/-- The three fields of a ModRM byte (30_encoding.md R71). -/
theorem modRm_fields (m : BitVec 2) (r n : BitVec 3) :
    (m ++ r ++ n : BitVec 8).extractLsb' 6 2 = m ∧
      (m ++ r ++ n : BitVec 8).extractLsb' 3 3 = r ∧
      (m ++ r ++ n : BitVec 8).extractLsb' 0 3 = n := by
  revert m r n; decide

/-- A ModRM byte is its three fields. -/
theorem modRm_of_fields (b : Byte) :
    (b.extractLsb' 6 2 ++ b.extractLsb' 3 3 ++ b.extractLsb' 0 3 : BitVec 8) = b := by
  revert b; decide

@[simp] theorem Dir.ofBit_bit (d : Dir) : Dir.ofBit d.bit = d := by cases d <;> rfl
@[simp] theorem Dir.bit_ofBit (b : Bool) : (Dir.ofBit b).bit = b := by cases b <;> rfl
@[simp] theorem Width.ofBit_bit (w : Width) : Width.ofBit w.bit = w := by cases w <;> rfl
@[simp] theorem Width.bit_ofBit (b : Bool) : (Width.ofBit b).bit = b := by cases b <;> rfl
@[simp] theorem RegNum.ofBits_bits (n : RegNum) : RegNum.ofBits n.bits = n := by cases n <;> rfl
@[simp] theorem RegNum.bits_ofBits (n : BitVec 3) : (RegNum.ofBits n).bits = n := by
  revert n; decide
@[simp] theorem SegNum.ofBits_bits (n : SegNum) : SegNum.ofBits n.bits = n := by cases n <;> rfl
@[simp] theorem SegNum.bits_ofBits (n : BitVec 2) : (SegNum.ofBits n).bits = n := by
  revert n; decide
@[simp] theorem BaseForm.ofBits_bits (n : BaseForm) : BaseForm.ofBits n.bits = n := by
  cases n <;> rfl
@[simp] theorem BaseForm.bits_ofBits (n : BitVec 3) : (BaseForm.ofBits n).bits = n := by
  revert n; decide

/-- The r/m operand read back from its mod and r/m fields and displacement bytes. -/
theorem takeRm_encode (rm : Rm) (h : rm.encodable = true) (rest : List Byte) :
    takeRm rm.modBits rm.rmBits (rm.dispBytes ++ rest) = some (rm, rest) := by
  rcases rm with n | a | ⟨f, _ | d | d⟩
  · cases n <;> rfl
  · simp [takeRm, Rm.modBits, Rm.rmBits, Rm.dispBytes, takeWord_wordBytes]
  · cases f <;> first | rfl | simp [Rm.encodable] at h
  · cases f <;> rfl
  · cases f <;>
      simp [takeRm, Rm.modBits, Rm.rmBits, Rm.dispBytes, Disp.modBits, Disp.encode, BaseForm.bits,
        takeWord_wordBytes, BaseForm.ofBits]

/-- The ModRM byte and displacement read back. -/
theorem takeModRm_encode (reg : BitVec 3) (rm : Rm) (h : rm.encodable = true) (rest : List Byte) :
    takeModRm (encodeModRm reg rm ++ rest) = some (reg, rm, rest) := by
  simp only [encodeModRm, List.cons_append, takeModRm, modRm_fields, takeRm_encode rm h,
    Option.map_some]

theorem takeImm_encode (v : Imm) (rest : List Byte) :
    takeImm v.isWord (v.encode ++ rest) = some (v, rest) := by
  cases v <;> simp [takeImm, Imm.isWord, Imm.encode, takeWord_wordBytes, takeByte]

theorem takeGroupImm_encode (v : GroupImm) (rest : List Byte) :
    takeGroupImm v.sBit v.wBit (v.encode ++ rest) = some (v, rest) := by
  cases v <;>
    simp [takeGroupImm, GroupImm.sBit, GroupImm.wBit, GroupImm.encode, takeWord_wordBytes, takeByte]

/-- The row of the first two bytes fixes the form that reads the rest. -/
theorem decodeRest_of_row {b0 : Byte} {bs : List Byte} {f : Form}
    (h : (rowOf b0 (bs.headD 0)).map Row.form = some f) :
    decodeRest (b0 :: bs) = decodeForm f b0 bs := by
  cases hr : rowOf b0 (bs.headD 0) with
  | none => rw [hr] at h; simp at h
  | some r =>
    rw [hr] at h
    simp only [decodeRest, hr, Option.bind_some]
    congr 1
    simpa using h

/-- A row that is found is one of the table's and accepts the two bytes. -/
theorem rowOf_some {b0 b1 : Byte} {r : Row} (h : rowOf b0 b1 = some r) :
    r ∈ rows ∧ r.accepts b0 b1 = true :=
  ⟨List.mem_of_find?_eq_some h, List.find?_some (p := fun x : Row => x.accepts b0 b1) h⟩

end Sys2Proof
end

