-- ==== Sys2Proof/Laws/Memory.lean ====
section
/-! SUPPORT. Read after write, frame and canonical form of the memory region. -/

namespace Sys2Proof.Machine

/-! ## The list of cells -/

theorem Memory.wf_cons {a : Nat} {b : Byte} {m : Memory} :
    Memory.wf ((a, b) :: m) = true ↔
      b ≠ unlistedByte ∧ (∀ c ∈ m, a < c.1) ∧ Memory.wf m = true := by
  simp [Memory.wf, and_assoc]

/-- An address below every listed one reads as unlisted. -/
theorem Memory.get_of_lt {m : Memory} {k : Nat} (h : ∀ c ∈ m, k < c.1) :
    Memory.get m k = unlistedByte := by
  induction m with
  | nil => rfl
  | cons c m ih =>
    obtain ⟨a, b⟩ := c
    have hk : k ≠ a := Nat.ne_of_lt (h (a, b) (by simp))
    simp [Memory.get, hk, ih fun c hc => h c (by simp [hc])]

theorem Memory.get_set_ne {m : Memory} {k j : Nat} (v : Byte) (h : j ≠ k) :
    Memory.get (Memory.set m k v) j = Memory.get m j := by
  induction m with
  | nil => by_cases hv : v = unlistedByte <;> simp [Memory.set, Memory.get, hv, h]
  | cons c m ih =>
    obtain ⟨a, b⟩ := c
    simp only [Memory.set]
    split
    · split <;> simp [Memory.get, h]
    · split
      · rename_i hk
        subst hk
        split <;> simp [Memory.get, h]
      · simp [Memory.get, ih]

theorem Memory.get_set_same {m : Memory} (hm : Memory.wf m = true) (k : Nat) (v : Byte) :
    Memory.get (Memory.set m k v) k = v := by
  induction m with
  | nil => by_cases hv : v = unlistedByte <;> simp [Memory.set, Memory.get, hv]
  | cons c m ih =>
    obtain ⟨a, b⟩ := c
    obtain ⟨-, hlt, hwf⟩ := Memory.wf_cons.1 hm
    simp only [Memory.set]
    split
    · rename_i hk
      split
      · rename_i hv
        rw [hv]
        refine Memory.get_of_lt fun c hc => ?_
        rcases List.mem_cons.1 hc with rfl | hc
        · exact hk
        · exact Nat.lt_trans hk (hlt c hc)
      · simp [Memory.get]
    · split
      · rename_i hk
        subst hk
        split
        · rename_i hv
          rw [hv]
          exact Memory.get_of_lt hlt
        · simp [Memory.get]
      · rename_i hk
        simp [Memory.get, hk, ih hwf]

theorem Memory.get_set {m : Memory} (hm : Memory.wf m = true) (k j : Nat) (v : Byte) :
    Memory.get (Memory.set m k v) j = if j = k then v else Memory.get m j := by
  by_cases h : j = k
  · subst h; simp [Memory.get_set_same hm]
  · simp [h, Memory.get_set_ne v h]

/-- The entries after a store: the stored one, or entries that were there. -/
theorem Memory.mem_set {m : Memory} {k : Nat} {v : Byte} {c : Host.Cell}
    (h : c ∈ Memory.set m k v) : c = (k, v) ∨ c ∈ m := by
  induction m with
  | nil =>
    by_cases hv : v = unlistedByte
    · simp [Memory.set, hv] at h
    · simp [Memory.set, hv] at h; exact .inl h
  | cons d m ih =>
    obtain ⟨a, b⟩ := d
    simp only [Memory.set] at h
    split at h
    · split at h
      · exact .inr h
      · rcases List.mem_cons.1 h with h | h
        · exact .inl h
        · exact .inr h
    · split at h
      · split at h
        · exact .inr (List.mem_cons_of_mem _ h)
        · rcases List.mem_cons.1 h with h | h
          · exact .inl h
          · exact .inr (List.mem_cons_of_mem _ h)
      · rcases List.mem_cons.1 h with h | h
        · exact .inr (by simp [h])
        · rcases ih h with h | h
          · exact .inl h
          · exact .inr (List.mem_cons_of_mem _ h)

/-- A store keeps the canonical form. -/
theorem Memory.wf_set {m : Memory} (hm : Memory.wf m = true) (k : Nat) (v : Byte) :
    Memory.wf (Memory.set m k v) = true := by
  induction m with
  | nil => by_cases hv : v = unlistedByte <;> simp [Memory.set, Memory.wf, hv]
  | cons c m ih =>
    obtain ⟨a, b⟩ := c
    obtain ⟨hb, hlt, hwf⟩ := Memory.wf_cons.1 hm
    simp only [Memory.set]
    split
    · rename_i hk
      split
      · exact hm
      · rename_i hv
        refine Memory.wf_cons.2 ⟨hv, fun c hc => ?_, hm⟩
        rcases List.mem_cons.1 hc with rfl | hc
        · exact hk
        · exact Nat.lt_trans hk (hlt c hc)
    · rename_i hka
      split
      · rename_i hk
        subst hk
        split
        · exact hwf
        · rename_i hv
          exact Memory.wf_cons.2 ⟨hv, hlt, hwf⟩
      · rename_i hne
        refine Memory.wf_cons.2 ⟨hb, fun c hc => ?_, ih hwf⟩
        rcases Memory.mem_set hc with rfl | hc
        · show a < k
          omega
        · exact hlt c hc

/-- A store inside a region keeps the memory inside it. -/
theorem Memory.below_set {m : Memory} {n k : Nat} (hm : Memory.below m n = true) (hk : k < n)
    (v : Byte) : Memory.below (Memory.set m k v) n = true := by
  simp only [Memory.below, List.all_eq_true, decide_eq_true_eq] at hm ⊢
  intro c hc
  rcases Memory.mem_set hc with rfl | hc
  · exact hk
  · exact hm c hc

/-- The load keeps the canonical form. -/
theorem Memory.wf_load {m : Memory} (hm : Memory.wf m = true) (at0 : Nat) (bs : List Byte) :
    Memory.wf (Memory.load m at0 bs) = true := by
  induction bs generalizing m at0 with
  | nil => exact hm
  | cons b bs ih => exact ih (Memory.wf_set hm at0 b) _

theorem Memory.below_load {m : Memory} {n : Nat} (hm : Memory.below m n = true) (at0 : Nat)
    (bs : List Byte) (h : at0 + bs.length ≤ n) : Memory.below (Memory.load m at0 bs) n = true := by
  induction bs generalizing m at0 with
  | nil => exact hm
  | cons b bs ih =>
    simp only [List.length_cons] at h
    exact ih (Memory.below_set hm (by omega) b) _ (by omega)

/-- What an address reads as after a load (20_memory.md R42). -/
theorem Memory.get_load {m : Memory} (hm : Memory.wf m = true) (at0 : Nat) (bs : List Byte) (k : Nat) :
    Memory.get (Memory.load m at0 bs) k =
      if at0 ≤ k ∧ k < at0 + bs.length then bs.getD (k - at0) 0 else Memory.get m k := by
  induction bs generalizing m at0 with
  | nil => simp [Memory.load]
  | cons b bs ih =>
    rw [Memory.load, ih (Memory.wf_set hm at0 b), Memory.get_set hm]
    simp only [List.length_cons]
    by_cases h1 : at0 + 1 ≤ k ∧ k < at0 + 1 + bs.length
    · have h2 : at0 ≤ k ∧ k < at0 + (bs.length + 1) := by omega
      have h3 : k - at0 = (k - (at0 + 1)) + 1 := by omega
      rw [if_pos h1, if_pos h2, h3, List.getD_cons_succ]
    · rw [if_neg h1]
      by_cases h2 : k = at0
      · subst h2; simp
      · have h3 : ¬ (at0 ≤ k ∧ k < at0 + (bs.length + 1)) := by omega
        rw [if_neg h2, if_neg h3]

/-! ## The region of a state -/

theorem State.memSize_pos (s : State) : 0 < s.memSize := Nat.two_pow_pos _

theorem State.reduce_lt (s : State) (a : Int) : s.reduce a < s.memSize := by
  have hpos : (0 : Int) < s.memSize := by exact_mod_cast s.memSize_pos
  have h1 := Int.emod_nonneg a (ne_of_gt hpos)
  have h2 := Int.emod_lt_of_pos a hpos
  unfold State.reduce
  omega

/-- `Reduce(a) = a mod 2^SizePow2` (20_memory.md R35). -/
theorem State.reduce_cast (s : State) (a : Int) : (s.reduce a : Int) = a % (s.memSize : Int) := by
  have hpos : (0 : Int) < s.memSize := by exact_mod_cast s.memSize_pos
  have h1 := Int.emod_nonneg a (ne_of_gt hpos)
  unfold State.reduce
  omega

/-- The reduction depends on the configuration alone. -/
theorem State.reduce_congr {s t : State} (h : t.cfg = s.cfg) (a : Int) : t.reduce a = s.reduce a := by
  simp [State.reduce, State.memSize, h]

theorem State.memSize_congr {s t : State} (h : t.cfg = s.cfg) : t.memSize = s.memSize := by
  simp [State.memSize, h]

@[simp] theorem State.reduce_setByteAt (s : State) (a x : Int) (v : Byte) :
    (s.setByteAt a v).reduce x = s.reduce x := rfl

/-- A byte read depends on memory and configuration alone. -/
theorem State.byteAt_congr {s t : State} (hm : t.mem = s.mem) (hc : t.cfg = s.cfg) (a : Int) :
    t.byteAt a = s.byteAt a := by
  simp [State.byteAt, hm, State.reduce_congr hc]

theorem State.byteAt_setByteAt {s : State} (hm : Memory.wf s.mem = true) (a x : Int) (v : Byte) :
    (s.setByteAt a v).byteAt x = if s.reduce x = s.reduce a then v else s.byteAt x := by
  show Memory.get (Memory.set s.mem (s.reduce a) v) ((s.setByteAt a v).reduce x) = _
  rw [State.reduce_congr (s := s) (t := s.setByteAt a v) rfl, Memory.get_set hm]
  rfl

theorem State.byteAt_setByteAt_ne {s : State} {a x : Int} (v : Byte)
    (h : s.reduce x ≠ s.reduce a) : (s.setByteAt a v).byteAt x = s.byteAt x := by
  show Memory.get (Memory.set s.mem (s.reduce a) v) ((s.setByteAt a v).reduce x) = _
  rw [State.reduce_congr (s := s) (t := s.setByteAt a v) rfl, Memory.get_set_ne v h]
  rfl

theorem State.memWrite_wf {s : State} (hm : Memory.wf s.mem = true) (a : Int) (w : Width) (v : Word) :
    Memory.wf (s.memWrite a w v).mem = true := by
  cases w
  · exact Memory.wf_set hm _ _
  · exact Memory.wf_set (Memory.wf_set hm _ _) _ _

theorem State.memWrite_below {s : State} (hm : Memory.below s.mem s.memSize = true) (a : Int)
    (w : Width) (v : Word) : Memory.below (s.memWrite a w v).mem s.memSize = true := by
  cases w
  · exact Memory.below_set hm (s.reduce_lt a) _
  · exact Memory.below_set (Memory.below_set hm (s.reduce_lt a) _) (s.reduce_lt (a + 1)) _

/-- `MemWrite` of a word (20_memory.md R38): byte 1 is stored last. -/
theorem State.byteAt_memWrite_word {s : State} (hm : Memory.wf s.mem = true) (a x : Int) (v : Word) :
    (s.memWrite a .word v).byteAt x =
      if s.reduce x = s.reduce (a + 1) then hiByte v
      else if s.reduce x = s.reduce a then loByte v else s.byteAt x := by
  show ((s.setByteAt a (loByte v)).setByteAt (a + 1) (hiByte v)).byteAt x = _
  rw [State.byteAt_setByteAt (Memory.wf_set hm _ _), State.byteAt_setByteAt hm]
  rfl

/-- `MemWrite` of a byte (20_memory.md R38). -/
theorem State.byteAt_memWrite_byte {s : State} (hm : Memory.wf s.mem = true) (a x : Int) (v : Word) :
    (s.memWrite a .byte v).byteAt x = if s.reduce x = s.reduce a then loByte v else s.byteAt x :=
  State.byteAt_setByteAt hm a x (loByte v)

end Sys2Proof.Machine
end

