-- ==== Sys2Proof/Laws/Ops.lean ====
section
/-! SUPPORT. What the parts of a step leave in each field: the instruction pointer, the flags, the end
test, the start of a record, and a decode error. -/

namespace Sys2Proof.Machine

/-! ## The instruction pointer -/

@[simp] theorem State.ip_setIp (s : State) (v : Word) : (s.setIp v).ip = v := by
  simp [State.ip, State.setIp]

@[simp] theorem State.ip_emit (s : State) (e : Event) : (s.emit e).ip = s.ip := rfl

theorem State.readWord_setIp (s : State) (v : Word) (j : Slot) :
    (s.setIp v).readWord j = if j = .ip then v else s.readWord j :=
  State.readWord_writeWord s .ip j v

@[simp] theorem State.setIp_mem (s : State) (v : Word) : (s.setIp v).mem = s.mem := rfl
@[simp] theorem State.setIp_memValid (s : State) (v : Word) :
    (s.setIp v).memValid = s.memValid := rfl
@[simp] theorem State.setIp_status (s : State) (v : Word) : (s.setIp v).status = s.status := rfl
@[simp] theorem State.setIp_trace (s : State) (v : Word) : (s.setIp v).trace = s.trace := rfl
@[simp] theorem State.setIp_cfg (s : State) (v : Word) : (s.setIp v).cfg = s.cfg := rfl

/-! ## The start of a record -/

@[simp] theorem begin_ip (r : Record) (s : State) :
    (begin r s).ip = s.ip + BitVec.ofNat 16 r.length := by
  simp [begin, advance]

theorem begin_readWord_ne (r : Record) (s : State) {j : Slot} (h : j ≠ .ip) :
    (begin r s).readWord j = s.readWord j := by
  simp [begin, advance, State.readWord_setIp, h]

@[simp] theorem begin_mem (r : Record) (s : State) : (begin r s).mem = s.mem := rfl
@[simp] theorem begin_memValid (r : Record) (s : State) : (begin r s).memValid = s.memValid := rfl
@[simp] theorem begin_status (r : Record) (s : State) : (begin r s).status = s.status := rfl
@[simp] theorem begin_trace (r : Record) (s : State) :
    (begin r s).trace = s.trace ++ [.exec r] := rfl
@[simp] theorem begin_cfg (r : Record) (s : State) : (begin r s).cfg = s.cfg := rfl

/-! ## Branches -/

@[simp] theorem branchTo_ip (rel : Int) (s : State) :
    (branchTo rel s).ip = s.ip + BitVec.ofInt 16 rel := by
  simp [branchTo]

theorem branchTo_readWord_ne (rel : Int) (s : State) {j : Slot} (h : j ≠ .ip) :
    (branchTo rel s).readWord j = s.readWord j := by
  simp [branchTo, State.readWord_setIp, h]

@[simp] theorem branchTo_mem (rel : Int) (s : State) : (branchTo rel s).mem = s.mem := rfl
@[simp] theorem branchTo_memValid (rel : Int) (s : State) :
    (branchTo rel s).memValid = s.memValid := rfl
@[simp] theorem branchTo_status (rel : Int) (s : State) : (branchTo rel s).status = s.status := rfl
@[simp] theorem branchTo_trace (rel : Int) (s : State) : (branchTo rel s).trace = s.trace := rfl
@[simp] theorem branchTo_cfg (rel : Int) (s : State) : (branchTo rel s).cfg = s.cfg := rfl

/-! ## The end test -/

@[simp] theorem endTest_regs (s : State) : (endTest s).regs = s.regs := by
  unfold endTest; split <;> rfl
@[simp] theorem endTest_mem (s : State) : (endTest s).mem = s.mem := by
  unfold endTest; split <;> rfl
@[simp] theorem endTest_memValid (s : State) : (endTest s).memValid = s.memValid := by
  unfold endTest; split <;> rfl
@[simp] theorem endTest_trace (s : State) : (endTest s).trace = s.trace := by
  unfold endTest; split <;> rfl
@[simp] theorem endTest_cfg (s : State) : (endTest s).cfg = s.cfg := by
  unfold endTest; split <;> rfl
theorem endTest_status (s : State) :
    (endTest s).status = if s.cfg.endLimit ≤ s.ip.toNat then .haltedEndOfCode else s.status := by
  unfold endTest; split <;> rfl
@[simp] theorem endTest_readWord (s : State) (j : Slot) :
    (endTest s).readWord j = s.readWord j := by
  simp [State.readWord]
@[simp] theorem endTest_readByte (s : State) (j : Slot) (off : Fin 2) :
    (endTest s).readByte j off = s.readByte j off := by
  simp [State.readByte]
@[simp] theorem endTest_ip (s : State) : (endTest s).ip = s.ip := by simp [State.ip]
@[simp] theorem endTest_flags (s : State) : (endTest s).flags = s.flags := by simp [State.flags]
@[simp] theorem endTest_byteAt (s : State) (a : Int) : (endTest s).byteAt a = s.byteAt a :=
  State.byteAt_congr (by simp) (by simp) a

/-! ## The flags -/

theorem Flags.toWord_reserved (f : Flags) : f.toWord &&& 0xFF3B = 0 := by
  obtain ⟨p, z, s⟩ := f
  cases p <;> cases z <;> cases s <;> decide

@[simp] theorem State.flags_setFlags (s : State) (f : Flags) : (s.setFlags f).flags = f := by
  obtain ⟨p, z, n⟩ := f
  simp only [State.flags, State.setFlags, State.readWord_writeWord_same, Flags.mk.injEq]
  cases p <;> cases z <;> cases n <;> decide

/-- The flags depend on the FLAGS slot alone. -/
theorem State.flags_congr {s t : State} (h : t.readWord .flags = s.readWord .flags) :
    t.flags = s.flags := by
  simp [State.flags, h]

@[simp] theorem begin_flags (r : Record) (s : State) : (begin r s).flags = s.flags :=
  State.flags_congr (begin_readWord_ne r s (by decide))

@[simp] theorem branchTo_flags (rel : Int) (s : State) : (branchTo rel s).flags = s.flags :=
  State.flags_congr (branchTo_readWord_ne rel s (by decide))

theorem State.readWord_setFlags (s : State) (f : Flags) (j : Slot) :
    (s.setFlags f).readWord j = if j = .flags then f.toWord else s.readWord j :=
  State.readWord_writeWord s .flags j f.toWord

@[simp] theorem State.setFlags_mem (s : State) (f : Flags) : (s.setFlags f).mem = s.mem := rfl
@[simp] theorem State.setFlags_memValid (s : State) (f : Flags) :
    (s.setFlags f).memValid = s.memValid := rfl
@[simp] theorem State.setFlags_status (s : State) (f : Flags) :
    (s.setFlags f).status = s.status := rfl
@[simp] theorem State.setFlags_trace (s : State) (f : Flags) : (s.setFlags f).trace = s.trace := rfl
@[simp] theorem State.setFlags_cfg (s : State) (f : Flags) : (s.setFlags f).cfg = s.cfg := rfl

@[simp] theorem emitDelta_regs (b a : Flags) (s : State) : (emitDelta b a s).regs = s.regs := by
  unfold emitDelta; split <;> rfl
@[simp] theorem emitDelta_readWord (b a : Flags) (s : State) (j : Slot) :
    (emitDelta b a s).readWord j = s.readWord j := by
  simp [State.readWord]
@[simp] theorem emitDelta_mem (b a : Flags) (s : State) : (emitDelta b a s).mem = s.mem := by
  unfold emitDelta; split <;> rfl
@[simp] theorem emitDelta_memValid (b a : Flags) (s : State) :
    (emitDelta b a s).memValid = s.memValid := by
  unfold emitDelta; split <;> rfl
@[simp] theorem emitDelta_status (b a : Flags) (s : State) :
    (emitDelta b a s).status = s.status := by
  unfold emitDelta; split <;> rfl
@[simp] theorem emitDelta_cfg (b a : Flags) (s : State) : (emitDelta b a s).cfg = s.cfg := by
  unfold emitDelta; split <;> rfl
theorem emitDelta_trace (b a : Flags) (s : State) :
    (emitDelta b a s).trace = s.trace ++ if b = a then [] else [.flagsDelta b a] := by
  unfold emitDelta; split <;> simp

/-! ## A decode error -/

@[simp] theorem takeDecodeError_regs (s : State) : (takeDecodeError s).regs = s.regs := rfl
@[simp] theorem takeDecodeError_readWord (s : State) (j : Slot) :
    (takeDecodeError s).readWord j = s.readWord j := rfl
@[simp] theorem takeDecodeError_mem (s : State) : (takeDecodeError s).mem = s.mem := rfl
@[simp] theorem takeDecodeError_memValid (s : State) :
    (takeDecodeError s).memValid = s.memValid := rfl
@[simp] theorem takeDecodeError_status (s : State) :
    (takeDecodeError s).status = .haltedDecodeError s.ip := rfl
@[simp] theorem takeDecodeError_trace (s : State) :
    (takeDecodeError s).trace = s.trace ++ [.decodeError s.ip] := rfl
@[simp] theorem takeDecodeError_cfg (s : State) : (takeDecodeError s).cfg = s.cfg := rfl

/-! ## When no step is taken -/

theorem stopReason_none {s : State} :
    stopReason s = none ↔ s.status = .running ∧ s.memValid = true := by
  unfold stopReason
  by_cases h : s.status = .running <;> cases s.memValid <;> simp [h]

end Sys2Proof.Machine
end

