-- ==== Sys2Proof/Laws/Operands.lean ====
section
/-! SUPPORT. What the operand resolver depends on, and what a write through a location changes and
leaves. -/

namespace Sys2Proof.Machine

/-! ## What resolution depends on -/

theorem accessValue_congr {s t : State} {a : RegAccess} (h : t.readWord a.slot = s.readWord a.slot) :
    accessValue t a = accessValue s a := by
  simp [accessValue, h]

/-- A fold depends only on the slots its terms name. -/
theorem foldTerms_congr {s t : State} (ts : List Term) (acc : Int)
    (h : ∀ x ∈ ts, x.reg.slot ≠ .none → t.readWord x.reg.slot = s.readWord x.reg.slot) :
    ts.foldl (foldTerm t) acc = ts.foldl (foldTerm s) acc := by
  induction ts generalizing acc with
  | nil => rfl
  | cons x ts ih =>
    have hx : foldTerm t acc x = foldTerm s acc x := by
      unfold foldTerm
      split
      · rfl
      · rename_i hn
        rw [accessValue_congr (h x (by simp) hn)]
    simp only [List.foldl_cons, hx]
    exact ih _ fun y hy => h y (by simp [hy])

/-- A resolved location depends only on the slots the operand's terms name (20_memory.md R51). -/
theorem resolve_congr {s t : State} (w : Width) (o : Operand)
    (h : ∀ ts d g, o = .mem ts d g → ∀ x ∈ ts, x.reg.slot ≠ .none →
      t.readWord x.reg.slot = s.readWord x.reg.slot) :
    resolve w o t = resolve w o s := by
  cases o with
  | none | reg _ | imm _ => rfl
  | mem ts d g => simp [resolve, effectiveAddress, foldTerms_congr ts 0 (h ts d g rfl)]

theorem memRead_congr {s t : State} (hm : t.mem = s.mem) (hc : t.cfg = s.cfg) (a : Int) (w : Width) :
    t.memRead a w = s.memRead a w := by
  cases w <;> simp [State.memRead, State.byteAt_congr hm hc]

/-- A read depends on the slot the location lies in, on memory and on the configuration. -/
theorem readLoc_congr {s t : State} (l : Loc) (hm : t.mem = s.mem) (hc : t.cfg = s.cfg)
    (hr : ∀ i, l.inSlot i = true → t.readWord i = s.readWord i) : readLoc l t = readLoc l s := by
  cases l with
  | reg i off cnt => exact accessValue_congr (hr i (by simp [Loc.inSlot]))
  | mem a cnt => exact memRead_congr hm hc a cnt
  | imm c cnt => rfl

/-! ## Writing through a location -/

@[simp] theorem writeLoc_memValid (l : Loc) (v : Word) (s : State) :
    (writeLoc l v s).memValid = s.memValid := by
  rcases l with ⟨i, off, _ | _⟩ | ⟨a, c⟩ | _ <;> simp [writeLoc]
@[simp] theorem writeLoc_status (l : Loc) (v : Word) (s : State) :
    (writeLoc l v s).status = s.status := by
  rcases l with ⟨i, off, _ | _⟩ | ⟨a, c⟩ | _ <;> simp [writeLoc]
@[simp] theorem writeLoc_trace (l : Loc) (v : Word) (s : State) :
    (writeLoc l v s).trace = s.trace := by
  rcases l with ⟨i, off, _ | _⟩ | ⟨a, c⟩ | _ <;> simp [writeLoc]
@[simp] theorem writeLoc_cfg (l : Loc) (v : Word) (s : State) :
    (writeLoc l v s).cfg = s.cfg := by
  rcases l with ⟨i, off, _ | _⟩ | ⟨a, c⟩ | _ <;> simp [writeLoc]

/-- A write leaves every slot that the location does not lie in. -/
theorem writeLoc_readWord_ne (l : Loc) (v : Word) (s : State) {j : Slot}
    (h : l.inSlot j = false) : (writeLoc l v s).readWord j = s.readWord j := by
  rcases l with ⟨i, off, _ | _⟩ | ⟨a, c⟩ | _
  · exact State.readWord_writeByte_ne s off _ (by simpa [Loc.inSlot] using h)
  · exact State.readWord_writeWord_ne s v (by simpa [Loc.inSlot] using h)
  · simp [writeLoc]
  · rfl

/-- A write leaves every byte of memory that the location does not cover. -/
theorem writeLoc_byteAt_ne (l : Loc) (v : Word) (s : State) {x : Int}
    (h : l.covers s (s.reduce x) = false) : (writeLoc l v s).byteAt x = s.byteAt x := by
  rcases l with ⟨i, off, _ | _⟩ | ⟨a, _ | _⟩ | _
  · exact State.byteAt_congr (by rfl) (by rfl) x
  · exact State.byteAt_congr (by rfl) (by rfl) x
  · have hx : s.reduce x ≠ s.reduce a := by simpa [Loc.covers] using h
    exact State.byteAt_setByteAt_ne _ hx
  · have hx : s.reduce x ≠ s.reduce a ∧ s.reduce x ≠ s.reduce (a + 1) := by
      simpa [Loc.covers] using h
    show ((s.setByteAt a (loByte v)).setByteAt (a + 1) (hiByte v)).byteAt x = _
    rw [State.byteAt_setByteAt_ne _ (by simpa using hx.2),
      State.byteAt_setByteAt_ne _ hx.1]
  · rfl

/-- A write to a register leaves memory as data. -/
theorem writeLoc_mem_of_reg (i : Slot) (off : Fin 2) (cnt : Width) (v : Word) (s : State) :
    (writeLoc (.reg i off cnt) v s).mem = s.mem := by
  cases cnt <;> rfl

/-- A write keeps the memory's canonical form. -/
theorem writeLoc_wf (l : Loc) (v : Word) {s : State} (hm : Memory.wf s.mem = true) :
    Memory.wf (writeLoc l v s).mem = true := by
  rcases l with ⟨i, off, _ | _⟩ | ⟨a, c⟩ | _
  · exact hm
  · exact hm
  · exact State.memWrite_wf hm a c v
  · exact hm

/-- A write keeps memory inside the region. -/
theorem writeLoc_below (l : Loc) (v : Word) {s : State}
    (hm : Memory.below s.mem s.memSize = true) :
    Memory.below (writeLoc l v s).mem s.memSize = true := by
  rcases l with ⟨i, off, _ | _⟩ | ⟨a, c⟩ | _
  · exact hm
  · exact hm
  · exact State.memWrite_below hm a c v
  · exact hm

end Sys2Proof.Machine
end

