-- ==== Sys2Proof/Laws/PerInstr.lean ====
section
/-! SUPPORT. Facts of every instruction, one lemma per constructor: its record passes the checks
WF1 to WF8 (30_encoding.md R69), and its encoding has the record's length (R84). -/

namespace Sys2Proof.Laws.RecordWf

/-- The record of an instruction is well-formed (30_encoding.md R68, R69). -/
def Statement (i : Instr) : Prop := i.toRecord.firstFailingCheck = none

/-- A record of one of the seven kinds that passes all eight checks is well-formed. -/
theorem of_passes {r : Record} (h : ∀ c, r.passes c = true) : r.firstFailingCheck = none := by
  simp [Record.firstFailingCheck, h]

theorem access_slot (w : Width) (n : RegNum) : (n.access w).slot.isOperand = true := by
  cases w <;> cases n <;> rfl

theorem access_byteOk (w : Width) (n : RegNum) : (n.access w).byteOk = true := by
  cases w <;> cases n <;> rfl

theorem access_rangeOk (w : Width) (n : RegNum) : (n.access w).rangeOk = true := by
  cases w <;> cases n <;> rfl

theorem access_count (w : Width) (n : RegNum) : (n.access w).count = w := by
  cases w <;> cases n <;> rfl

theorem seg_slot (n : SegNum) : n.access.slot.isOperand = true := by cases n <;> rfl
theorem seg_byteOk (n : SegNum) : n.access.byteOk = true := by cases n <;> rfl
theorem seg_rangeOk (n : SegNum) : n.access.rangeOk = true := by cases n <;> rfl
theorem seg_count (n : SegNum) : n.access.count = .word := by cases n <;> rfl

theorem width_bit (w : Width) : (if w.bit = true then Width.word else Width.byte) = w := by
  cases w <;> rfl

/-- What the checks ask of one operand of a two-operand record of width `w`. -/
structure OperandOk (w : Width) (o : Operand) : Prop where
  slot : ∀ a, o = .reg a → a.slot.isOperand = true ∧ a.byteOk = true ∧ a.rangeOk = true ∧ a.count = w
  terms : ∀ ts d g, o = .mem ts d g → ts.length ≤ 2 ∧
    ∀ t ∈ ts, t.reg.slot.isOperand = true ∧ t.reg.byteOk = true ∧ t.reg.rangeOk = true

theorem ok_rm (w : Width) (rm : Rm) : OperandOk w (rm.operand w) := by
  cases rm with
  | reg n =>
    refine ⟨fun a h => ?_, fun ts d g h => by simp [Rm.operand] at h⟩
    obtain rfl : n.access w = a := by simpa [Rm.operand] using h
    exact ⟨access_slot w n, access_byteOk w n, access_rangeOk w n, access_count w n⟩
  | direct a =>
    refine ⟨fun a h => by simp [Rm.operand, directOperand] at h, fun ts d g h => ?_⟩
    obtain ⟨rfl, -⟩ : [] = ts ∧ _ := by simpa [Rm.operand, directOperand] using h
    simp
  | based f d =>
    refine ⟨fun a h => by simp [Rm.operand] at h, fun ts d' g h => ?_⟩
    obtain ⟨rfl, -⟩ : f.terms = ts ∧ _ := by simpa [Rm.operand] using h
    cases f <;> exact ⟨by decide, by decide⟩

theorem ok_reg (w : Width) (n : RegNum) : OperandOk w (.reg (n.access w)) := ok_rm w (.reg n)

theorem ok_seg (n : SegNum) : OperandOk .word (.reg n.access) := by
  refine ⟨fun a h => ?_, fun ts d g h => by simp at h⟩
  obtain rfl : n.access = a := by simpa using h
  exact ⟨seg_slot n, seg_byteOk n, seg_rangeOk n, seg_count n⟩

theorem ok_acc (w : Width) : OperandOk w (accOperand w) := by
  cases w
  · exact ok_reg .byte .axAl
  · exact ok_reg .word .axAl

theorem ok_imm (w : Width) (v : Int) : OperandOk w (.imm v) :=
  ⟨fun a h => by simp at h, fun ts d g h => by simp at h⟩

theorem ok_direct (w : Width) (a : Word) : OperandOk w (directOperand a) := ok_rm w (.direct a)

theorem ok_immOperand (w : Width) (v : Imm) : OperandOk w v.operand := by
  cases v <;> exact ok_imm w _

theorem ok_groupOperand (w : Width) (v : GroupImm) : OperandOk w v.operand := by
  cases v <;> exact ok_imm w _

theorem shape_rm (w : Width) (rm : Rm) : (rm.operand w).isRegOrMem = true := by cases rm <;> rfl
theorem source_rm (w : Width) (rm : Rm) : (rm.operand w).isSource = true := by cases rm <;> rfl
theorem source_imm (v : Imm) : v.operand.isSource = true := by cases v <;> rfl
theorem source_group (v : GroupImm) : v.operand.isSource = true := by cases v <;> rfl

/-- A two-operand record of good operands is well-formed. -/
theorem pair {op : OpKind} {dst src : Operand} {w : Width} {n : Nat} (hop : op.isTwoOperand = true)
    (hd : OperandOk w dst) (hs : OperandOk w src) (hds : dst.isRegOrMem = true)
    (hss : src.isSource = true) (hn : 1 ≤ n) :
    (pairRecord op dst src w n).firstFailingCheck = none := by
  have hshape : (pairRecord op dst src w n).shapeOk = true := by
    cases op <;> simp_all [Record.shapeOk, pairRecord, OpKind.isTwoOperand]
  have hregs : ∀ a ∈ (pairRecord op dst src w n).regOperands, a.slot.isOperand = true ∧
      a.byteOk = true ∧ a.rangeOk = true ∧ a.count = w := by
    intro a ha
    simp only [Record.regOperands, pairRecord, List.mem_filterMap, List.mem_cons,
      List.not_mem_nil, or_false] at ha
    obtain ⟨o, rfl | rfl, ho⟩ := ha
    · cases o <;> simp at ho
      exact hd.slot a (by rw [ho])
    · cases o <;> simp at ho
      exact hs.slot a (by rw [ho])
  have hterms : ∀ a ∈ (pairRecord op dst src w n).termAccesses,
      a.byteOk = true ∧ a.rangeOk = true := by
    intro a ha
    simp only [Record.termAccesses, pairRecord, List.mem_flatMap, List.mem_cons,
      List.not_mem_nil, or_false] at ha
    obtain ⟨o, rfl | rfl, ho⟩ := ha
    · cases o <;> simp at ho
      obtain ⟨⟨t, ht, rfl⟩, -⟩ := ho
      exact ((hd.terms _ _ _ rfl).2 t ht).2
    · cases o <;> simp at ho
      obtain ⟨⟨t, ht, rfl⟩, -⟩ := ho
      exact ((hs.terms _ _ _ rfl).2 t ht).2
  have htok : ∀ o, OperandOk w o → o.termsOk = true := by
    intro o ho
    cases o <;> simp only [Operand.termsOk]
    obtain ⟨h2, h⟩ := ho.terms _ _ _ rfl
    simp only [Bool.and_eq_true, decide_eq_true_eq, List.all_eq_true, Bool.or_eq_true]
    exact ⟨h2, fun t ht => .inr ⟨⟨(h t ht).1, (h t ht).2.1⟩, (h t ht).2.2⟩⟩
  have himm : dst.isImm = false := by cases dst <;> simp_all [Operand.isRegOrMem, Operand.isImm]
  apply of_passes
  intro c
  cases c with
  | wf1 => exact hshape
  | wf2 => exact List.all_eq_true.2 fun a ha => (hregs a ha).1
  | wf3 =>
    refine List.all_eq_true.2 fun a ha => ?_
    rcases List.mem_append.1 ha with h | h
    · exact (hregs a h).2.1
    · exact (hterms a h).1
  | wf4 =>
    refine List.all_eq_true.2 fun a ha => ?_
    rcases List.mem_append.1 ha with h | h
    · exact (hregs a h).2.2.1
    · exact (hterms a h).2
  | wf5 =>
    simp only [Record.passes, Bool.or_eq_true]
    refine .inr (List.all_eq_true.2 fun a ha => ?_)
    have hw : (pairRecord op dst src w n).width = w := width_bit w
    simp [(hregs a ha).2.2.2, hw]
  | wf6 => simp [Record.passes, Record.operand, pairRecord, himm]
  | wf7 => simp [Record.passes, pairRecord, htok dst hd, htok src hs]
  | wf8 => exact decide_eq_true hn

theorem rmReg {op : OpKind} (hop : op.isTwoOperand = true) (d : Dir) (w : Width) (reg : RegNum)
    (rm : Rm) : (rmRegRecord op d w reg rm).firstFailingCheck = none := by
  cases d
  · exact pair hop (ok_rm w rm) (ok_reg w reg) (shape_rm w rm) rfl (by omega)
  · exact pair hop (ok_reg w reg) (ok_rm w rm) rfl (source_rm w rm) (by omega)

theorem rmGroup {op : OpKind} (hop : op.isTwoOperand = true) (rm : Rm) (v : GroupImm) :
    (rmGroupRecord op rm v).firstFailingCheck = none :=
  pair hop (ok_rm _ rm) (ok_groupOperand _ v) (shape_rm _ rm) (source_group v) (by omega)

theorem accImm {op : OpKind} (hop : op.isTwoOperand = true) (v : Imm) :
    (accImmRecord op v).firstFailingCheck = none :=
  pair hop (ok_acc _) (ok_immOperand _ v) rfl (source_imm v) (by omega)

theorem movRmReg (d : Dir) (w : Width) (reg : RegNum) (rm : Rm) :
    Statement (.movRmReg d w reg rm) := rmReg rfl d w reg rm
theorem movRmImm (rm : Rm) (v : Imm) : Statement (.movRmImm rm v) :=
  pair rfl (ok_rm _ rm) (ok_immOperand _ v) (shape_rm _ rm) (source_imm v) (by omega)
theorem movRegImm (reg : RegNum) (v : Imm) : Statement (.movRegImm reg v) :=
  pair rfl (ok_reg _ reg) (ok_immOperand _ v) rfl (source_imm v) (by omega)
theorem movAccMem (w : Width) (a : Word) : Statement (.movAccMem w a) :=
  pair rfl (ok_acc w) (ok_direct w a) rfl rfl (by omega)
theorem movMemAcc (w : Width) (a : Word) : Statement (.movMemAcc w a) :=
  pair rfl (ok_direct w a) (ok_acc w) rfl rfl (by omega)
theorem movSregRm (sr : SegNum) (rm : Rm) : Statement (.movSregRm sr rm) :=
  pair rfl (ok_seg sr) (ok_rm _ rm) rfl (source_rm _ rm) (by omega)
theorem movRmSreg (rm : Rm) (sr : SegNum) : Statement (.movRmSreg rm sr) :=
  pair rfl (ok_rm _ rm) (ok_seg sr) (shape_rm _ rm) rfl (by omega)
theorem addRmReg (d : Dir) (w : Width) (reg : RegNum) (rm : Rm) :
    Statement (.addRmReg d w reg rm) := rmReg rfl d w reg rm
theorem addRmImm (rm : Rm) (v : GroupImm) : Statement (.addRmImm rm v) := rmGroup rfl rm v
theorem addAccImm (v : Imm) : Statement (.addAccImm v) := accImm rfl v
theorem subRmReg (d : Dir) (w : Width) (reg : RegNum) (rm : Rm) :
    Statement (.subRmReg d w reg rm) := rmReg rfl d w reg rm
theorem subRmImm (rm : Rm) (v : GroupImm) : Statement (.subRmImm rm v) := rmGroup rfl rm v
theorem subAccImm (v : Imm) : Statement (.subAccImm v) := accImm rfl v
theorem cmpRmReg (d : Dir) (w : Width) (reg : RegNum) (rm : Rm) :
    Statement (.cmpRmReg d w reg rm) := rmReg rfl d w reg rm
theorem cmpRmImm (rm : Rm) (v : GroupImm) : Statement (.cmpRmImm rm v) := rmGroup rfl rm v
theorem cmpAccImm (v : Imm) : Statement (.cmpAccImm v) := accImm rfl v
theorem je (rel : Byte) : Statement (.je rel) := of_passes fun c => by cases c <;> rfl
theorem jne (rel : Byte) : Statement (.jne rel) := of_passes fun c => by cases c <;> rfl
theorem loop (rel : Byte) : Statement (.loop rel) := of_passes fun c => by cases c <;> rfl

end Sys2Proof.Laws.RecordWf

namespace Sys2Proof.Laws.EncodedLength

/-- The encoding has as many bytes as the record's length says (30_encoding.md R84). -/
def Statement (i : Instr) : Prop := (encode i).length = i.toRecord.length

theorem rm_length (rm : Rm) : rm.dispBytes.length = rm.dispLength := by
  rcases rm with n | a | ⟨f, _ | d | d⟩ <;> rfl

theorem imm_length (v : Imm) : v.encode.length = v.length := by cases v <;> rfl
theorem group_length (v : GroupImm) : v.encode.length = v.length := by cases v <;> rfl

theorem rmReg (op : OpKind) (base : Byte) (d : Dir) (w : Width) (reg : RegNum) (rm : Rm) :
    (encodeRmReg base d w reg rm).length = (rmRegRecord op d w reg rm).length := by
  cases d <;>
    simp [encodeRmReg, encodeModRm, rmRegRecord, pairRecord, rm_length] <;> omega

theorem rmGroup (op : OpKind) (ext : BitVec 3) (rm : Rm) (v : GroupImm) :
    (encodeGroup ext rm v).length = (rmGroupRecord op rm v).length := by
  simp [encodeGroup, encodeModRm, rmGroupRecord, pairRecord, rm_length, group_length]; omega

theorem accImm (op : OpKind) (b : Byte) (v : Imm) :
    (b :: v.encode).length = (accImmRecord op v).length := by
  simp [accImmRecord, pairRecord, imm_length]; omega

theorem movRmReg (d : Dir) (w : Width) (reg : RegNum) (rm : Rm) :
    Statement (.movRmReg d w reg rm) := rmReg .mov _ d w reg rm
theorem movRmImm (rm : Rm) (v : Imm) : Statement (.movRmImm rm v) := by
  simp [Statement, encode, encodeModRm, Instr.toRecord, movRmImmRecord, pairRecord, rm_length,
    imm_length]
  omega
theorem movRegImm (reg : RegNum) (v : Imm) : Statement (.movRegImm reg v) := by
  simp [Statement, encode, Instr.toRecord, movRegImmRecord, pairRecord, imm_length]; omega
theorem movAccMem (w : Width) (a : Word) : Statement (.movAccMem w a) := rfl
theorem movMemAcc (w : Width) (a : Word) : Statement (.movMemAcc w a) := rfl
theorem movSregRm (sr : SegNum) (rm : Rm) : Statement (.movSregRm sr rm) := by
  simp [Statement, encode, encodeModRm, Instr.toRecord, movSregRmRecord, pairRecord, rm_length]
  omega
theorem movRmSreg (rm : Rm) (sr : SegNum) : Statement (.movRmSreg rm sr) := by
  simp [Statement, encode, encodeModRm, Instr.toRecord, movRmSregRecord, pairRecord, rm_length]
  omega
theorem addRmReg (d : Dir) (w : Width) (reg : RegNum) (rm : Rm) :
    Statement (.addRmReg d w reg rm) := rmReg .add _ d w reg rm
theorem addRmImm (rm : Rm) (v : GroupImm) : Statement (.addRmImm rm v) := rmGroup .add 0 rm v
theorem addAccImm (v : Imm) : Statement (.addAccImm v) := accImm .add _ v
theorem subRmReg (d : Dir) (w : Width) (reg : RegNum) (rm : Rm) :
    Statement (.subRmReg d w reg rm) := rmReg .sub _ d w reg rm
theorem subRmImm (rm : Rm) (v : GroupImm) : Statement (.subRmImm rm v) := rmGroup .sub 5 rm v
theorem subAccImm (v : Imm) : Statement (.subAccImm v) := accImm .sub _ v
theorem cmpRmReg (d : Dir) (w : Width) (reg : RegNum) (rm : Rm) :
    Statement (.cmpRmReg d w reg rm) := rmReg .cmp _ d w reg rm
theorem cmpRmImm (rm : Rm) (v : GroupImm) : Statement (.cmpRmImm rm v) := rmGroup .cmp 7 rm v
theorem cmpAccImm (v : Imm) : Statement (.cmpAccImm v) := accImm .cmp _ v
theorem je (rel : Byte) : Statement (.je rel) := rfl
theorem jne (rel : Byte) : Statement (.jne rel) := rfl
theorem loop (rel : Byte) : Statement (.loop rel) := rfl

end Sys2Proof.Laws.EncodedLength
end

