-- ==== Sys2Proof/Laws/Exec.lean ====
section
/-! SUPPORT. What executing a record or an instruction does: exec is the completion of the record its
bytes stand for, and the bodies' effect on each field, for every well-formed record. -/

namespace Sys2Proof.Machine

/-- Every instruction runs the record its bytes stand for, and completes (40_execution_cycle.md R96). -/
theorem exec_eq (i : Instr) (s : State) :
    exec i s = .next (complete i.toRecord (recordBody i.toRecord) s) := by
  cases i with
  | movRmReg d w reg rm => cases d <;> rfl
  | addRmReg d w reg rm => cases d <;> rfl
  | subRmReg d w reg rm => cases d <;> rfl
  | cmpRmReg d w reg rm => cases d <;> rfl
  | _ => rfl

theorem toRecord_wf (i : Instr) : i.toRecord.firstFailingCheck = none := by
  cases i with
  | movRmReg d w reg rm => exact Laws.RecordWf.movRmReg d w reg rm
  | movRmImm rm v => exact Laws.RecordWf.movRmImm rm v
  | movRegImm reg v => exact Laws.RecordWf.movRegImm reg v
  | movAccMem w a => exact Laws.RecordWf.movAccMem w a
  | movMemAcc w a => exact Laws.RecordWf.movMemAcc w a
  | movSregRm sr rm => exact Laws.RecordWf.movSregRm sr rm
  | movRmSreg rm sr => exact Laws.RecordWf.movRmSreg rm sr
  | addRmReg d w reg rm => exact Laws.RecordWf.addRmReg d w reg rm
  | addRmImm rm v => exact Laws.RecordWf.addRmImm rm v
  | addAccImm v => exact Laws.RecordWf.addAccImm v
  | subRmReg d w reg rm => exact Laws.RecordWf.subRmReg d w reg rm
  | subRmImm rm v => exact Laws.RecordWf.subRmImm rm v
  | subAccImm v => exact Laws.RecordWf.subAccImm v
  | cmpRmReg d w reg rm => exact Laws.RecordWf.cmpRmReg d w reg rm
  | cmpRmImm rm v => exact Laws.RecordWf.cmpRmImm rm v
  | cmpAccImm v => exact Laws.RecordWf.cmpAccImm v
  | je rel => exact Laws.RecordWf.je rel
  | jne rel => exact Laws.RecordWf.jne rel
  | loop rel => exact Laws.RecordWf.loop rel

theorem runRecord_wf {r : Record} (h : r.firstFailingCheck = none) (s : State) :
    runRecord r s = .next (complete r (recordBody r) s) := by
  simp [runRecord, h]

theorem runRecord_illFormed {r : Record} {c : WfCheck} (h : r.firstFailingCheck = some c)
    (s : State) : runRecord r s = .refused (.illFormed c) := by
  simp [runRecord, h]

/-! ## What the checks give -/

/-- A well-formed record of the seven kinds passes each check. -/
theorem passes_of_wf {r : Record} (h : r.firstFailingCheck = none) (hk : ∀ n, r.op ≠ .other n)
    (c : WfCheck) : r.passes c = true := by
  have hall : r.op.checks = [.wf1, .wf2, .wf3, .wf4, .wf5, .wf6, .wf7, .wf8] := by
    cases hop : r.op with
    | other n => exact absurd hop (hk n)
    | _ => rfl
  rw [Record.firstFailingCheck, hall, List.find?_eq_none] at h
  have := h c (by cases c <;> simp)
  simpa using this

/-- An operand that is there is one of the record's. -/
theorem operand_mem {r : Record} {k : Nat} (h : r.operand k ≠ .none) : r.operand k ∈ r.operands := by
  unfold Record.operand at *
  rw [List.getD_eq_getElem?_getD] at *
  cases hg : r.operands[k]? with
  | none => simp [hg] at h
  | some o => simpa [hg] using List.mem_of_getElem? hg

/-- A register operand of a well-formed record names one of the slots 1 to 12 (30_encoding.md R68). -/
theorem operand_slot {r : Record} (h : r.firstFailingCheck = none) (hk : ∀ n, r.op ≠ .other n)
    {k : Nat} {a : RegAccess} (ho : r.operand k = .reg a) :
    a.slot.isOperand = true ∧ a.byteOk = true ∧ a.rangeOk = true ∧
      (r.op.isTwoOperand = true → a.count = r.width) := by
  have hm : a ∈ r.regOperands := by
    have := operand_mem (r := r) (k := k) (by simp [ho])
    exact List.mem_filterMap.2 ⟨_, this, by simp [ho]⟩
  have h2 := List.all_eq_true.1 (passes_of_wf h hk .wf2) a hm
  have h3 := List.all_eq_true.1 (passes_of_wf h hk .wf3) a (List.mem_append_left _ hm)
  have h4 := List.all_eq_true.1 (passes_of_wf h hk .wf4) a (List.mem_append_left _ hm)
  refine ⟨h2, h3, h4, fun htwo => ?_⟩
  have h5 := passes_of_wf h hk .wf5
  simp only [Record.passes, htwo, Bool.not_true, Bool.false_or, List.all_eq_true] at h5
  simpa using h5 a hm

/-- A term of a well-formed record is absent or names one of the slots 1 to 12. -/
theorem term_slot {r : Record} (h : r.firstFailingCheck = none) (hk : ∀ n, r.op ≠ .other n)
    {k : Nat} {ts : List Term} {d : Int} {g : Option Slot} (ho : r.operand k = .mem ts d g)
    {t : Term} (ht : t ∈ ts) : t.reg.slot = .none ∨ t.reg.slot.isOperand = true := by
  have hm := operand_mem (r := r) (k := k) (by simp [ho])
  have h7 := List.all_eq_true.1 (passes_of_wf h hk .wf7) _ hm
  rw [ho] at h7
  simp only [Operand.termsOk, Bool.and_eq_true, decide_eq_true_eq, List.all_eq_true] at h7
  have := h7.2 t ht
  simp only [Bool.or_eq_true, beq_iff_eq, Bool.and_eq_true] at this
  rcases this with h | h
  · exact .inl h
  · exact .inr h.1.1

theorem isOperand_ne {i : Slot} (h : i.isOperand = true) : i ≠ .none ∧ i ≠ .ip ∧ i ≠ .flags := by
  cases i <;> simp_all [Slot.isOperand, Slot.index]

/-- A well-formed record's operands resolve alike in states that agree on the slots 1 to 12. -/
theorem resolve_wf {r : Record} (h : r.firstFailingCheck = none) (hk : ∀ n, r.op ≠ .other n)
    {s t : State} (hs : ∀ i : Slot, i.isOperand = true → t.readWord i = s.readWord i) (k : Nat) :
    resolve r.width (r.operand k) t = resolve r.width (r.operand k) s := by
  refine resolve_congr _ _ fun ts d g ho x hx hn => ?_
  rcases term_slot h hk ho hx with h0 | h0
  · exact absurd h0 hn
  · exact hs _ h0

/-- The start of a record does not move its operands. -/
theorem resolve_begin {r : Record} (h : r.firstFailingCheck = none) (hk : ∀ n, r.op ≠ .other n)
    (s : State) (k : Nat) :
    resolve r.width (r.operand k) (begin r s) = resolve r.width (r.operand k) s :=
  resolve_wf h hk (fun _ hi => begin_readWord_ne r s (isOperand_ne hi).2.1) k

/-- A location of a well-formed record lies in no slot but 1 to 12. -/
theorem inSlot_isOperand {r : Record} (h : r.firstFailingCheck = none) (hk : ∀ n, r.op ≠ .other n)
    {s : State} {k : Nat} {j : Slot}
    (hj : (resolve r.width (r.operand k) s).inSlot j = true) : j.isOperand = true := by
  cases ho : r.operand k with
  | reg a =>
    rw [ho] at hj
    have : j = a.slot := by simpa [resolve, Loc.inSlot] using hj
    rw [this]
    exact (operand_slot h hk ho).1
  | _ => rw [ho] at hj; simp [resolve, Loc.inSlot] at hj

/-- The start of a record does not change what its operands read. -/
theorem readLoc_begin {r : Record} (h : r.firstFailingCheck = none) (hk : ∀ n, r.op ≠ .other n)
    (s : State) (k : Nat) :
    readLoc (resolve r.width (r.operand k) (begin r s)) (begin r s) =
      readLoc (resolve r.width (r.operand k) s) s := by
  rw [resolve_begin h hk]
  refine readLoc_congr _ rfl rfl fun _ hi => ?_
  exact begin_readWord_ne r s (isOperand_ne (inSlot_isOperand h hk hi)).2.1

/-! ## The instruction families -/

theorem isMov_op {i : Instr} (h : i.isMov = true) : i.toRecord.op = .mov := by
  cases i <;> simp [Instr.isMov] at h <;>
    first | rfl | (rename_i d _ _ _; cases d <;> rfl)

theorem isAdd_op {i : Instr} (h : i.isAdd = true) : i.toRecord.op = .add := by
  cases i <;> simp [Instr.isAdd] at h <;>
    first | rfl | (rename_i d _ _ _; cases d <;> rfl)

theorem isSub_op {i : Instr} (h : i.isSub = true) : i.toRecord.op = .sub := by
  cases i <;> simp [Instr.isSub] at h <;>
    first | rfl | (rename_i d _ _ _; cases d <;> rfl)

theorem isCmp_op {i : Instr} (h : i.isCmp = true) : i.toRecord.op = .cmp := by
  cases i <;> simp [Instr.isCmp] at h <;>
    first | rfl | (rename_i d _ _ _; cases d <;> rfl)

/-- Every instruction's record is of one of the seven kinds. -/
theorem toRecord_kind (i : Instr) (n : String) : i.toRecord.op ≠ .other n := by
  cases i with
  | movRmReg d w reg rm => cases d <;> simp [Instr.toRecord, rmRegRecord, pairRecord]
  | addRmReg d w reg rm => cases d <;> simp [Instr.toRecord, rmRegRecord, pairRecord]
  | subRmReg d w reg rm => cases d <;> simp [Instr.toRecord, rmRegRecord, pairRecord]
  | cmpRmReg d w reg rm => cases d <;> simp [Instr.toRecord, rmRegRecord, pairRecord]
  | _ =>
    simp [Instr.toRecord, movRmImmRecord, movRegImmRecord, movAccMemRecord, movMemAccRecord,
      movSregRmRecord, movRmSregRecord, rmGroupRecord, accImmRecord, pairRecord, relRecord]

/-! ## The bodies at the start of a record -/

section
variable {r : Record} (h : r.firstFailingCheck = none) (hk : ∀ n, r.op ≠ .other n) (s : State)
include h hk

theorem movBody_begin : movBody r.width (r.operand 0) (r.operand 1) (begin r s) =
    writeLoc (resolve r.width (r.operand 0) s) (readLoc (resolve r.width (r.operand 1) s) s)
      (begin r s) := by
  rw [movBody, readLoc_begin h hk, resolve_begin h hk]

theorem addAcc_begin : addAcc r.width (r.operand 0) (r.operand 1) (begin r s) =
    addAcc r.width (r.operand 0) (r.operand 1) s := by
  simp only [addAcc, widen, readLoc_begin h hk]

theorem subAcc_begin : subAcc r.width (r.operand 0) (r.operand 1) (begin r s) =
    subAcc r.width (r.operand 0) (r.operand 1) s := by
  simp only [subAcc, widen, readLoc_begin h hk]

theorem addBody_begin : addBody r.width (r.operand 0) (r.operand 1) (begin r s) =
    arithStore (addAcc r.width (r.operand 0) (r.operand 1) s) (resolve r.width (r.operand 0) s)
      (begin r s) := by
  rw [addBody, addAcc_begin h hk, resolve_begin h hk]

theorem subBody_begin : subBody r.width (r.operand 0) (r.operand 1) (begin r s) =
    arithStore (subAcc r.width (r.operand 0) (r.operand 1) s) (resolve r.width (r.operand 0) s)
      (begin r s) := by
  rw [subBody, subAcc_begin h hk, resolve_begin h hk]

theorem cmpBody_begin : cmpBody r.width (r.operand 0) (r.operand 1) (begin r s) =
    arithFlags (subAcc r.width (r.operand 0) (r.operand 1) s) (begin r s) := by
  rw [cmpBody, subAcc_begin h hk]

end

/-! ## The bodies -/

@[simp] theorem arithStore_readWord (acc : Acc) (l : Loc) (s : State) (j : Slot) :
    (arithStore acc l s).readWord j =
      (writeLoc l (acc.setWidth 16) (s.setFlags (computeFlags (acc.setWidth 16)))).readWord j := by
  simp [arithStore]

theorem arithStore_trace (acc : Acc) (l : Loc) (s : State) :
    (arithStore acc l s).trace = s.trace ++
      if s.flags = computeFlags (acc.setWidth 16) then []
      else [.flagsDelta s.flags (computeFlags (acc.setWidth 16))] := by
  simp [arithStore, emitDelta_trace]

@[simp] theorem arithStore_mem (acc : Acc) (l : Loc) (s : State) :
    (arithStore acc l s).mem =
      (writeLoc l (acc.setWidth 16) (s.setFlags (computeFlags (acc.setWidth 16)))).mem := by
  simp [arithStore]

theorem arithFlags_trace (acc : Acc) (s : State) :
    (arithFlags acc s).trace = s.trace ++
      if s.flags = computeFlags (acc.setWidth 16) then []
      else [.flagsDelta s.flags (computeFlags (acc.setWidth 16))] := by
  simp [arithFlags, emitDelta_trace]

/-- No body changes the validity flag, the status or the configuration. -/
theorem recordBody_fixed (r : Record) (s : State) :
    (recordBody r s).memValid = s.memValid ∧ (recordBody r s).status = s.status ∧
      (recordBody r s).cfg = s.cfg := by
  unfold recordBody
  cases r.op with
  | mov => simp [movBody]
  | add => simp [addBody, arithStore]
  | sub => simp [subBody, arithStore]
  | cmp => simp [cmpBody, arithFlags]
  | je => simp only [jeBody]; split <;> simp
  | jne => simp only [jneBody]; split <;> simp
  | loop => simp only [loopBody]; split <;> simp
  | other n => simp [otherBody]

/-- The validity flag, status and configuration after a completed record. -/
theorem complete_fixed (r : Record) (s : State) :
    (complete r (recordBody r) s).memValid = s.memValid ∧
      (complete r (recordBody r) s).cfg = s.cfg ∧
      (complete r (recordBody r) s).status =
        if s.cfg.endLimit ≤ (complete r (recordBody r) s).ip.toNat then .haltedEndOfCode
        else s.status := by
  obtain ⟨h1, h2, h3⟩ := recordBody_fixed r (begin r s)
  refine ⟨by simp [complete, h1], by simp [complete, h3], ?_⟩
  show (endTest _).status = _
  rw [endTest_status, h3, h2, complete, endTest_ip]
  rfl

/-! ## A step -/

/-- RD on the code view is the decoder on the fetched bytes. -/
theorem rd_codeAt (s : State) : rd s.ip (codeAt s) = (decode (fetch s)).map Instr.toRecord := rfl

/-- All that a step with any decoder can do, when it answers a next state: the run was going on, and it
took a decode error or completed a well-formed record (40_execution_cycle.md R88, R96). -/
theorem stepWith_next {D : Decoder} {s t : State} (h : stepWith D s = .next t) :
    s.status = .running ∧ s.memValid = true ∧
      ((D s.ip (codeAt s) = none ∧ t = takeDecodeError s) ∨
        ∃ r, D s.ip (codeAt s) = some r ∧ r.firstFailingCheck = none ∧
          t = complete r (recordBody r) s) := by
  simp only [stepWith] at h
  cases hs : stopReason s with
  | some f => simp [hs] at h
  | none =>
    obtain ⟨h1, h2⟩ := stopReason_none.1 hs
    refine ⟨h1, h2, ?_⟩
    rw [hs] at h
    cases hd : D s.ip (codeAt s) with
    | none =>
      simp only [hd, Host.Outcome.next.injEq] at h
      exact .inl ⟨rfl, h.symm⟩
    | some r =>
      refine .inr ⟨r, rfl, ?_⟩
      cases hw : r.firstFailingCheck with
      | none =>
        simp only [hd, runRecord, hw, Host.Outcome.next.injEq] at h
        exact ⟨rfl, h.symm⟩
      | some c => simp [hd, runRecord, hw] at h

/-! ## A run -/

@[simp] theorem runWith_zero (D : Decoder) (s : State) : runWith D 0 s = { state := s, stop := none } := rfl

/-- A run at a state that is not `Running` goes no further. -/
theorem runWith_halted {D : Decoder} {s : State} (h : s.status ≠ .running) (k : Nat) :
    runWith D k s = { state := s, stop := none } := by
  cases k <;> simp [runWith, h]

/-- A next state is where the rest of the run starts. -/
theorem runWith_next {D : Decoder} {s t : State} (h : stepWith D s = .next t) (k : Nat) :
    runWith D (k + 1) s = runWith D k t := by
  simp [runWith, h, (stepWith_next h).1]

/-- A refused step ends the run at the state it was taken from, and leaves its mark. -/
theorem runWith_refused {D : Decoder} {s : State} {r : Refusal} (hs : s.status = .running)
    (h : stepWith D s = .refused r) (k : Nat) :
    runWith D (k + 1) s = { state := s, stop := some (.refused r) } := by
  simp [runWith, h, hs]

/-- A faulting step ends the run likewise. -/
theorem runWith_fault {D : Decoder} {s : State} {f : Fault} (hs : s.status = .running)
    (h : stepWith D s = .fault f) (k : Nat) :
    runWith D (k + 1) s = { state := s, stop := some (.fault f) } := by
  simp [runWith, h, hs]

/-! ## The step with the reference decoder -/

/-- All that the step with the reference decoder can do, when it answers a next state. -/
theorem step_next {s t : State} (h : step s = .next t) :
    s.status = .running ∧ s.memValid = true ∧
      ((decode (fetch s) = none ∧ t = takeDecodeError s) ∨
        ∃ i, decode (fetch s) = some i ∧
          t = complete i.toRecord (recordBody i.toRecord) s) := by
  simp only [step] at h
  cases hs : stopReason s with
  | some f => simp [hs] at h
  | none =>
    obtain ⟨h1, h2⟩ := stopReason_none.1 hs
    refine ⟨h1, h2, ?_⟩
    rw [hs] at h
    cases hd : decode (fetch s) with
    | none =>
      simp only [hd, Host.Outcome.next.injEq] at h
      exact .inl ⟨rfl, h.symm⟩
    | some i =>
      simp only [hd, exec_eq, Host.Outcome.next.injEq] at h
      exact .inr ⟨i, rfl, h.symm⟩

end Sys2Proof.Machine
end

