-- ==== Sys2Proof/Laws/Effects.lean ====
section
/-! SUPPORT. What a completed record changes and leaves: slots, memory bytes, flags, trace, and what a
store leaves at its destination. -/

namespace Sys2Proof.Machine

/-! ## A completed record, by kind -/

section
variable {r : Record} (s : State)

theorem complete_readWord (body : State → State) (j : Slot) :
    (complete r body s).readWord j = (body (begin r s)).readWord j := by
  simp [complete]

theorem complete_byteAt (body : State → State) (a : Int) :
    (complete r body s).byteAt a = (body (begin r s)).byteAt a := by
  simp [complete]

theorem complete_mem (body : State → State) :
    (complete r body s).mem = (body (begin r s)).mem := by
  simp [complete]

theorem complete_trace (body : State → State) :
    (complete r body s).trace = (body (begin r s)).trace := by
  simp [complete]

theorem complete_flags (body : State → State) :
    (complete r body s).flags = (body (begin r s)).flags :=
  State.flags_congr (complete_readWord s body .flags)

end

/-- A store through a location whose slot is one of 1 to 12 leaves the FLAGS slot. -/
theorem writeLoc_flags {l : Loc} (hl : l.inSlot .flags = false) (v : Word) (s : State) :
    (writeLoc l v s).readWord .flags = s.readWord .flags :=
  writeLoc_readWord_ne l v s hl

/-- The destination of a well-formed record lies in no slot but 1 to 12. -/
theorem dst_inSlot_false {r : Record} (h : r.firstFailingCheck = none)
    (hk : ∀ n, r.op ≠ .other n) (s : State) (k : Nat) {j : Slot} (hj : j.isOperand = false) :
    (resolve r.width (r.operand k) s).inSlot j = false := by
  cases hb : (resolve r.width (r.operand k) s).inSlot j with
  | false => rfl
  | true => rw [inSlot_isOperand h hk hb] at hj; exact absurd hj (by decide)

theorem kind_of_op {r : Record} {op : OpKind} (h : r.op = op) (hop : ∀ n, op ≠ .other n) (n : String) :
    r.op ≠ .other n := by
  rw [h]; exact hop n

/-- The slots a completed record leaves: all but IP, FLAGS under ADD, SUB and CMP, the destination's
under MOV, ADD and SUB, and C under LOOP. -/
theorem complete_readWord_ne {r : Record} (h : r.firstFailingCheck = none) (s : State) {j : Slot}
    (hip : j ≠ .ip) (hfl : r.op ∈ ([.add, .sub, .cmp] : List OpKind) → j ≠ .flags)
    (hd : r.op ∈ ([.mov, .add, .sub] : List OpKind) →
      (resolve r.width (r.operand 0) s).inSlot j = false)
    (hc : r.op = .loop → j ≠ .c) :
    (complete r (recordBody r) s).readWord j = s.readWord j := by
  have hb := begin_readWord_ne r s hip
  rw [complete_readWord, recordBody]
  cases hop : r.op with
  | mov =>
    simp only [movBody_begin h (kind_of_op hop (by simp))]
    rw [writeLoc_readWord_ne _ _ _ (hd (by simp [hop])), hb]
  | add =>
    simp only [addBody_begin h (kind_of_op hop (by simp)), arithStore_readWord]
    rw [writeLoc_readWord_ne _ _ _ (hd (by simp [hop])), State.readWord_setFlags,
      if_neg (hfl (by simp [hop])), hb]
  | sub =>
    simp only [subBody_begin h (kind_of_op hop (by simp)), arithStore_readWord]
    rw [writeLoc_readWord_ne _ _ _ (hd (by simp [hop])), State.readWord_setFlags,
      if_neg (hfl (by simp [hop])), hb]
  | cmp =>
    simp only [cmpBody, arithFlags, emitDelta_readWord]
    rw [State.readWord_setFlags, if_neg (hfl (by simp [hop])), hb]
  | je =>
    simp only [jeBody]
    split
    · rw [branchTo_readWord_ne _ _ hip, hb]
    · exact hb
  | jne =>
    simp only [jneBody]
    split
    · exact hb
    · rw [branchTo_readWord_ne _ _ hip, hb]
  | loop =>
    simp only [loopBody]
    split
    · rw [State.readWord_writeWord_ne _ _ (hc hop), hb]
    · rw [branchTo_readWord_ne _ _ hip, State.readWord_writeWord_ne _ _ (hc hop), hb]
  | other n => exact hb

/-- The memory a completed record leaves: all of it, but what the destination covers under MOV, ADD and
SUB. -/
theorem complete_byteAt_ne {r : Record} (h : r.firstFailingCheck = none) (s : State) {x : Int}
    (hd : r.op ∈ ([.mov, .add, .sub] : List OpKind) →
      (resolve r.width (r.operand 0) s).covers s (s.reduce x) = false) :
    (complete r (recordBody r) s).byteAt x = s.byteAt x := by
  have hcov : ∀ (l : Loc) (t : State) (k : Nat), t.cfg = s.cfg → l.covers t k = l.covers s k := by
    intro l t k hc
    rcases l with _ | ⟨a, _ | _⟩ | _ <;> simp [Loc.covers, State.reduce_congr hc]
  have store : ∀ (l : Loc) (v : Word) (t : State), t.cfg = s.cfg → t.mem = s.mem →
      l.covers s (s.reduce x) = false → (writeLoc l v t).byteAt x = s.byteAt x := by
    intro l v t hc hm hl
    rw [writeLoc_byteAt_ne _ _ _ (by rw [hcov l t _ hc, State.reduce_congr hc]; exact hl)]
    exact State.byteAt_congr hm hc x
  have arith : ∀ acc : Acc, (resolve r.width (r.operand 0) s).covers s (s.reduce x) = false →
      (arithStore acc (resolve r.width (r.operand 0) s) (begin r s)).byteAt x = s.byteAt x := by
    intro acc hl
    rw [← store _ (acc.setWidth 16) ((begin r s).setFlags (computeFlags (acc.setWidth 16))) rfl rfl hl]
    exact State.byteAt_congr (by simp) (by simp [arithStore]) x
  rw [complete_byteAt, recordBody]
  cases hop : r.op with
  | mov =>
    simp only [movBody_begin h (kind_of_op hop (by simp))]
    exact store _ _ _ rfl rfl (hd (by simp [hop]))
  | add =>
    simp only [addBody_begin h (kind_of_op hop (by simp))]
    exact arith _ (hd (by simp [hop]))
  | sub =>
    simp only [subBody_begin h (kind_of_op hop (by simp))]
    exact arith _ (hd (by simp [hop]))
  | cmp =>
    exact State.byteAt_congr (by simp [cmpBody, arithFlags]) (by simp [cmpBody, arithFlags]) x
  | je =>
    simp only [jeBody]
    split <;> exact State.byteAt_congr (by simp) (by simp) x
  | jne =>
    simp only [jneBody]
    split <;> exact State.byteAt_congr (by simp) (by simp) x
  | loop =>
    simp only [loopBody]
    split <;> exact State.byteAt_congr (by simp) (by simp) x
  | other n => exact State.byteAt_congr rfl rfl x

/-- A completed record keeps the memory canonical and inside the region. -/
theorem complete_mem_kept (r : Record) {s : State} (hw : Memory.wf s.mem = true)
    (hb : Memory.below s.mem s.memSize = true) :
    Memory.wf (complete r (recordBody r) s).mem = true ∧
      Memory.below (complete r (recordBody r) s).mem s.memSize = true := by
  have store : ∀ (l : Loc) (v : Word) (t : State), t.cfg = s.cfg → t.mem = s.mem →
      Memory.wf (writeLoc l v t).mem = true ∧ Memory.below (writeLoc l v t).mem s.memSize = true := by
    intro l v t hc hm
    refine ⟨writeLoc_wf l v (by rw [hm]; exact hw), ?_⟩
    rw [← State.memSize_congr hc]
    exact writeLoc_below l v (by rw [hm, State.memSize_congr hc]; exact hb)
  rw [complete_mem, recordBody]
  cases r.op with
  | mov => exact store _ _ _ rfl rfl
  | add => simp only [addBody, arithStore_mem]; exact store _ _ _ rfl rfl
  | sub => simp only [subBody, arithStore_mem]; exact store _ _ _ rfl rfl
  | cmp => simpa [cmpBody, arithFlags] using ⟨hw, hb⟩
  | je => simp only [jeBody]; split <;> exact ⟨hw, hb⟩
  | jne => simp only [jneBody]; split <;> exact ⟨hw, hb⟩
  | loop => simp only [loopBody]; split <;> exact ⟨hw, hb⟩
  | other n => exact ⟨hw, hb⟩

/-- The instruction pointer a completed record leaves: the next instruction's, but for a taken branch. -/
theorem complete_ip_seq {r : Record} (h : r.firstFailingCheck = none) (s : State)
    (hop : r.op ∉ ([.je, .jne, .loop] : List OpKind)) :
    (complete r (recordBody r) s).ip = s.ip + BitVec.ofNat 16 r.length := by
  have key : (recordBody r (begin r s)).ip = (begin r s).ip := by
    have dst : ∀ v t, (∀ n, r.op ≠ .other n) →
        (writeLoc (resolve r.width (r.operand 0) s) v t).readWord .ip = t.readWord .ip := fun v t hk =>
      writeLoc_readWord_ne _ _ _ (dst_inSlot_false h hk s 0 (by decide))
    unfold recordBody
    cases hop' : r.op with
    | mov =>
      simp only [movBody_begin h (kind_of_op hop' (by simp))]
      exact dst _ _ (kind_of_op hop' (by simp))
    | add =>
      simp only [addBody_begin h (kind_of_op hop' (by simp)), State.ip, arithStore_readWord]
      rw [dst _ _ (kind_of_op hop' (by simp)), State.readWord_setFlags, if_neg (by decide)]
    | sub =>
      simp only [subBody_begin h (kind_of_op hop' (by simp)), State.ip, arithStore_readWord]
      rw [dst _ _ (kind_of_op hop' (by simp)), State.readWord_setFlags, if_neg (by decide)]
    | cmp =>
      simp only [cmpBody, arithFlags, State.ip, emitDelta_readWord]
      rw [State.readWord_setFlags, if_neg (by decide)]
    | je => simp [hop'] at hop
    | jne => simp [hop'] at hop
    | loop => simp [hop'] at hop
    | other n => rfl
  rw [complete, endTest_ip, key, begin_ip]

/-! ## The flags after arithmetic -/

theorem arith_flags {l : Loc} (hl : l.inSlot .flags = false) (acc : Acc) (s : State) :
    (arithStore acc l s).readWord .flags = (computeFlags (acc.setWidth 16)).toWord := by
  rw [arithStore_readWord, writeLoc_flags hl, State.readWord_setFlags, if_pos rfl]

theorem arithFlags_flags (acc : Acc) (s : State) :
    (arithFlags acc s).readWord .flags = (computeFlags (acc.setWidth 16)).toWord := by
  simp [arithFlags, State.readWord_setFlags]

/-- A FLAGS slot that holds a flag set's word reads as that flag set. -/
theorem State.flags_of_word {s : State} {f : Flags} (h : s.readWord .flags = f.toWord) :
    s.flags = f := by
  rw [← State.flags_setFlags s f]
  exact State.flags_congr (by rw [h, State.readWord_setFlags, if_pos rfl])

/-! ## What a store leaves at its destination -/

/-- A store through a well-formed location leaves the value there (20_memory.md R60). -/
theorem storedAt_writeLoc {l : Loc} (v : Word) {s t : State} (hm : Memory.wf t.mem = true)
    (hc : t.cfg = s.cfg) (hr : ∀ j, l.inSlot j = true → t.readWord j = s.readWord j)
    (hl : ∀ c w, l ≠ .imm c w) : storedAt l v s (writeLoc l v t) := by
  have e1 : ∀ x : Word, (x &&& 0xFF00#16).toNat = x.toNat / 256 * 256 := by
    intro x
    have : x &&& 0xFF00#16 = (x >>> 8) <<< 8 := by
      apply BitVec.eq_of_getLsbD_eq
      intro k hk
      have : k = 0 ∨ k = 1 ∨ k = 2 ∨ k = 3 ∨ k = 4 ∨ k = 5 ∨ k = 6 ∨ k = 7 ∨ k = 8 ∨ k = 9 ∨
        k = 10 ∨ k = 11 ∨ k = 12 ∨ k = 13 ∨ k = 14 ∨ k = 15 := by omega
      rcases this with rfl | rfl | rfl | rfl | rfl | rfl | rfl | rfl | rfl | rfl | rfl | rfl | rfl |
        rfl | rfl | rfl <;> simp
    rw [this]
    simp only [BitVec.toNat_shiftLeft, BitVec.toNat_ushiftRight, Nat.shiftRight_eq_div_pow,
      Nat.shiftLeft_eq]
    have := x.isLt
    omega
  have e2 : ∀ x : Word, (x &&& 0x00FF#16).toNat = x.toNat % 256 := by
    intro x
    rw [BitVec.toNat_and]
    exact Nat.and_two_pow_sub_one_eq_mod x.toNat 8
  have e3 : ∀ a b : Nat, b < 256 → a * 256 ||| b = a * 256 + b := by
    intro a b hb
    have := Nat.two_pow_add_eq_or_of_lt (i := 8) (b := b) (by omega) a
    rw [Nat.mul_comm a 256]
    simpa using this.symm
  rcases l with ⟨i, off, _ | _⟩ | ⟨a, _ | _⟩ | ⟨c, w⟩
  · have hi := hr i (by simp [Loc.inSlot])
    have hoff : off = 0 ∨ off = 1 := by omega
    rcases hoff with rfl | rfl
    · show (t.writeByte i 0 (loByte v)).readWord i = _
      rw [State.readWord_writeByte_lo, hi]
      apply BitVec.eq_of_toNat_eq
      rw [toNat_wordOf, toNat_hiByte, toNat_loByte, BitVec.toNat_or, e1, e2, e3 _ _ (by omega)]
    · show (t.writeByte i 1 (loByte v)).readWord i = _
      rw [State.readWord_writeByte_hi, hi]
      apply BitVec.eq_of_toNat_eq
      rw [toNat_wordOf, toNat_loByte, toNat_loByte, BitVec.toNat_or, e2, Nat.or_comm]
      have h8 : (v <<< 8).toNat = v.toNat % 256 * 256 := by
        simp only [BitVec.toNat_shiftLeft, Nat.shiftLeft_eq]
        omega
      rw [h8, e3 _ _ (by omega)]
  · show (t.writeWord i v).readWord i = v
    simp
  · show ((t.memWrite a .byte v).byteAt a).toNat = v.toNat % 256
    rw [State.byteAt_memWrite_byte hm, if_pos rfl, toNat_loByte]
  · refine ⟨?_, fun hne => ?_⟩
    · show ((t.memWrite a .word v).byteAt (a + 1)).toNat = _
      rw [State.byteAt_memWrite_word hm, if_pos rfl, toNat_hiByte]
    · show ((t.memWrite a .word v).byteAt a).toNat = _
      rw [State.byteAt_memWrite_word hm, State.reduce_congr hc, State.reduce_congr hc, if_neg hne,
        if_pos rfl, toNat_loByte]
  · exact absurd rfl (hl c w)

end Sys2Proof.Machine
end

