-- ==== Sys2Proof/Tests/Slice0.lean ====
section
/-! SUPPORT. The model's own tests. Words are written out from the tables of 30_encoding.md section 3;
expected results are the vectors of 95_test_vectors.md or worked out by hand from the rule named. The
witnesses at the end meet the hypotheses of the statements in Certificates/Slice0/Obligations.lean. -/

namespace Sys2Proof.Tests

open Sys2Proof.Machine

/-- A run of the given program bytes, right after reset, with default parameters. -/
def load (bs : List Byte) : State := State.resetWith { program := bs }

/-- The next state, if the outcome is one. -/
def nextOf : Host.Outcome State Fault Refusal → Option State
  | .next t => some t
  | .fault _ | .refused _ => none

/-- The failing check, if the outcome is a refusal for one. -/
def refusedFor : Host.Outcome State Fault Refusal → Option WfCheck
  | .refused (.illFormed c) => some c
  | _ => none

/-- One field after one step. -/
def afterStep {α : Type} (s : State) (f : State → α) : Option α := (nextOf (step s)).map f

/-- A decoder that answers one record whatever the memory holds. -/
def always (r : Record) : Decoder := fun _ _ => some r

/-- The state with FLAGS, IP and a program at offset `p` (which fits in its first bytes). -/
def at' (p : Word) (bs : List Byte) (f : Flags) : State :=
  ((load (List.replicate p.toNat 0 ++ bs)).setIp p).setFlags f

/-! ## Decoding: one word or more for each constructor -/

theorem test_decode_movRmReg : decode [0x88, 0xE0] = some (.movRmReg .toRm .byte .spAh (.reg .axAl)) := by
  decide
/-- 100010 1 1, mod 01, reg 011, r/m 110, d8 FE: `mov bx, [bp - 2]`. -/
theorem test_decode_movRmReg_disp8 :
    decode [0b10001011, 0b01011110, 0xFE] =
      some (.movRmReg .toReg .word .bxBl (.based .bp (.d8 0xFE))) := by decide
theorem test_decode_movRmImm :
    decode [0b11000111, 0b00000110, 0x00, 0x03, 0x34, 0x12] =
      some (.movRmImm (.direct 0x300) (.word 0x1234)) := by decide
theorem test_decode_movRegImm : decode [0b10110101, 0x01] = some (.movRegImm .bpCh (.byte 1)) := by
  decide
theorem test_decode_movAccMem : decode [0b10100001, 0x00, 0x03] = some (.movAccMem .word 0x300) := by
  decide
theorem test_decode_movMemAcc : decode [0b10100010, 0x00, 0x03] = some (.movMemAcc .byte 0x300) := by
  decide
/-- 10001110, mod 11, 0 11, r/m 000: `mov ds, ax`. -/
theorem test_decode_movSregRm : decode [0b10001110, 0b11011000] = some (.movSregRm .ds (.reg .axAl)) := by
  decide
theorem test_decode_movRmSreg : decode [0b10001100, 0b11000011] = some (.movRmSreg (.reg .bxBl) .es) := by
  decide
/-- 000000 0 1, mod 10, reg 000, r/m 011, d16 8001: `add [bp + di - 7FFFh], ax`. -/
theorem test_decode_addRmReg :
    decode [0b00000001, 0b10000011, 0x01, 0x80] =
      some (.addRmReg .toRm .word .axAl (.based .bpDi (.d16 0x8001))) := by decide
theorem test_decode_addRmImm :
    decode [0b10000011, 0b11000000, 0xFF] = some (.addRmImm (.reg .axAl) (.signed 0xFF)) := by decide
theorem test_decode_addAccImm : decode [0b00000100, 0x01] = some (.addAccImm (.byte 1)) := by decide
theorem test_decode_subRmReg :
    decode [0b00101010, 0b00101111] = some (.subRmReg .toReg .byte .bpCh (.based .bx .zero)) := by decide
theorem test_decode_subRmImm :
    decode [0b10000010, 0b11101011, 0x35] = some (.subRmImm (.reg .bxBl) (.byte true 0x35)) := by decide
theorem test_decode_subAccImm : decode [0b00101101, 0x05, 0x00] = some (.subAccImm (.word 5)) := by decide
theorem test_decode_cmpRmReg :
    decode [0b00111001, 0b11011000] = some (.cmpRmReg .toRm .word .bxBl (.reg .axAl)) := by decide
theorem test_decode_cmpRmImm :
    decode [0b10000000, 0b11111011, 0x34] = some (.cmpRmImm (.reg .bxBl) (.byte false 0x34)) := by decide
theorem test_decode_cmpAccImm : decode [0b00111101, 0x34, 0x12] = some (.cmpAccImm (.word 0x1234)) := by
  decide
theorem test_decode_je : decode [0b01110100, 0x03] = some (.je 3) := by decide
theorem test_decode_jne : decode [0b01110101, 0x80] = some (.jne 0x80) := by decide
theorem test_decode_loop : decode [0b11100010, 0xFE] = some (.loop 0xFE) := by decide

/-- 30_encoding.md R85: nop, hlt, a prefix, `or al, 1`, C6 /1, 8C with bit 5, a truncated stream. -/
theorem test_decode_unrecognized :
    [[0x90, 0], [0xF4, 0], [0x26, 0x8B, 0x07], [0x80, 0xC8, 0x01], [0xC6, 0x08, 0, 0], [0x8C, 0xE0],
      [0xB8, 0x01], ([] : List Byte)].map decode =
      [none, none, none, none, none, none, none, none] := by decide

/-- The opcode table's numbers: a two-digit row and a four-digit row with zero operands, and the
same instruction with its first byte in the low bits. -/
theorem test_table_words :
    decodeTableWord 8 0x88 = some (.movRmReg .toRm .byte .axAl (.based .bxSi .zero)) ∧
    decodeTableWord 16 0x8028 = some (.subRmImm (.based .bxSi .zero) (.byte false 0)) ∧
    decodeTableWord 16 0x2880 = some (.subRmImm (.based .bxSi .zero) (.byte false 0)) ∧
    decodeTableWord 16 0xC600 = some (.movRmImm (.based .bxSi .zero) (.byte 0)) ∧
    decodeTableWord 8 0x90 = none := by decide

/-- The next step after reset runs the word that `withFetchWord` places: LOOP, byte E2. -/
theorem test_withFetchWord :
    afterStep (State.reset.withFetchWord 8 0xE2) (fun t => (t.readWord .c, t.ip)) =
      some (0xFFFF, 2) := by decide

/-! ## Well-formedness -/

/-- Mod 00 with r/m 110 is the direct address (30_encoding.md R72): no bytes mean `[bp]` without a
displacement, in any form with an r/m operand. -/
theorem test_bp_needs_displacement :
    ([.movRmReg .toRm .word .axAl (.based .bp .zero), .movRmImm (.based .bp .zero) (.byte 0),
      .movSregRm .es (.based .bp .zero), .movRmSreg (.based .bp .zero) .es,
      .addRmReg .toRm .word .axAl (.based .bp .zero), .subRmImm (.based .bp .zero) (.word 0),
      .cmpRmImm (.based .bp .zero) (.signed 0)] : List Instr).map Instr.wf =
      [false, false, false, false, false, false, false] := by decide

/-- A word register operand and a word MOV. -/
def axWord : Operand := .reg ⟨.a, 0, .word⟩
def movWord (ops : List Operand) : Record := { op := .mov, operands := ops, wide := true, length := 2 }

/-- An ill-formed record for each check of 30_encoding.md R68 but WF6, which WF1 implies. -/
theorem test_wf1 : (movWord [.imm 1, axWord]).firstFailingCheck = some .wf1 := by decide
theorem test_wf2 : (movWord [.reg ⟨.ip, 0, .word⟩, axWord]).firstFailingCheck = some .wf2 := by decide
theorem test_wf3 :
    ({ op := .mov, operands := [.reg ⟨.sp, 1, .byte⟩, .imm 0], wide := false, length := 2 } :
      Record).firstFailingCheck = some .wf3 := by decide
theorem test_wf4 : (movWord [.reg ⟨.a, 1, .word⟩, axWord]).firstFailingCheck = some .wf4 := by decide
theorem test_wf5 : (movWord [.reg ⟨.a, 0, .byte⟩, axWord]).firstFailingCheck = some .wf5 := by decide
theorem test_wf6 : (movWord [.imm 1, axWord]).passes .wf6 = false := by decide
theorem test_wf7 :
    (movWord [axWord, .mem [⟨⟨.flags, 0, .word⟩, 1⟩] 0 none]).firstFailingCheck = some .wf7 := by decide
theorem test_wf8 :
    ({ op := .other "nop", operands := [], wide := false, length := 0 } : Record).firstFailingCheck =
      some .wf8 := by decide
/-- 95_test_vectors.md L2.5: the step refuses, naming the first failing check. -/
theorem test_refused :
    refusedFor (stepWith (always { op := .add, operands := [.imm 1, axWord], wide := true, length := 2 })
      (load [0x90])) = some .wf1 := by decide

/-! ## One step (95_test_vectors.md L2.1 to L2.4) -/

theorem test_mov_al_ah :
    afterStep ((load [0x88, 0xE0]).writeWord .a 0x5A00) (·.readWord .a) = some 0x5A5A := by decide
/-- No 16-bit wrap of the effective address (20_memory.md R55). -/
theorem test_mov_ax_bx_si :
    afterStep ((((load [0x8B, 0x40, 0x02]).writeWord .b 0xFFFF).writeWord .si 2).memWrite 0x10003 .word
      0x0201) (·.readWord .a) = some 0x0201 := by decide
theorem test_mov_mem_imm :
    afterStep (load [0xC7, 0x06, 0x00, 0x03, 0x34, 0x12])
      (fun t => (t.byteAt 0x300, t.byteAt 0x301, t.ip)) = some (0x34, 0x12, 6) := by decide
theorem test_mov_reg_imm :
    afterStep ((load [0xB4, 0x12]).writeWord .a 0xABCD) (fun t => (t.readWord .a, t.ip)) =
      some (0x12CD, 2) := by decide
theorem test_mov_acc_mem :
    afterStep ((load [0xA1, 0x00, 0x03]).memWrite 0x300 .word 0x1234) (·.readWord .a) =
      some 0x1234 := by decide
theorem test_mov_mem_acc :
    afterStep ((load [0xA2, 0x00, 0x03]).writeWord .a 0x1234) (fun t => (t.byteAt 0x300, t.byteAt 0x301)) =
      some (0x34, 0) := by decide
theorem test_mov_cs :
    afterStep ((load [0x8E, 0xC8]).writeWord .a 7) (fun t => (t.readWord .cs, t.ip)) = some (7, 2) := by
  decide
theorem test_mov_bx_es :
    afterStep ((load [0x8C, 0xC3]).writeWord .es 0x42) (·.readWord .b) = some 0x42 := by decide
/-- The word wraps at the top of the region (P6). -/
theorem test_mov_wraps :
    afterStep ((load [0x89, 0x46, 0xFF]).writeWord .a 0x1234) (fun t => (t.byteAt 0xFFFFF, t.byteAt 0)) =
      some (0x34, 0x12) := by decide

theorem test_add_mem :
    afterStep ((((load [0x01, 0x07]).writeWord .b 0x300).writeWord .a 1).memWrite 0x300 .word 0x00FF)
      (fun t => (t.byteAt 0x300, t.byteAt 0x301, t.flags)) =
      some (0x00, 0x01, ⟨true, false, false⟩) := by decide
theorem test_add_sign_extended :
    afterStep (load [0x83, 0xC0, 0xFF]) (fun t => (t.readWord .a, t.flags)) =
      some (0xFFFF, ⟨true, false, true⟩) := by decide
/-- Byte width: al = FF + 1 = 00, ZF clear, PF set (42_arithmetic.md R104). -/
theorem test_add_byte_flags :
    afterStep ((load [0x04, 0x01]).writeWord .a 0xFF) (fun t => (t.readWord .a, t.flags)) =
      some (0x0000, ⟨true, false, false⟩) := by decide
theorem test_add_word_wraps :
    afterStep ((load [0x05, 0x01, 0x00]).writeWord .a 0xFFFF) (fun t => (t.readWord .a, t.flags)) =
      some (0x0000, ⟨true, true, false⟩) := by decide
theorem test_sub_reg_mem :
    afterStep (((load [0x2B, 0x07]).writeWord .b 0x300).memWrite 0x300 .word 1)
      (fun t => (t.readWord .a, t.flags)) = some (0xFFFF, ⟨true, false, true⟩) := by decide
theorem test_sub_rm_imm :
    afterStep ((load [0x80, 0xEB, 0x35]).writeWord .b 0x0034) (fun t => (t.readWord .b, t.flags)) =
      some (0x00FF, ⟨true, false, true⟩) := by decide
theorem test_sub_acc :
    afterStep ((load [0x2D, 0x01, 0x00]).writeWord .a 0x8000) (fun t => (t.readWord .a, t.flags)) =
      some (0x7FFF, ⟨true, false, false⟩) := by decide
theorem test_cmp_rm_reg :
    afterStep (((load [0x39, 0xD8]).writeWord .a 5).writeWord .b 7)
      (fun t => (t.readWord .a, t.readWord .b, t.flags)) = some (5, 7, ⟨false, false, true⟩) := by decide
/-- The word compare of 95_test_vectors.md L1.3: memory kept, SF set, PF clear. -/
theorem test_cmp_mem_imm :
    afterStep ((load [0x83, 0x3E, 0x00, 0x02, 0x07]).memWrite 0x200 .word 5)
      (fun t => (t.byteAt 0x200, t.flags, t.ip)) = some (5, ⟨false, false, true⟩, 5) := by decide
theorem test_cmp_byte_borrow :
    afterStep ((load [0x3C, 0x02]).writeWord .a 1) (fun t => (t.readWord .a, t.flags)) =
      some (1, ⟨true, false, true⟩) := by decide

theorem test_je_taken :
    afterStep (at' 10 [0x74, 0x03] ⟨true, true, false⟩) State.ip = some 15 := by decide
theorem test_je_not_taken :
    afterStep (at' 10 [0x74, 0x03] ⟨true, false, false⟩) State.ip = some 12 := by decide
/-- A backward branch past 0 wraps and ends the run. -/
theorem test_jne_wraps :
    afterStep (load [0x75, 0x80]) (fun t => (t.ip, t.status)) =
      some (0xFF82, .haltedEndOfCode) := by decide
theorem test_loop_from_zero :
    afterStep (load [0xE2, 0x00]) (fun t => (t.ip, t.readWord .c, t.flags)) =
      some (2, 0xFFFF, ⟨false, false, false⟩) := by decide
theorem test_loop_ends :
    afterStep ((at' 3 [0xE2, 0xFE] ⟨true, true, true⟩).writeWord .c 1)
      (fun t => (t.ip, t.readWord .c, t.flags)) = some (5, 0, ⟨true, true, true⟩) := by decide

/-! ## The cycle, the trace and the report -/

/-- P5a: a decode error at the first byte. -/
theorem test_decode_error :
    afterStep (load [0x0F, 0x00]) (fun t => (t.status, t.trace, t.ip)) =
      some (.haltedDecodeError 0, [.decodeError 0], 0) := by decide
/-- Flags that do not change give no delta; `sub ax, 1` from 2 clears PF (L2.2). -/
theorem test_flag_delta :
    afterStep ((at' 0 [0x2D, 0x01, 0x00] ⟨true, false, false⟩).writeWord .a 2)
      (fun t => t.trace.drop 1) = some [.flagsDelta ⟨true, false, false⟩ ⟨false, false, false⟩] ∧
    afterStep ((at' 0 [0x05, 0x02, 0x00] ⟨true, false, false⟩).writeWord .a 1)
      (fun t => t.trace.drop 1) = some [] := by decide
/-- The record of 95_test_vectors.md L1.4: the scale multiplies the running sum, 45. -/
theorem test_fold_order :
    (nextOf (stepWith (always (movWord [axWord, .mem [⟨⟨.b, 0, .word⟩, 2⟩, ⟨⟨.si, 0, .word⟩, 4⟩] 1 none]))
      ((((load [0x90]).writeWord .b 3).writeWord .si 5).memWrite 45 .word 0x2211))).map
      (·.readWord .a) = some 0x2211 := by decide
/-- 20_memory.md R52, R57, R59: `ah` and `al` each read their own byte; a word from memory is
little-endian. -/
theorem test_operand_reads :
    let s := ((load []).writeWord .a 0x1234).memWrite 0x200 .word 0xABCD
    readLoc (resolve .byte (.reg ⟨.a, 1, .byte⟩) s) s = 0x12 ∧
    readLoc (resolve .byte (.reg ⟨.a, 0, .byte⟩) s) s = 0x34 ∧
    readLoc (resolve .word (.mem [] 0x200 none) s) s = 0xABCD ∧
    readLoc (resolve .byte (.mem [] 0x201 none) s) s = 0xAB := by decide
/-- A term that names NONE is skipped with its scale; a byte term reads the high byte (L1.4). -/
theorem test_fold_terms :
    effectiveAddress ((load []).writeWord .di 4) [⟨⟨.none, 0, .word⟩, 5⟩, ⟨⟨.di, 0, .word⟩, 2⟩] 0 = 8 ∧
    effectiveAddress ((load []).writeWord .a 0x1234) [⟨⟨.a, 1, .byte⟩, 1⟩] 0 = 0x12 := by decide
/-- 95_test_vectors.md L2.4: `Reduce(-2)`, and a 16-byte region. -/
theorem test_reduce :
    (load []).reduce (-2) = 0xFFFFE ∧ (State.resetWith { sizePow2 := 4 }).reduce 0x13 = 3 := by decide
/-- Data addresses do not add Origin: `mov ax, [0]` at origin 0x100 reads address 0 (L2.5). -/
theorem test_origin :
    afterStep (State.resetWith { origin := 0x100, program := [0xA1, 0x00, 0x00] })
      (fun t => (t.readWord .a, t.ip, t.byteAt 0x100)) = some (0, 3, 0xA1) := by decide
/-- The program is truncated to the region (L2.5). -/
theorem test_truncated_load :
    (State.resetWith { sizePow2 := 2, program := [0xB0, 1, 0xB0, 2, 0xB0, 3] }).cfg.codeLength = 4 := by
  decide
/-- The end state of P4: report lines and flag letters. -/
theorem test_final_report :
    finalReport ((((load []).writeWord .a 0xFF34).writeWord .b 0x00FF).setFlags ⟨true, false, true⟩) =
      ["ax: 0xff34 (65332)", "bx: 0x00ff (255)", "flags: PS"] := by decide

/-! ## Witnesses: the hypotheses of the statements can be met -/

theorem witness_DecodeOfEncode :
    (Instr.movRmReg .toReg .word .axAl (.based .bxSi (.d16 0x8000))).wf = true := by decide
theorem witness_EncodeOfDecode :
    decodeRest [0x05, 0x02, 0x00, 0x90] = some (.addAccImm (.word 2), [0x90]) := by decide
theorem witness_AtMostOneRowMatches :
    ∃ r ∈ rows, r.accepts 0x80 0x28 = true := by decide
/-- The shortest and the longest instruction. -/
theorem witness_LengthFromOpcodeAndModRm :
    decodeRest [0x74, 0x00] = some (.je 0, []) ∧
    decodeRest [0xC7, 0x80, 0, 0, 0, 0, 9] =
      some (.movRmImm (.based .bxSi (.d16 0)) (.word 0), [9]) := by decide
/-- One pattern of each bullet of R85, on a running machine. -/
theorem witness_UnrecognizedSetHalts :
    (load [0xF4, 0]).status = .running ∧ (load [0xF4, 0]).memValid = true ∧
    unrecognizedBytes (codeAt (load [0xF4, 0]) 0) (codeAt (load [0xF4, 0]) 1) = true ∧
    unrecognizedBytes 0x83 0x08 = true ∧ unrecognizedBytes 0xC7 0x38 = true ∧
    unrecognizedBytes 0x8E 0x20 = true := by decide
/-- Both directions, both widths, a row of each kind. -/
theorem witness_ModRmOperandTables :
    (0x88, .mov, false, false) ∈ rmRegOpcodes ∧ (0x03, .add, true, true) ∈ rmRegOpcodes ∧
    (0x2A, .sub, true, false) ∈ rmRegOpcodes ∧ (0x39, .cmp, false, true) ∈ rmRegOpcodes := by decide
theorem witness_SegmentNumberTable : (0xDF : Byte).toNat / 32 % 2 = 0 := by decide
/-- No displacement, one byte and two; reg 000, 101 and 111. -/
theorem witness_ImmediateAssembly :
    (([] : List Byte).length = modRmDispCount 0xC0 ∧ (0xC0 : Byte).toNat / 8 % 8 = 0) ∧
    (([7] : List Byte).length = modRmDispCount 0x68 ∧ (0x68 : Byte).toNat / 8 % 8 = 5) ∧
    (([7, 8] : List Byte).length = modRmDispCount 0x3E ∧ (0x3E : Byte).toNat / 8 % 8 = 7) := by decide
theorem witness_ByteAccessToWordOnlyRefused :
    let r : Record := { op := .mov, operands := [.reg ⟨.sp, 1, .byte⟩, .imm 0], wide := false, length := 2 }
    (load [0x90]).status = .running ∧ (load [0x90]).memValid = true ∧
    always r (load [0x90]).ip (codeAt (load [0x90])) = some r ∧ r.op = .mov ∧
    .reg ⟨.sp, 1, .byte⟩ ∈ r.operands ∧ Slot.sp ∉ ([.a, .b, .c, .d] : List Slot) := by decide
/-- MOV changes its destination, LOOP changes C. -/
theorem witness_RegistersChangeOnlyAsDestination :
    (nextOf (stepWith rd (load [0xB0, 0x01]))).map (·.readWord .a) = some 1 ∧
    (nextOf (stepWith rd (load [0xE2, 0x00]))).map (·.readWord .c) = some 0xFFFF := by decide
theorem witness_OnlyArithmeticWritesFlags :
    (nextOf (stepWith rd (load [0x05, 0x00, 0x00]))).map (·.readWord .flags) = some 0x0044 := by decide
/-- Reset memory is canonical: the premise of the memory statements (MemoryReadAndWrite, FetchSeesStores,
MovCopiesWidthBytes, AddWritesSumAndFlags, SubWritesDifferenceAndFlags). -/
theorem witness_memory_wf : Memory.wf State.reset.mem = true ∧ Memory.wf (load [0xB0, 0x01]).mem = true := by
  decide
theorem witness_AddressReduction :
    State.reset.reduce (-1) = State.reset.reduce 0xFFFFF := by decide
theorem witness_SegmentsTakeNoPartInAddressing : ∀ n, (Rm.based .bx .zero) ≠ .reg n := by
  intro n; exact Rm.noConfusion
theorem witness_MemoryChangesOnlyAtDestination :
    (nextOf (stepWith rd (load [0xC6, 0x06, 0x00, 0x03, 0x7F]))).map (·.byteAt 0x300) = some 0x7F ∧
    (load [0xC6, 0x06, 0x00, 0x03, 0x7F]).byteAt 0x300 = 0 := by decide
/-- One form of each MOV constructor, which all complete. -/
theorem witness_MovForms :
    ([.movRmReg .toRm .word .axAl (.direct 0), .movRmImm (.reg .bxBl) (.byte 1),
      .movRegImm .spAh (.byte 1), .movAccMem .word 0xFFFF, .movMemAcc .byte 0, .movSregRm .cs (.reg .axAl),
      .movRmSreg (.direct 0xFFFF) .ds] : List Instr).all
      (fun i => i.isMov && (nextOf (exec i State.reset)).isSome) = true := by decide
theorem witness_AddForms :
    ([.addRmReg .toReg .byte .spAh (.direct 0), .addRmImm (.direct 0xFFFF) (.signed 0x80),
      .addAccImm (.word 0xFFFF)] : List Instr).all
      (fun i => i.isAdd && (nextOf (exec i State.reset)).isSome) = true := by decide
theorem witness_SubForms :
    ([.subRmReg .toRm .word .axAl (.reg .axAl), .subRmImm (.based .bpDi (.d8 0x80)) (.byte true 1),
      .subAccImm (.byte 0xFF)] : List Instr).all
      (fun i => i.isSub && (nextOf (exec i State.reset)).isSome) = true := by decide
theorem witness_CmpForms :
    ([.cmpRmReg .toRm .word .axAl (.direct 0xFFFF), .cmpRmImm (.reg .bxBl) (.byte false 1),
      .cmpAccImm (.byte 0xFF)] : List Instr).all
      (fun i => i.isCmp && (nextOf (exec i State.reset)).isSome) = true := by decide
/-- Byte forms at the edges of the clauses: a + b = 0 and 510, a = b, a < b by one. -/
theorem witness_ByteWidthFlagLaw :
    (Instr.addAccImm (.byte 0xFF)).toRecord.width = .byte ∧
    (Instr.cmpAccImm (.byte 0x01)).toRecord.width = .byte ∧
    (nextOf (exec (.addAccImm (.byte 0)) State.reset)).map (·.flags.zf) = some true ∧
    (nextOf (exec (.addAccImm (.byte 0xFF)) (State.reset.writeWord .a 0xFF))).map (·.flags.sf) =
      some false ∧
    (nextOf (exec (.cmpAccImm (.byte 1)) (State.reset.writeWord .a 1))).map (·.flags.zf) = some true ∧
    (nextOf (exec (.cmpAccImm (.byte 1)) State.reset)).map (·.flags.sf) = some true := by decide
theorem witness_BranchForms :
    ([.je 0x80, .jne 0x7F, .loop 0xFF] : List Instr).all
      (fun i => i.relByte?.isSome && (nextOf (exec i State.reset)).isSome) = true := by decide
/-- `loop $` after reset with a value in CX. -/
def selfLoop (c : Word) : State := (load [0xE2, 0xFE]).writeWord .c c
/-- CX = 1 (one step), CX = 0 (65536) and CX = FFFF: each is a running machine at `loop $`. -/
theorem witness_LoopToItselfEnds :
    ([1, 0, 0xFFFF] : List Word).all (fun c =>
      decide ((selfLoop c).status = .running) && (selfLoop c).memValid &&
        decide (decode (fetch (selfLoop c)) = some (.loop 0xFE)) &&
        decide ((selfLoop c).ip.toNat < (selfLoop c).cfg.endLimit) &&
        decide ((selfLoop c).readWord .c = c)) = true := by decide
/-- A well-formed record of each kind, a MOV from memory to memory among them, on a running machine. -/
theorem witness_RecordsOfAnyDecoderExecute :
    ((load [0x90]).status = .running ∧ (load [0x90]).memValid = true ∧
      Memory.wf (load [0x90]).mem = true) ∧
    ([movWord [.mem [⟨⟨.c, 1, .byte⟩, -3⟩] 70000 (some .es), .mem [] (-1) none],
      { movWord [axWord, .imm 70000] with op := .add }, { movWord [axWord, axWord] with op := .sub },
      { movWord [.mem [] 0 none, axWord] with op := .cmp }, { movWord [.imm 70000] with op := .je },
      { movWord [.imm (-70000)] with op := .jne }, { movWord [.imm 0] with op := .loop }] :
      List Record).all (fun r => r.firstFailingCheck == none) = true := by decide
/-- A decode error, a sequential advance and a taken branch. -/
theorem witness_IpChangesInTwoPlaces :
    (nextOf (stepWith rd (load [0x90]))).map State.ip = some 0 ∧
    (nextOf (stepWith rd (load [0xB0, 0x01]))).map State.ip = some 2 ∧
    (nextOf (stepWith rd (load [0x75, 0x80]))).map State.ip = some 0xFF82 := by decide
theorem witness_JeToItselfNeverEnds :
    let s := (load [0x74, 0xFE]).setFlags ⟨false, true, false⟩
    s.status = .running ∧ s.memValid = true ∧ decode (fetch s) = some (.je 0xFE) ∧ s.flags.zf = true ∧
      s.ip.toNat < s.cfg.endLimit := by decide
/-- One step ends this run; a refused step ends the next one at the state it was taken from, after a step
that ran; a fault ends the third. -/
theorem witness_RunEndIsFinal :
    (runWith rd 1 (load [0xB0, 0x01])).state.status = .haltedEndOfCode ∧
    (let D : Decoder := fun ip code =>
      if ip = 0 then rd ip code else some (movWord [axWord])
     let e := runWith D 1 (load [0xB0, 0x01, 0x90])
     e.stop = none ∧ e.state.status = .running ∧
       stepWith D e.state = .refused (.illFormed .wf1) ∧
       runWith D 5 (load [0xB0, 0x01, 0x90]) = { e with stop := some (.refused (.illFormed .wf1)) } ∧
       slotWords e.state = [0, 1, 0, 0, 0, 0, 0, 0, 0, 0, 0, 0, 0, 2, 0]) ∧
    (runWith rd 1 { load [0xB0, 0x01] with memValid := false }).stop = some (.fault .invalidMemory) := by
  refine ⟨by decide, ⟨by decide, by decide, rfl, by decide, by decide⟩, by decide⟩
theorem witness_StepRunsDecodedInstruction :
    let s := load [0x05, 0x02, 0x00]
    s.status = .running ∧ s.memValid = true ∧
      decode ((List.range 6).map fun (k : Nat) => s.byteAt (s.cfg.origin + s.ip.toNat + k)) =
        some (.addAccImm (.word 2)) := by decide
theorem witness_DecodeFailureHalts :
    let s := load [0x90]
    s.status = .running ∧ s.memValid = true ∧ decode (fetch s) = none ∧
      rd s.ip (codeAt s) = none := by decide
theorem witness_HaltedStatesAreFinal :
    State.reset.status ≠ .running ∧ (State.resetWith { allocOK := false }).status ≠ .running := by decide
/-- The end test on both sides of the limit, for RD and for an unhandled operation. -/
theorem witness_EndTestAfterEveryStep :
    (nextOf (step (load [0xB0, 0x01]))).map (·.status) = some .haltedEndOfCode ∧
    (nextOf (step (load [0xB0, 0x01, 0x90]))).map (·.status) = some .running := by decide
theorem witness_UnhandledIsSteppedOver :
    let r : Record := { op := .other "nop", operands := [], wide := false, length := 1 }
    (load [0x90]).status = .running ∧ (load [0x90]).memValid = true ∧ 1 ≤ r.length ∧
    (nextOf (stepWith (always r) (load [0x90]))).map (fun t => (t.ip, t.status, t.trace)) =
      some (1, .haltedEndOfCode, [.exec r, .unhandled r]) := by decide
theorem witness_IllFormedRecordRefused :
    (load [0x90]).status = .running ∧ (load [0x90]).memValid = true ∧
    (movWord [axWord]).firstFailingCheck = some .wf1 := by decide
theorem witness_WellFormedRecordsMeetTheChecks :
    (movWord [axWord, axWord]).firstFailingCheck = none ∧
    (relRecord .loop 0xFE).firstFailingCheck = none ∧
    ({ op := .other "nop", operands := [.imm 0, .imm 0, .imm 0], wide := false, length := 1 } :
      Record).firstFailingCheck = none := by decide
/-- A next state, a fault and a refusal. -/
theorem witness_TraceNeverFeedsBack :
    (nextOf (stepWith rd { load [0xB0, 0x01] with trace := [.decodeError 0] })).isSome = true ∧
    nextOf (stepWith rd State.reset) = none ∧
    refusedFor (stepWith (always (movWord [axWord])) (load [0x90])) = some .wf1 := by decide
/-- Origin 0, the top origin, the smallest region, and an end limit of 0. -/
theorem witness_ResetTable :
    (({} : Params).wf && ({ origin := 0xFFFFF, program := [1, 2] } : Params).wf &&
      ({ sizePow2 := 0, program := [1, 2] } : Params).wf &&
      ({ endLimit := some 0, program := [1] } : Params).wf) = true ∧
    ({ sizePow2 := 0, program := [1, 2] } : Params).codeLength = 1 ∧
    ({ origin := 0xFFFFF, program := [1, 2] } : Params).codeLength = 1 := by decide
theorem witness_AllocationFailureAborts : ({ allocOK := false } : Params).allocOK = false := rfl
/-- A running state with the invariant, whose step answers a next state. -/
theorem witness_StepKeepsInvariant :
    (load [0xB0, 0x01]).Inv ∧ (nextOf (step (load [0xB0, 0x01]))).isSome = true :=
  ⟨⟨by decide, by decide, by decide, by decide, fun _ => by decide, fun _ => by decide,
    fun _ h => by cases h⟩, by decide⟩
theorem witness_RegionQueriesAndDump : 0xFFFFF ≤ State.reset.highestAddress := by decide
theorem witness_SafeRun : SafeRun 1 (load [0xB0, 0x01]) := by
  refine .inr ⟨_, rfl, fun v h => ?_, trivial⟩
  exact absurd (h.symm.trans (show _ = Status.haltedEndOfCode by decide)) (by simp)

end Sys2Proof.Tests
end

section
/-! PROOFS. The statements about the register file and the trace (10_state.md): the slots at reset, the
aliasing of word and byte halves, and that the trace is output alone. -/

namespace Sys2Proof.Machine

/-! ## The register file -/

/-- Reset zeroes the register file whether or not allocation succeeds (10_state.md R30). -/
@[simp] theorem State.resetWith_regs (p : Params) : (State.resetWith p).regs = {} := by
  unfold State.resetWith
  split <;> rfl

/-- Settles O51: both branches of the reset sequence start from the zeroed register file. -/
theorem allRegistersZeroAtReset : Obligations.AllRegistersZeroAtReset :=
  fun p i => State.readWord_of_zero (State.resetWith_regs p) i

/-- Settles O11: a word is its two halves in the order of 10_state.md R15 (D2: half 0 is the low byte),
and a write to a slot touches that slot's cell alone. -/
theorem registerHalvesAlias : Obligations.RegisterHalvesAlias := by
  unfold Obligations.RegisterHalvesAlias
  intro s i v b
  refine ⟨State.readWord_writeWord_same s i v, ?_, ?_, ?_, ?_, fun j hj h =>
    ⟨State.readWord_writeWord_ne s v hj, State.readWord_writeByte_ne s h b hj⟩⟩
  · rw [State.readWord_writeByte_lo, toNat_wordOf, toNat_hiByte]
  · rw [State.readWord_writeByte_hi, toNat_wordOf, toNat_loByte]
  · rw [State.readByte_lo, toNat_loByte]
  · rw [State.readByte_hi, toNat_hiByte]

/-! ## The step, from its answer

`stepWith_next` reads a next state off; these are its converses, and the other two answers. -/

theorem stepWith_decodeError {D : Decoder} {s : State} (hs : stopReason s = none)
    (hd : D s.ip (codeAt s) = none) : stepWith D s = .next (takeDecodeError s) := by
  simp [stepWith, hs, hd]

theorem stepWith_record {D : Decoder} {s : State} {r : Record} (hs : stopReason s = none)
    (hd : D s.ip (codeAt s) = some r) : stepWith D s = runRecord r s := by
  simp [stepWith, hs, hd]

/-- A step faults exactly when no step may be taken (40_execution_cycle.md R95). -/
theorem stepWith_fault_iff {D : Decoder} {s : State} {f : Fault} :
    stepWith D s = .fault f ↔ stopReason s = some f := by
  cases hs : stopReason s with
  | some g => simp [stepWith, hs]
  | none =>
    cases hd : D s.ip (codeAt s) with
    | none => simp [stepWith_decodeError hs hd]
    | some r => cases hw : r.firstFailingCheck <;> simp [stepWith_record hs hd, runRecord, hw]

/-- A step is refused exactly for an ill-formed record (30_encoding.md R69). -/
theorem stepWith_refused_iff {D : Decoder} {s : State} {e : Refusal} :
    stepWith D s = .refused e ↔ stopReason s = none ∧
      ∃ r c, D s.ip (codeAt s) = some r ∧ r.firstFailingCheck = some c ∧ e = .illFormed c := by
  cases hs : stopReason s with
  | some g => simp [stepWith, hs]
  | none =>
    cases hd : D s.ip (codeAt s) with
    | none => simp [stepWith_decodeError hs hd]
    | some r =>
      cases hw : r.firstFailingCheck <;> simp [stepWith_record hs hd, runRecord, hw, eq_comm]

/-! ## Replacing the trace -/

/-- The state with another trace: what 10_state.md R28 says execution does not see. -/
def State.withTrace (s : State) (tr : List Event) : State := { s with trace := tr }

@[simp] theorem State.withTrace_self (s : State) : s.withTrace s.trace = s := rfl
@[simp] theorem State.flags_withTrace (s : State) (tr : List Event) :
    (s.withTrace tr).flags = s.flags := rfl
@[simp] theorem State.readWord_withTrace (s : State) (tr : List Event) (i : Slot) :
    (s.withTrace tr).readWord i = s.readWord i := rfl
@[simp] theorem State.ip_withTrace (s : State) (tr : List Event) : (s.withTrace tr).ip = s.ip := rfl
@[simp] theorem State.cfg_withTrace (s : State) (tr : List Event) : (s.withTrace tr).cfg = s.cfg := rfl
@[simp] theorem codeAt_withTrace (s : State) (tr : List Event) :
    codeAt (s.withTrace tr) = codeAt s := rfl
@[simp] theorem stopReason_withTrace (s : State) (tr : List Event) :
    stopReason (s.withTrace tr) = stopReason s := rfl

/-! What an operand stands for and holds does not depend on it. -/

@[simp] theorem resolve_withTrace (w : Width) (o : Operand) (s : State) (tr : List Event) :
    resolve w o (s.withTrace tr) = resolve w o s :=
  resolve_congr w o fun _ _ _ _ _ _ _ => rfl

@[simp] theorem readLoc_withTrace (l : Loc) (s : State) (tr : List Event) :
    readLoc l (s.withTrace tr) = readLoc l s :=
  readLoc_congr l rfl rfl fun _ _ => rfl

@[simp] theorem addAcc_withTrace (w : Width) (dst src : Operand) (s : State) (tr : List Event) :
    addAcc w dst src (s.withTrace tr) = addAcc w dst src s := by
  simp only [addAcc, widen, resolve_withTrace, readLoc_withTrace]

@[simp] theorem subAcc_withTrace (w : Width) (dst src : Operand) (s : State) (tr : List Event) :
    subAcc w dst src (s.withTrace tr) = subAcc w dst src s := by
  simp only [subAcc, widen, resolve_withTrace, readLoc_withTrace]

/-! The operations that write no event commute with it. -/

theorem State.writeWord_withTrace (s : State) (tr : List Event) (i : Slot) (v : Word) :
    (s.withTrace tr).writeWord i v = (s.writeWord i v).withTrace tr := rfl

theorem State.setFlags_withTrace (s : State) (tr : List Event) (f : Flags) :
    (s.withTrace tr).setFlags f = (s.setFlags f).withTrace tr := rfl

theorem branchTo_withTrace (rel : Int) (s : State) (tr : List Event) :
    branchTo rel (s.withTrace tr) = (branchTo rel s).withTrace tr := rfl

theorem writeLoc_withTrace (l : Loc) (v : Word) (s : State) (tr : List Event) :
    writeLoc l v (s.withTrace tr) = (writeLoc l v s).withTrace tr := by
  rcases l with ⟨i, off, _ | _⟩ | ⟨a, _ | _⟩ | _ <;> rfl

theorem endTest_withTrace (s : State) (tr : List Event) :
    endTest (s.withTrace tr) = (endTest s).withTrace tr := by
  by_cases h : s.cfg.endLimit ≤ s.ip.toNat
  · simp only [endTest, State.cfg_withTrace, State.ip_withTrace, h, if_true]
    rfl
  · simp only [endTest, State.cfg_withTrace, State.ip_withTrace, h, if_false]

theorem movBody_withTrace (w : Width) (dst src : Operand) (s : State) (tr : List Event) :
    movBody w dst src (s.withTrace tr) = (movBody w dst src s).withTrace tr := by
  simp only [movBody, resolve_withTrace, readLoc_withTrace, writeLoc_withTrace]

theorem jeBody_withTrace (rel : Int) (s : State) (tr : List Event) :
    jeBody rel (s.withTrace tr) = (jeBody rel s).withTrace tr := by
  by_cases h : s.flags.zf = true <;> simp [jeBody, h, branchTo_withTrace]

theorem jneBody_withTrace (rel : Int) (s : State) (tr : List Event) :
    jneBody rel (s.withTrace tr) = (jneBody rel s).withTrace tr := by
  by_cases h : s.flags.zf = true <;> simp [jneBody, h, branchTo_withTrace]

theorem loopBody_withTrace (rel : Int) (s : State) (tr : List Event) :
    loopBody rel (s.withTrace tr) = (loopBody rel s).withTrace tr := by
  by_cases h : (s.writeWord .c (s.readWord .c - 1)).readWord .c = 0 <;>
    simp only [loopBody, State.readWord_withTrace, State.writeWord_withTrace, branchTo_withTrace, h,
      if_true, if_false]

/-! ## Appending to the trace -/

/-- At `s` the operation appends events that, like all else it does, do not depend on the trace it finds
(10_state.md R28). -/
def AppendsEvents (f : State → State) (s : State) : Prop :=
  ∃ ev, ∀ tr, f (s.withTrace tr) = (f s).withTrace (tr ++ ev)

namespace AppendsEvents

/-- An operation that commutes with replacing the trace appends nothing. -/
theorem of_commutes {f : State → State} {s : State}
    (h : ∀ tr, f (s.withTrace tr) = (f s).withTrace tr) : AppendsEvents f s :=
  ⟨[], fun tr => by rw [h, List.append_nil]⟩

theorem emit (e : Event) (s : State) : AppendsEvents (·.emit e) s := ⟨[e], fun _ => rfl⟩

theorem comp {f g : State → State} {s : State} (hg : AppendsEvents g (f s))
    (hf : AppendsEvents f s) : AppendsEvents (g ∘ f) s := by
  obtain ⟨ev, hf⟩ := hf
  obtain ⟨ev', hg⟩ := hg
  exact ⟨ev ++ ev', fun tr => by simp only [Function.comp_apply, hf, hg, List.append_assoc]⟩

/-- Operations that agree at the state, whatever its trace, append the same events. -/
theorem congr {f g : State → State} {s : State} (hg : AppendsEvents g s)
    (h : ∀ tr, f (s.withTrace tr) = g (s.withTrace tr)) : AppendsEvents f s := by
  obtain ⟨ev, hg⟩ := hg
  have hs : f s = g s := h s.trace
  exact ⟨ev, fun tr => by rw [h, hg, hs]⟩

end AppendsEvents

/-! Each operation of a step. -/

theorem emitDelta_appendsEvents (before after : Flags) (s : State) :
    AppendsEvents (emitDelta before after) s := by
  unfold emitDelta
  by_cases h : before = after
  · simp only [h, if_true]
    exact AppendsEvents.of_commutes fun _ => rfl
  · simp only [h, if_false]
    exact AppendsEvents.emit _ s

/-- The flags before are read off their slot, so only the delta event touches the trace
(42_arithmetic.md R105, R108). -/
theorem arithStore_appendsEvents (acc : Acc) (l : Loc) (s : State) :
    AppendsEvents (arithStore acc l) s := by
  obtain ⟨ev, hdelta⟩ := emitDelta_appendsEvents s.flags (computeFlags (acc.setWidth 16))
    (writeLoc l (acc.setWidth 16) (s.setFlags (computeFlags (acc.setWidth 16))))
  exact ⟨ev, fun tr => by
    simp only [arithStore, State.flags_withTrace, State.setFlags_withTrace,
      writeLoc_withTrace, hdelta]⟩

theorem arithFlags_appendsEvents (acc : Acc) (s : State) : AppendsEvents (arithFlags acc) s := by
  obtain ⟨ev, hdelta⟩ := emitDelta_appendsEvents s.flags (computeFlags (acc.setWidth 16))
    (s.setFlags (computeFlags (acc.setWidth 16)))
  exact ⟨ev, fun tr => by
    simp only [arithFlags, State.flags_withTrace, State.setFlags_withTrace, hdelta]⟩

/-- The accumulator and the destination are read off slots and memory. -/
theorem addBody_appendsEvents (w : Width) (dst src : Operand) (s : State) :
    AppendsEvents (addBody w dst src) s :=
  AppendsEvents.congr (arithStore_appendsEvents (addAcc w dst src s) (resolve w dst s) s) fun tr => by
    simp only [addBody, addAcc_withTrace, resolve_withTrace]

theorem subBody_appendsEvents (w : Width) (dst src : Operand) (s : State) :
    AppendsEvents (subBody w dst src) s :=
  AppendsEvents.congr (arithStore_appendsEvents (subAcc w dst src s) (resolve w dst s) s) fun tr => by
    simp only [subBody, subAcc_withTrace, resolve_withTrace]

theorem cmpBody_appendsEvents (w : Width) (dst src : Operand) (s : State) :
    AppendsEvents (cmpBody w dst src) s :=
  AppendsEvents.congr (arithFlags_appendsEvents (subAcc w dst src s) s) fun tr => by
    simp only [cmpBody, subAcc_withTrace]

theorem recordBody_appendsEvents (r : Record) (s : State) : AppendsEvents (recordBody r) s := by
  unfold recordBody
  cases r.op with
  | mov => exact AppendsEvents.of_commutes (movBody_withTrace _ _ _ s)
  | add => exact addBody_appendsEvents _ _ _ s
  | sub => exact subBody_appendsEvents _ _ _ s
  | cmp => exact cmpBody_appendsEvents _ _ _ s
  | je => exact AppendsEvents.of_commutes (jeBody_withTrace _ s)
  | jne => exact AppendsEvents.of_commutes (jneBody_withTrace _ s)
  | loop => exact AppendsEvents.of_commutes (loopBody_withTrace _ s)
  | other n => exact AppendsEvents.emit _ s

theorem begin_appendsEvents (r : Record) (s : State) : AppendsEvents (begin r) s :=
  ⟨[.exec r], fun _ => rfl⟩

theorem complete_appendsEvents (r : Record) (s : State) :
    AppendsEvents (complete r (recordBody r)) s :=
  AppendsEvents.comp (f := recordBody r ∘ begin r) (AppendsEvents.of_commutes (endTest_withTrace _))
    (AppendsEvents.comp (recordBody_appendsEvents r _) (begin_appendsEvents r s))

theorem takeDecodeError_appendsEvents (s : State) : AppendsEvents takeDecodeError s :=
  ⟨[.decodeError s.ip], fun _ => rfl⟩

/-- A step that answers a next state answers it under every trace, with the same events appended. -/
theorem stepWith_next_withTrace {D : Decoder} {s t : State} (h : stepWith D s = .next t) :
    ∃ ev, ∀ tr, stepWith D (s.withTrace tr) = .next (t.withTrace (tr ++ ev)) := by
  obtain ⟨hrun, hvalid, hcases⟩ := stepWith_next h
  have hs : stopReason s = none := stopReason_none.2 ⟨hrun, hvalid⟩
  obtain ⟨hd, rfl⟩ | ⟨r, hd, hw, rfl⟩ := hcases
  · obtain ⟨ev, hev⟩ := takeDecodeError_appendsEvents s
    exact ⟨ev, fun tr => by rw [stepWith_decodeError (s := s.withTrace tr) hs hd, hev]⟩
  · obtain ⟨ev, hev⟩ := complete_appendsEvents r s
    exact ⟨ev, fun tr => by rw [stepWith_record (s := s.withTrace tr) hs hd, runRecord_wf hw, hev]⟩

theorem stepWith_fault_withTrace {D : Decoder} {s : State} {f : Fault} (h : stepWith D s = .fault f)
    (tr : List Event) : stepWith D (s.withTrace tr) = .fault f := by
  rw [stepWith_fault_iff, stopReason_withTrace]
  exact stepWith_fault_iff.1 h

theorem stepWith_refused_withTrace {D : Decoder} {s : State} {e : Refusal}
    (h : stepWith D s = .refused e) (tr : List Event) : stepWith D (s.withTrace tr) = .refused e := by
  rw [stepWith_refused_iff, stopReason_withTrace, State.ip_withTrace, codeAt_withTrace]
  exact stepWith_refused_iff.1 h

/-- Settles O50: a next state by `stepWith_next_withTrace`, whose events are read off at the state's own
trace; a fault and a refusal depend on the status, the validity flag and the decoded record alone. -/
theorem traceNeverFeedsBack : Obligations.TraceNeverFeedsBack := by
  unfold Obligations.TraceNeverFeedsBack
  intro D s tr
  refine ⟨fun t ht => ?_, fun f hf => stepWith_fault_withTrace hf tr,
    fun e he => stepWith_refused_withTrace he tr⟩
  obtain ⟨ev, hev⟩ := stepWith_next_withTrace ht
  have hself : t = t.withTrace (s.trace ++ ev) := by
    have h := hev s.trace
    rw [State.withTrace_self, ht] at h
    exact Host.Outcome.next.inj h
  exact ⟨_, ev, hev tr, congrArg State.trace hself, rfl⟩

end Sys2Proof.Machine
end

section
/-! PROOFS. The statement about a decode failure in the execution cycle (40_execution_cycle.md R90). -/

namespace Sys2Proof.Machine

/-- `stepWith_decodeError` for the step over instructions. -/
theorem step_decodeError {s : State} (hs : stopReason s = none) (hd : decode (fetch s) = none) :
    step s = .next (takeDecodeError s) := by
  simp [step, hs, hd]

/-- Everything in the state after a decode failure: the status and the trace record it, and the registers
(`ip` and the flags among them), memory, validity and configuration are kept. -/
theorem takeDecodeError_fields (s : State) :
    (takeDecodeError s).status = .haltedDecodeError s.ip ∧
      (takeDecodeError s).trace = s.trace ++ [.decodeError s.ip] ∧
      (takeDecodeError s).regs = s.regs ∧ (takeDecodeError s).mem = s.mem ∧
      (takeDecodeError s).memValid = s.memValid ∧ (takeDecodeError s).cfg = s.cfg :=
  ⟨takeDecodeError_status s, takeDecodeError_trace s, takeDecodeError_regs s, takeDecodeError_mem s,
    takeDecodeError_memValid s, takeDecodeError_cfg s⟩

/-- Settles O41: a running machine with valid memory is not stopped, so under any decoder and under RD the
failure is taken by `takeDecodeError`, whose fields are those R90 names. -/
theorem decodeFailureHalts : Obligations.DecodeFailureHalts := by
  unfold Obligations.DecodeFailureHalts
  intro s hrun hvalid
  have hs : stopReason s = none := stopReason_none.2 ⟨hrun, hvalid⟩
  exact ⟨fun D hd => ⟨_, stepWith_decodeError hs hd, takeDecodeError_fields s⟩,
    fun hd => ⟨_, step_decodeError hs hd, takeDecodeError_fields s⟩⟩

end Sys2Proof.Machine
end

section
/-! PROOFS. The statement about the flags engine (42_arithmetic.md R102). -/

namespace Sys2Proof.Machine

theorem length_filter_eq_sum_toNat {α : Type*} (p : α → Bool) (l : List α) :
    (l.filter p).length = (l.map fun x => (p x).toNat).sum := by
  induction l with
  | nil => rfl
  | cons x l ih => cases hp : p x <;> simp [hp, ih, Nat.add_comm]

/-- A byte's 1 bits, counted as the binary digits of its value. -/
theorem popcount_eq_sum_digits (b : Byte) :
    popcount b = ((List.range 8).map fun k => b.toNat / 2 ^ k % 2).sum := by
  unfold popcount
  simp only [length_filter_eq_sum_toNat, ← BitVec.testBit_toNat, Nat.toNat_testBit]

/-- The bit test of Parity (R102) is the statements' own count. -/
theorem popcount_even (b : Byte) : (popcount b % 2 == 0) = evenOnes b.toNat := by
  rw [popcount_eq_sum_digits, evenOnes]

theorem word_beq_zero (v : Word) : (v == 0) = decide (v.toNat = 0) := by
  rw [Bool.beq_eq_decide_eq, decide_eq_decide]
  exact BitVec.toNat_eq

theorem word_getLsbD_15 (v : Word) : v.getLsbD 15 = decide (32768 ≤ v.toNat) :=
  v.msb_eq_getLsbD_last.symm.trans v.msb_eq_decide

/-- Settles O30, flag by flag: Parity counts the 1 bits of the low byte, whose value is the word's
modulo 256; Zero and Sign are read off the word's value. -/
theorem computeFlagsOfWord : Obligations.ComputeFlagsOfWord := by
  unfold Obligations.ComputeFlagsOfWord
  intro v
  rw [computeFlags, popcount_even, toNat_loByte, word_beq_zero, word_getLsbD_15]

end Sys2Proof.Machine
end

section
/-! PROOFS. The statements about control transfer (43_control_transfer.md): JE and JNE (R111, R112), and
the two places where the instruction pointer changes (R115). -/

namespace Sys2Proof.Machine

/-! ## The branch bodies -/

theorem jeBody_ip (rel : Int) (s : State) :
    (jeBody rel s).ip = if s.flags.zf then s.ip + BitVec.ofInt 16 rel else s.ip := by
  rw [jeBody, apply_ite State.ip, branchTo_ip]

theorem jneBody_ip (rel : Int) (s : State) :
    (jneBody rel s).ip = if s.flags.zf then s.ip else s.ip + BitVec.ofInt 16 rel := by
  rw [jneBody, apply_ite State.ip, branchTo_ip]

theorem loopBody_ip (rel : Int) (s : State) :
    (loopBody rel s).ip = if s.readWord .c - 1 = 0 then s.ip else s.ip + BitVec.ofInt 16 rel := by
  have hdec : (s.writeWord .c (s.readWord .c - 1)).ip = s.ip :=
    State.readWord_writeWord_ne s _ (by decide)
  simp only [loopBody, apply_ite State.ip, branchTo_ip, State.readWord_writeWord_same, hdec]

/-! ## A completed branch -/

/-- A completed record ends where its body leaves `ip`, which starts past the instruction. -/
theorem complete_ip (r : Record) (body : State → State) (s : State) :
    (complete r body s).ip = (body (begin r s)).ip :=
  complete_readWord s body .ip

section
variable {r : Record} (h : r.firstFailingCheck = none)
  (hop : r.op ∈ ([.je, .jne, .loop] : List OpKind)) (s : State)
include hop

theorem op_eq_of_branch : r.op = .je ∨ r.op = .jne ∨ r.op = .loop := by
  simpa using hop

/-- A branch leaves `ip` past the instruction or moves it from there by the operand's value (R110). -/
theorem complete_ip_branch :
    (complete r (recordBody r) s).ip = s.ip + BitVec.ofNat 16 r.length ∨
      (complete r (recordBody r) s).ip =
        s.ip + BitVec.ofNat 16 r.length + BitVec.ofInt 16 (relOf (r.operand 0)) := by
  rw [complete_ip, ← begin_ip, recordBody]
  obtain hop | hop | hop := op_eq_of_branch hop
  · simp only [hop, jeBody_ip]
    exact (ite_eq_or_eq _ _ _).symm
  · simp only [hop, jneBody_ip]
    exact ite_eq_or_eq _ _ _
  · simp only [hop, loopBody_ip]
    exact ite_eq_or_eq _ _ _

include h

/-- A branch is none of the kinds that write the FLAGS slot or a destination. -/
theorem complete_flagsWord_branch :
    (complete r (recordBody r) s).readWord .flags = s.readWord .flags := by
  obtain hop | hop | hop := op_eq_of_branch hop <;>
    exact complete_readWord_ne h s (by decide) (by simp [hop]) (by simp [hop]) (by simp)

/-- WF1 gives a branch one operand, an immediate (30_encoding.md R68): its other shapes are those of other
kinds. -/
theorem operand_of_branch : ∃ v, r.operand 0 = .imm v := by
  have hshape : r.shapeOk = true := passes_of_wf h (fun n hn => by simp [hn] at hop) .wf1
  have himm : ∃ x, r.operands = [x] ∧ x.isImm = true := by
    unfold Record.shapeOk at hshape
    split at hshape <;> simp_all
  obtain ⟨x, hx, hi⟩ := himm
  cases x with
  | imm v => exact ⟨v, by simp [Record.operand, hx]⟩
  | _ => cases hi

end

/-! ## JE and JNE -/

theorem decode_je (rel : Byte) : decode [0x74, rel] = some (.je rel) := by
  have hrow : (rowOf 0x74 rel).map Row.form = some .je := by
    simp [rowOf, rows, movRows, arithRows, branchRows, Row.accepts]
  rw [decode, decodeRest_of_row hrow, decodeForm, takeByte, Option.map_some, Option.map_some]

theorem decode_jne (rel : Byte) : decode [0x75, rel] = some (.jne rel) := by
  have hrow : (rowOf 0x75 rel).map Row.form = some .jne := by
    simp [rowOf, rows, movRows, arithRows, branchRows, Row.accepts]
  rw [decode, decodeRest_of_row hrow, decodeForm, takeByte, Option.map_some, Option.map_some]

theorem complete_je_ip (rel : Byte) (s : State) :
    (complete (relRecord .je rel) (jeBody (sint8 rel)) s).ip =
      if s.flags.zf then s.ip + 2 + BitVec.signExtend 16 rel else s.ip + 2 := by
  rw [complete_ip, jeBody_ip, begin_flags, begin_ip]
  rfl

theorem complete_jne_ip (rel : Byte) (s : State) :
    (complete (relRecord .jne rel) (jneBody (sint8 rel)) s).ip =
      if s.flags.zf then s.ip + 2 else s.ip + 2 + BitVec.signExtend 16 rel := by
  rw [complete_ip, jneBody_ip, begin_flags, begin_ip]
  rfl

/-- Settles O32: each branch completes as its body leaves it, and the displacement, the byte's signed
value reduced to a word, is its sign extension. -/
theorem conditionalBranches : Obligations.ConditionalBranches := by
  unfold Obligations.ConditionalBranches
  intro rel s
  exact ⟨⟨decode_je rel, _, exec_eq (.je rel) s,
      complete_flagsWord_branch (toRecord_wf (.je rel)) (by simp [Instr.toRecord, relRecord]) s,
      complete_je_ip rel s⟩,
    decode_jne rel, _, exec_eq (.jne rel) s,
      complete_flagsWord_branch (toRecord_wf (.jne rel)) (by simp [Instr.toRecord, relRecord]) s,
      complete_jne_ip rel s⟩

/-! ## Where the instruction pointer changes -/

/-- A term access of a record comes from a memory operand's term that names a register. -/
theorem exists_term_of_mem_termAccesses {r : Record} {a : RegAccess} (ha : a ∈ r.termAccesses) :
    ∃ k ts d g, r.operand k = .mem ts d g ∧ a.slot ≠ .none ∧ ∃ t ∈ ts, t.reg = a := by
  obtain ⟨o, ho, ha⟩ := List.mem_flatMap.1 ha
  obtain ⟨k, hk, rfl⟩ := List.mem_iff_getElem.1 ho
  cases hm : r.operands[k] with
  | mem ts d g =>
    rw [hm] at ha
    obtain ⟨ht, hn⟩ := List.mem_filter.1 ha
    exact ⟨k, ts, d, g, by simp [Record.operand, hk, hm], by simpa using hn, List.mem_map.1 ht⟩
  | _ => simp [hm] at ha

/-- Every access of a well-formed record of the seven kinds names one of the slots 1 to 12 (WF2, WF7). -/
theorem access_isOperand {r : Record} (h : r.firstFailingCheck = none) (hk : ∀ n, r.op ≠ .other n)
    {a : RegAccess} (ha : a ∈ r.regOperands ++ r.termAccesses) : a.slot.isOperand = true := by
  obtain ha | ha := List.mem_append.1 ha
  · exact List.all_eq_true.1 (passes_of_wf h hk .wf2) a ha
  · obtain ⟨k, ts, d, g, ho, hn, t, ht, rfl⟩ := exists_term_of_mem_termAccesses ha
    exact (term_slot h hk ho ht).resolve_left hn

/-- The address after a completed record: the next instruction's, or a branch's target (R115). -/
theorem complete_ip_next_or_target {r : Record} (h : r.firstFailingCheck = none) (s : State) :
    let next := s.ip + BitVec.ofNat 16 r.length
    (complete r (recordBody r) s).ip = next ∨
      ∃ v, r.op ∈ ([.je, .jne, .loop] : List OpKind) ∧ r.operand 0 = .imm v ∧
        (complete r (recordBody r) s).ip = next + BitVec.ofInt 16 v := by
  by_cases hop : r.op ∈ ([.je, .jne, .loop] : List OpKind)
  · obtain ⟨v, hv⟩ := operand_of_branch h hop
    refine (complete_ip_branch hop s).imp_right fun htarget => ⟨v, hop, hv, ?_⟩
    rwa [hv] at htarget
  · exact .inl (complete_ip_seq h s hop)

/-- Settles O44: a decode error keeps the slots, a completed record leaves `ip` as
`complete_ip_next_or_target` says, and the slots 1 to 12 do not contain IP. -/
theorem ipChangesInTwoPlaces : Obligations.IpChangesInTwoPlaces := by
  unfold Obligations.IpChangesInTwoPlaces
  intro D s t ht
  obtain ⟨-, -, ⟨hd, rfl⟩ | ⟨r, hd, hwf, rfl⟩⟩ := stepWith_next ht
  · exact ⟨fun _ => takeDecodeError_readWord s .ip, fun r hr => by simp [hd] at hr⟩
  · refine ⟨fun hn => by simp [hd] at hn, fun r' hr => ?_⟩
    obtain rfl : r = r' := Option.some.inj (hd.symm.trans hr)
    exact ⟨complete_ip_next_or_target hwf s, fun hk a ha =>
      (isOperand_ne (access_isOperand hwf hk ha)).2.1⟩

end Sys2Proof.Machine
end

section
/-! PROOFS. The checks of decoded records (30_encoding.md R68, R69), read off the record. -/

namespace Sys2Proof

/-! ## Each check (R68) -/

theorem Operand.isRegOrMem_iff {o : Operand} :
    o.isRegOrMem = true ↔ (∃ a, o = .reg a) ∨ ∃ ts x g, o = .mem ts x g := by
  cases o <;> simp [Operand.isRegOrMem]

theorem Operand.isSource_iff {o : Operand} :
    o.isSource = true ↔ (∃ a, o = .reg a) ∨ (∃ ts x g, o = .mem ts x g) ∨ ∃ v, o = .imm v := by
  cases o <;> simp [Operand.isSource]

theorem Operand.isImm_iff {o : Operand} : o.isImm = true ↔ ∃ v, o = .imm v := by
  cases o <;> simp [Operand.isImm]

theorem Record.mem_regOperands {r : Record} {a : RegAccess} : a ∈ r.regOperands ↔ .reg a ∈ r.operands := by
  refine List.mem_filterMap.trans ⟨fun ⟨o, ho, hoa⟩ => ?_, fun h => ⟨_, h, rfl⟩⟩
  cases o with
  | reg b => exact Option.some.inj hoa ▸ ho
  | _ => cases hoa

/-- WF1 (R68). -/
theorem Record.shapeOk_iff {r : Record} (hk : ∀ n, r.op ≠ .other n) :
    r.shapeOk = true ↔
      (r.op ∈ ([.mov, .add, .sub, .cmp] : List OpKind) ∧
        ∃ d s, r.operands = [d, s] ∧ d.isRegOrMem = true ∧ s.isSource = true) ∨
      (r.op ∈ ([.je, .jne, .loop] : List OpKind) ∧ ∃ v, r.operands = [.imm v]) := by
  unfold Record.shapeOk
  cases hop : r.op with
  | other n => exact absurd hop (hk n)
  | _ =>
    generalize r.operands = l
    rcases l with _ | ⟨d, _ | ⟨s, _ | _⟩⟩ <;> simp [Operand.isImm_iff]

/-- WF2 to WF4 for one access that names a slot of 1 to 12 (R68). -/
def RegAccess.Ok (a : RegAccess) : Prop :=
  1 ≤ a.slot.index ∧ a.slot.index ≤ 12 ∧ (a.count = .byte → a.slot.index ≤ 4) ∧
    (a.count = .word → a.offset = 0)

theorem RegAccess.ok_iff {a : RegAccess} :
    a.Ok ↔ a.slot.isOperand = true ∧ a.byteOk = true ∧ a.rangeOk = true := by
  obtain ⟨i, off, cnt⟩ := a
  cases cnt <;> simp [RegAccess.Ok, Slot.isOperand, RegAccess.byteOk, RegAccess.rangeOk, Slot.hasBytes] <;>
    omega

/-- WF7 (R68). -/
theorem Operand.termsOk_mem {ts : List Term} {x : Int} {g : Option Slot} :
    (Operand.mem ts x g).termsOk = true ↔
      ts.length ≤ 2 ∧ ∀ t ∈ ts, t.reg.slot = .none ∨ t.reg.Ok := by
  simp only [Operand.termsOk, Bool.and_eq_true, decide_eq_true_eq, List.all_eq_true, Bool.or_eq_true,
    beq_iff_eq, RegAccess.ok_iff, and_assoc]

theorem Record.termsOk_iff {r : Record} :
    r.operands.all Operand.termsOk = true ↔ ∀ ts x g, .mem ts x g ∈ r.operands →
      ts.length ≤ 2 ∧ ∀ t ∈ ts, t.reg.slot = .none ∨ t.reg.Ok := by
  rw [List.all_eq_true]
  refine ⟨fun h ts x g ho => Operand.termsOk_mem.1 (h _ ho), fun h o ho => ?_⟩
  cases o with
  | mem ts x g => exact Operand.termsOk_mem.2 (h ts x g ho)
  | _ => rfl

/-! ## The first failing check (R68, R69) -/

/-- A record of the seven kinds is well-formed when it passes all eight checks (R68). -/
theorem firstFailingCheck_none_iff {r : Record} (hk : ∀ n, r.op ≠ .other n) :
    r.firstFailingCheck = none ↔ ∀ c, r.passes c = true :=
  ⟨fun h c => Machine.passes_of_wf h hk c, Laws.RecordWf.of_passes⟩

/-- `Other` records are checked by WF8 alone (R68). -/
theorem firstFailingCheck_other {r : Record} {n : String} (hop : r.op = .other n) :
    r.firstFailingCheck = none ↔ 1 ≤ r.length := by
  simp [Record.firstFailingCheck, hop, OpKind.checks, Record.passes, Nat.one_le_iff_ne_zero]

theorem OpKind.isTwoOperand_iff {op : OpKind} :
    op.isTwoOperand = true ↔ op ∈ ([.mov, .add, .sub, .cmp] : List OpKind) := by
  cases op <;> simp [OpKind.isTwoOperand]

theorem OpKind.isTwoOperand_of_branch {op : OpKind} (h : op ∈ ([.je, .jne, .loop] : List OpKind)) :
    op.isTwoOperand = false := by
  cases op <;> simp_all [OpKind.isTwoOperand]

/-- WF5 (R68). -/
theorem Record.passes_wf5_iff {r : Record} : r.passes .wf5 = true ↔
    (r.op.isTwoOperand = true → ∀ a, .reg a ∈ r.operands → a.count = r.width) := by
  simp only [Record.passes, Bool.or_eq_true, Bool.not_eq_true', List.all_eq_true, beq_iff_eq,
    Record.mem_regOperands]
  cases r.op.isTwoOperand <;> simp

/-- The eight checks without what one of them says of another: WF1 gives WF6, and WF7 gives WF3 and WF4 of the
terms. -/
theorem firstFailingCheck_none_iff_parts {r : Record} (hk : ∀ n, r.op ≠ .other n) :
    r.firstFailingCheck = none ↔ r.passes .wf1 = true ∧ r.passes .wf5 = true ∧
      (∀ a, .reg a ∈ r.operands → a.Ok) ∧ r.passes .wf7 = true ∧ r.passes .wf8 = true := by
  rw [firstFailingCheck_none_iff hk]
  constructor
  · refine fun h => ⟨h .wf1, h .wf5, fun a ha => RegAccess.ok_iff.2 ?_, h .wf7, h .wf8⟩
    have hm := Record.mem_regOperands.2 ha
    exact ⟨List.all_eq_true.1 (h .wf2) a hm, List.all_eq_true.1 (h .wf3) a (List.mem_append_left _ hm),
      List.all_eq_true.1 (h .wf4) a (List.mem_append_left _ hm)⟩
  · intro ⟨h1, h5, hreg, h7, h8⟩
    have haccess : ∀ a ∈ r.regOperands ++ r.termAccesses, a.Ok := by
      intro a ha
      obtain ha | ha := List.mem_append.1 ha
      · exact hreg a (Record.mem_regOperands.1 ha)
      · obtain ⟨k, ts, x, g, ho, hn, t, ht, rfl⟩ := Machine.exists_term_of_mem_termAccesses ha
        have hmem : .mem ts x g ∈ r.operands := ho ▸ Machine.operand_mem (by simp [ho])
        exact ((Record.termsOk_iff.1 h7 ts x g hmem).2 t ht).resolve_left hn
    intro c
    cases c with
    | wf1 => exact h1
    | wf2 => exact List.all_eq_true.2 fun a ha =>
        (RegAccess.ok_iff.1 (haccess a (List.mem_append_left _ ha))).1
    | wf3 => exact List.all_eq_true.2 fun a ha => (RegAccess.ok_iff.1 (haccess a ha)).2.1
    | wf4 => exact List.all_eq_true.2 fun a ha => (RegAccess.ok_iff.1 (haccess a ha)).2.2
    | wf5 => exact h5
    | wf6 =>
      obtain ⟨-, d, s, hds, hd, -⟩ | ⟨hop, -⟩ := (Record.shapeOk_iff hk).1 h1
      · have hnot : d.isImm = false := by
          cases d <;> simp_all [Operand.isRegOrMem, Operand.isImm]
        simp [Record.passes, Record.operand, hds, hnot]
      · simp [Record.passes, OpKind.isTwoOperand_of_branch hop]
    | wf7 => exact h7
    | wf8 => exact h8

/-- Settles O49: WF1 and WF5 make the first part, WF2 to WF4 that on registers, WF7 that on terms. -/
theorem wellFormedRecordsMeetTheChecks : Obligations.WellFormedRecordsMeetTheChecks := by
  unfold Obligations.WellFormedRecordsMeetTheChecks
  refine ⟨fun r hk => ?_, fun r n hop => firstFailingCheck_other hop⟩
  have hshape := Record.shapeOk_iff hk
  rw [firstFailingCheck_none_iff_parts hk, Record.passes_wf5_iff, ← and_assoc]
  simp only [Record.passes, Record.termsOk_iff, decide_eq_true_eq, hshape, Operand.isRegOrMem_iff,
    Operand.isSource_iff]
  refine and_congr ⟨?_, ?_⟩ Iff.rfl
  · rintro ⟨⟨hop, d, s, hds, hd, hs⟩ | hbranch, hcount⟩
    · exact .inl ⟨hop, d, s, hds, hd, hs, hcount (OpKind.isTwoOperand_iff.2 hop)⟩
    · exact .inr hbranch
  · rintro (⟨hop, d, s, hds, hd, hs, hcount⟩ | ⟨hop, hbranch⟩)
    · exact ⟨.inl ⟨hop, d, s, hds, hd, hs⟩, fun _ => hcount⟩
    · exact ⟨.inr ⟨hop, hbranch⟩, fun h => by simp [OpKind.isTwoOperand_of_branch hop] at h⟩

/-- A failing WF3 is named unless WF1 or WF2 fails before it (R68). -/
theorem firstFailingCheck_of_not_wf3 {r : Record} (hk : ∀ n, r.op ≠ .other n) (h3 : r.passes .wf3 = false) :
    ∃ c ∈ ([.wf1, .wf2, .wf3] : List WfCheck), r.firstFailingCheck = some c := by
  have hall : r.op.checks = [.wf1, .wf2, .wf3, .wf4, .wf5, .wf6, .wf7, .wf8] := by
    cases hop : r.op with
    | other n => exact absurd hop (hk n)
    | _ => rfl
  rw [Record.firstFailingCheck, hall]
  cases h1 : r.passes .wf1 with
  | false => exact ⟨.wf1, by simp, by simp [h1]⟩
  | true =>
    cases h2 : r.passes .wf2 with
    | false => exact ⟨.wf2, by simp, by simp [h1, h2]⟩
    | true => exact ⟨.wf3, by simp, by simp [h1, h2, h3]⟩

end Sys2Proof
end

section
/-! PROOFS. What a completed record leaves, by kind (40_execution_cycle.md R92, R93): the word it computes and
the flags; and what every step keeps, the state invariant and the configuration. -/

namespace Sys2Proof.Machine

/-! ## The operands of a well-formed record -/

section
variable {r : Record} (h : r.firstFailingCheck = none)
include h

/-- WF1: MOV, ADD, SUB and CMP have a destination and a source (30_encoding.md R68). -/
theorem operands_of_twoOperand (hop : r.op.isTwoOperand = true) :
    ∃ d s, r.operands = [d, s] ∧ d.isRegOrMem = true ∧ s.isSource = true := by
  have hk : ∀ n, r.op ≠ .other n := fun n hn => by simp [hn, OpKind.isTwoOperand] at hop
  obtain ⟨-, hshape⟩ | ⟨hbranch, -⟩ := (Record.shapeOk_iff hk).1 (passes_of_wf h hk .wf1)
  · exact hshape
  · simp [OpKind.isTwoOperand_of_branch hbranch] at hop

/-- The destination is no scratch cell. -/
theorem dst_ne_imm (hop : r.op.isTwoOperand = true) (s : State) (c : Word) (w : Width) :
    resolve r.width (r.operand 0) s ≠ .imm c w := by
  obtain ⟨d, x, hds, hd, -⟩ := operands_of_twoOperand h hop
  have h0 : r.operand 0 = d := by simp [Record.operand, hds]
  cases d <;> simp_all [Operand.isRegOrMem, resolve]

end

/-! ## The word a record computes -/

/-- What an operand reads as at the start of the step. -/
def operandValue (r : Record) (k : Nat) (s : State) : Word :=
  readLoc (resolve r.width (r.operand k) s) s

/-- The word that MOV, ADD and SUB write and that ADD, SUB and CMP take their flags from
(41_data_movement.md R100, 42_arithmetic.md R105 to R107). -/
def recordResult (r : Record) (s : State) : Word :=
  match r.op with
  | .mov => operandValue r 1 s
  | .add => operandValue r 0 s + operandValue r 1 s
  | _ => operandValue r 0 s - operandValue r 1 s

/-- The low word of the 32-bit sum is the sum of the words (42_arithmetic.md R105). -/
theorem addAcc_low (r : Record) (s : State) :
    (addAcc r.width (r.operand 0) (r.operand 1) s).setWidth 16 = operandValue r 0 s + operandValue r 1 s := by
  apply BitVec.eq_of_toNat_eq
  simp [addAcc, widen, operandValue]

theorem subAcc_low (r : Record) (s : State) :
    (subAcc r.width (r.operand 0) (r.operand 1) s).setWidth 16 = operandValue r 0 s - operandValue r 1 s := by
  simp only [subAcc, widen, operandValue]
  generalize readLoc _ s = a
  generalize readLoc _ s = b
  bv_omega

/-! ## The completed record, by kind -/

section
variable {r : Record} (h : r.firstFailingCheck = none) (s : State)
include h

theorem complete_mov (hop : r.op = .mov) :
    complete r (recordBody r) s =
      endTest (writeLoc (resolve r.width (r.operand 0) s) (recordResult r s) (begin r s)) := by
  simp only [complete, recordBody, hop, movBody_begin h (kind_of_op hop (by simp)), recordResult,
    operandValue]

/-- ADD and SUB set the flags, write the result and trace the delta (42_arithmetic.md R105, R106). -/
theorem complete_addSub (hop : r.op = .add ∨ r.op = .sub) :
    complete r (recordBody r) s =
      endTest (emitDelta s.flags (computeFlags (recordResult r s))
        (writeLoc (resolve r.width (r.operand 0) s) (recordResult r s)
          ((begin r s).setFlags (computeFlags (recordResult r s))))) := by
  obtain hop | hop := hop
  · simp only [complete, recordBody, hop, addBody_begin h (kind_of_op hop (by simp)), arithStore, addAcc_low,
      begin_flags, recordResult]
  · simp only [complete, recordBody, hop, subBody_begin h (kind_of_op hop (by simp)), arithStore, subAcc_low,
      begin_flags, recordResult]

theorem complete_cmp (hop : r.op = .cmp) :
    complete r (recordBody r) s =
      endTest (emitDelta s.flags (computeFlags (recordResult r s))
        ((begin r s).setFlags (computeFlags (recordResult r s)))) := by
  simp only [complete, recordBody, hop, cmpBody_begin h (kind_of_op hop (by simp)), arithFlags, subAcc_low,
    begin_flags, recordResult]

/-! ## The flags -/

/-- ADD, SUB and CMP replace the FLAGS slot by the flags of the result (42_arithmetic.md R103). -/
theorem complete_flagsWord_arith (hop : r.op ∈ ([.add, .sub, .cmp] : List OpKind)) :
    (complete r (recordBody r) s).readWord .flags = (computeFlags (recordResult r s)).toWord := by
  have hk : ∀ n, r.op ≠ .other n := fun n hn => by simp [hn] at hop
  obtain hop | hop | hop : r.op = .add ∨ r.op = .sub ∨ r.op = .cmp := by simpa using hop
  case inr.inr =>
    simp [complete_cmp h s hop, State.readWord_setFlags]
  all_goals
    rw [complete_addSub h s (by simp [hop]), endTest_readWord, emitDelta_readWord,
      writeLoc_flags (dst_inSlot_false h hk s 0 (by decide)), State.readWord_setFlags, if_pos rfl]

theorem complete_flags_arith (hop : r.op ∈ ([.add, .sub, .cmp] : List OpKind)) :
    (complete r (recordBody r) s).flags = computeFlags (recordResult r s) :=
  State.flags_of_word (complete_flagsWord_arith h s hop)

/-- Every other kind leaves the FLAGS slot (10_state.md R21). -/
theorem complete_flagsWord_kept (hop : r.op ∉ ([.add, .sub, .cmp] : List OpKind)) :
    (complete r (recordBody r) s).readWord .flags = s.readWord .flags :=
  complete_readWord_ne h s (by decide) (fun ha => absurd ha hop)
    (fun hm => dst_inSlot_false h (fun n hn => by simp [hn] at hm) s 0 (by decide)) (fun _ => by decide)

theorem complete_flags_kept (hop : r.op ∉ ([.add, .sub, .cmp] : List OpKind)) :
    (complete r (recordBody r) s).flags = s.flags :=
  State.flags_congr (complete_flagsWord_kept h s hop)

/-- The bits of FLAGS other than 2, 6 and 7 after ADD, SUB and CMP (10_state.md R20). -/
theorem complete_flagsReserved_arith (hop : r.op ∈ ([.add, .sub, .cmp] : List OpKind)) :
    (complete r (recordBody r) s).readWord .flags &&& 0xFF3B = 0 := by
  rw [complete_flagsWord_arith h s hop, Flags.toWord_reserved]

/-! ## The state invariant -/

/-- No record writes the slot NONE (10_state.md R23). -/
theorem complete_readWord_none : (complete r (recordBody r) s).readWord .none = s.readWord .none :=
  complete_readWord_ne h s (by decide) (fun _ => by decide)
    (fun hm => dst_inSlot_false h (fun n hn => by simp [hn] at hm) s 0 (by decide)) (fun _ => by decide)

/-- A completed record keeps the invariant: it halts when `ip` is past the limit, and never on a decode
error. -/
theorem complete_inv (hs : s.Inv) (hrun : s.status = .running) :
    (complete r (recordBody r) s).Inv := by
  obtain ⟨hvalid, hcfg, hstatus⟩ := complete_fixed r s
  obtain ⟨hwf, hbelow⟩ := complete_mem_kept r hs.memWf hs.memBelow
  rw [hrun] at hstatus
  refine ⟨hwf, ?_, ?_, ?_, fun _ => ?_, fun hr => ?_, fun v hv => ?_⟩
  · rwa [State.memSize_congr hcfg]
  · rw [complete_readWord_none h, hs.noneZero]
  · by_cases hop : r.op ∈ ([.add, .sub, .cmp] : List OpKind)
    · exact complete_flagsReserved_arith h s hop
    · rw [complete_flagsWord_kept h s hop, hs.flagsReserved]
  · rw [hvalid, hs.runningValid hrun]
  · rw [hcfg]
    by_contra hge
    rw [if_pos (Nat.le_of_not_lt hge), hr] at hstatus
    cases hstatus
  · rw [hv] at hstatus
    split at hstatus <;> cases hstatus

end

/-- A decode error keeps slots, memory and configuration, and its status records `ip`
(40_execution_cycle.md R90). -/
theorem takeDecodeError_inv {s : State} (hs : s.Inv) : (takeDecodeError s).Inv :=
  ⟨hs.memWf, hs.memBelow, hs.noneZero, hs.flagsReserved, nofun, nofun,
    fun _ hv => Status.haltedDecodeError.inj hv⟩

/-- Settles O57: a next state is a decode error's or a completed record's. -/
theorem anyDecoderKeepsInvariant : Obligations.AnyDecoderKeepsInvariant := by
  unfold Obligations.AnyDecoderKeepsInvariant
  intro D s t hs ht
  obtain ⟨hrun, -, ⟨-, rfl⟩ | ⟨r, -, hwf, rfl⟩⟩ := stepWith_next ht
  · exact takeDecodeError_inv hs
  · exact complete_inv hwf s hs hrun

/-! ## The step over instructions is the complete step under RD -/

/-- Settles O40: RD's record of an instruction is well-formed, and its completion is the instruction's
meaning (`exec_eq`). -/
theorem stepIsReferenceCycle : Obligations.StepIsReferenceCycle := by
  unfold Obligations.StepIsReferenceCycle
  intro s
  simp only [step, stepWith, rd_codeAt]
  cases stopReason s with
  | some f => rfl
  | none =>
    cases decode (fetch s) with
    | none => rfl
    | some i => simp only [Option.map_some, exec_eq, runRecord_wf (toRecord_wf i)]

/-- Settles O56: the step is a step of the decoder RD. -/
theorem stepKeepsInvariant : Obligations.StepKeepsInvariant := by
  unfold Obligations.StepKeepsInvariant
  intro s t hs ht
  exact anyDecoderKeepsInvariant rd s t hs (stepIsReferenceCycle s ▸ ht)

theorem stepWith_fixed {D : Decoder} {s t : State} (ht : stepWith D s = .next t) :
    t.memValid = s.memValid ∧ t.cfg = s.cfg := by
  obtain ⟨-, -, ⟨-, rfl⟩ | ⟨r, -, -, rfl⟩⟩ := stepWith_next ht
  · exact ⟨rfl, rfl⟩
  · obtain ⟨hvalid, hcfg, -⟩ := complete_fixed r s
    exact ⟨hvalid, hcfg⟩

/-- Settles O58: the step is a step of RD. -/
theorem stepKeepsConfiguration : Obligations.StepKeepsConfiguration := by
  unfold Obligations.StepKeepsConfiguration
  intro D s t ht
  exact ht.elim stepWith_fixed fun ht => stepWith_fixed (stepIsReferenceCycle s ▸ ht)

end Sys2Proof.Machine
end

section
/-! PROOFS. The statements about RD's encodings (30_encoding.md section 3): rows, the round trip of the
decoder and the encoder in both directions, and the records of raw bytes. -/

namespace Sys2Proof

open Machine

/-! ## Rows -/

theorem Row.accepts_iff {r : Row} {b0 b1 : Byte} :
    r.accepts b0 b1 = true ↔ b0 &&& r.mask0 = r.match0 ∧ b1 &&& r.mask1 = r.match1 := by
  simp [Row.accepts]

/-- Two masked matches of one byte agree where both masks look. -/
theorem masked_agree {b m1 m2 v1 v2 : Byte} (h1 : b &&& m1 = v1) (h2 : b &&& m2 = v2) :
    v1 &&& m2 = v2 &&& m1 := by
  rw [← h1, ← h2, BitVec.and_assoc, BitVec.and_assoc, BitVec.and_comm m1]

/-- Two rows of the table that agree where both their masks look are one row. -/
theorem rows_apart : ∀ r1 ∈ rows, ∀ r2 ∈ rows, r1.match0 &&& r2.mask0 = r2.match0 &&& r1.mask0 →
    r1.match1 &&& r2.mask1 = r2.match1 &&& r1.mask1 → r1 = r2 := by
  decide

/-- Settles O3: rows that accept the same bytes agree where both their masks look. -/
theorem atMostOneRowMatches : Obligations.AtMostOneRowMatches := by
  unfold Obligations.AtMostOneRowMatches
  intro b0 b1 r1 r2 hr1 hr2 h1 h2
  obtain ⟨h10, h11⟩ := Row.accepts_iff.1 h1
  obtain ⟨h20, h21⟩ := Row.accepts_iff.1 h2
  exact rows_apart r1 hr1 r2 hr2 (masked_agree h10 h20) (masked_agree h11 h21)

/-- A row that accepts two bytes is the one the decoder finds (R85). -/
theorem rowOf_eq_some_iff {b0 b1 : Byte} {r : Row} :
    rowOf b0 b1 = some r ↔ r ∈ rows ∧ r.accepts b0 b1 = true := by
  refine ⟨rowOf_some, fun ⟨hr, ha⟩ => ?_⟩
  cases hf : rowOf b0 b1 with
  | none => exact absurd ha (List.find?_eq_none.1 hf r hr)
  | some r' =>
    obtain ⟨hr', ha'⟩ := rowOf_some hf
    rw [atMostOneRowMatches b0 b1 r' r hr' hr ha' ha]

/-- The row that accepts the first two bytes fixes the form that reads the rest. -/
theorem decodeRest_of_accepts {r : Row} {b0 : Byte} {bs : List Byte} (hr : r ∈ rows)
    (ha : r.accepts b0 (bs.headD 0) = true) : decodeRest (b0 :: bs) = decodeForm r.form b0 bs :=
  decodeRest_of_row (by rw [rowOf_eq_some_iff.2 ⟨hr, ha⟩, Option.map_some])

/-! ## Opcode and ModRM fields -/

/-- Byte 0 with `d` (or `s`) and `w` bits: its fixed bits and the two fields. -/
theorem opDW_fields : ∀ (base : Byte) (d w : Bool), base &&& 0xFC = base →
    opDW base d w &&& 0xFC = base ∧ (opDW base d w).getLsbD 1 = d ∧ (opDW base d w).getLsbD 0 = w := by
  decide

theorem opW_fields : ∀ (base : Byte) (w : Bool), base &&& 0xFE = base →
    opW base w &&& 0xFE = base ∧ (opW base w).getLsbD 0 = w := by
  decide

theorem opDW_of_fields : ∀ b : Byte, opDW (b &&& 0xFC) (b.getLsbD 1) (b.getLsbD 0) = b := by decide

theorem opW_of_fields : ∀ b : Byte, opW (b &&& 0xFE) (b.getLsbD 0) = b := by decide

/-- Byte 0 of MOV-r-imm: `w` in bit 3, the register in bits 2 to 0 (R79). -/
theorem movRegImm_fields (w : Bool) (n : RegNum) :
    let b : Byte := 0xB0 ||| (if w then 8 else 0) ||| n.bits.setWidth 8
    b &&& 0xF0 = 0xB0 ∧ b.getLsbD 3 = w ∧ b.extractLsb' 0 3 = n.bits := by
  cases w <;> cases n <;> decide

theorem movRegImm_of_fields : ∀ b : Byte, b &&& 0xF0 = 0xB0 →
    (0xB0 ||| (if b.getLsbD 3 then 8 else 0) ||| (b.extractLsb' 0 3).setWidth 8 : Byte) = b := by
  decide

/-- The reg field under the mask of the rows that fix it. -/
theorem modRm_mask_reg (m : BitVec 2) (r n : BitVec 3) :
    (m ++ r ++ n : BitVec 8) &&& 0x38#8 = r.setWidth 8 <<< 3 := by
  revert m r n; decide

theorem modRm_reg_of_mask {m : BitVec 2} {r n : BitVec 3} {e : BitVec 3}
    (h : (m ++ r ++ n : BitVec 8) &&& 0x38#8 = e.setWidth 8 <<< 3) : r = e := by
  rw [modRm_mask_reg] at h
  revert r e; decide

/-- A segment number leaves the top bit of the reg field clear (R75, R79). -/
theorem modRm_mask_seg (m : BitVec 2) (g : SegNum) (n : BitVec 3) :
    (m ++ g.bits.setWidth 3 ++ n : BitVec 8) &&& 0x20 = 0 := by
  cases g <;> revert m n <;> decide

theorem modRm_seg_of_mask {m : BitVec 2} {r n : BitVec 3} (h : (m ++ r ++ n : BitVec 8) &&& 0x20 = 0) :
    (r.extractLsb' 0 2).setWidth 3 = r := by
  revert m r n; decide

/-! ## Decoding an encoding -/

/-! A lemma for each shape of encoding; `hf` says how the row's form makes an instruction of the fields. -/

/-- Opcode bits, `d` and `w`, then a ModRM byte (R79 to R82). -/
theorem decode_encodeRmReg {f : Form} {base : Byte} {mk : Dir → Width → RegNum → Rm → Instr}
    (hf : ∀ b bs, decodeForm f b bs =
      (takeRmReg b bs).map fun p => (mk p.1.1 p.1.2.1 p.1.2.2.1 p.1.2.2.2, p.2))
    (hb : base &&& 0xFC = base) (hr : { form := f, match0 := base, mask0 := 0xFC } ∈ rows)
    (d : Dir) (w : Width) (reg : RegNum) {rm : Rm} (h : rm.encodable = true) (rest : List Byte) :
    decodeRest (encodeRmReg base d w reg rm ++ rest) = some (mk d w reg rm, rest) := by
  obtain ⟨h0, hd, hw⟩ := opDW_fields base d.bit w.bit hb
  rw [encodeRmReg, List.cons_append, decodeRest_of_accepts hr (Row.accepts_iff.2 ⟨h0, by simp⟩), hf]
  simp only [takeRmReg, takeModRm_encode _ rm h, hd, hw, Option.map_some, Dir.ofBit_bit, Width.ofBit_bit,
    RegNum.ofBits_bits]

/-- Opcodes 80 to 83, whose rows fix the reg field (R80 to R82). -/
theorem decode_encodeGroup {f : Form} {ext : BitVec 3} {mk : Rm → GroupImm → Instr}
    (hf : ∀ b bs, decodeForm f b bs = (takeRmGroupImm b bs).map fun p => (mk p.1.1 p.1.2, p.2))
    (hr : { form := f, match0 := 0x80, mask0 := 0xFC, match1 := ext.setWidth 8 <<< 3, mask1 := 0x38 } ∈ rows)
    {rm : Rm} (h : rm.encodable = true) (v : GroupImm) (rest : List Byte) :
    decodeRest (encodeGroup ext rm v ++ rest) = some (mk rm v, rest) := by
  obtain ⟨h0, hs, hw⟩ := opDW_fields 0x80 v.sBit v.wBit (by decide)
  rw [encodeGroup, List.cons_append, List.append_assoc, decodeRest_of_accepts hr
    (Row.accepts_iff.2 ⟨h0, modRm_mask_reg _ _ _⟩), hf]
  simp only [takeRmGroupImm, takeModRm_encode _ rm h, hs, hw, takeGroupImm_encode, Option.bind_some,
    Option.map_some]

/-- Opcode bits and `w`, then an immediate (R80 to R82). -/
theorem decode_encodeAccImm {f : Form} {base : Byte} {mk : Imm → Instr}
    (hf : ∀ b bs, decodeForm f b bs = (takeImm (b.getLsbD 0) bs).map fun p => (mk p.1, p.2))
    (hb : base &&& 0xFE = base) (hr : { form := f, match0 := base, mask0 := 0xFE } ∈ rows) (v : Imm)
    (rest : List Byte) : decodeRest (opW base v.isWord :: (v.encode ++ rest)) = some (mk v, rest) := by
  obtain ⟨h0, hw⟩ := opW_fields base v.isWord hb
  rw [decodeRest_of_accepts hr (Row.accepts_iff.2 ⟨h0, by simp⟩), hf, hw, takeImm_encode, Option.map_some]

/-- Opcode bits and `w`, then an address (R79). -/
theorem decode_encodeAddr {f : Form} {base : Byte} {mk : Width → Word → Instr}
    (hf : ∀ b bs, decodeForm f b bs =
      (takeWord bs).map fun p => (mk (Width.ofBit (b.getLsbD 0)) p.1, p.2))
    (hb : base &&& 0xFE = base) (hr : { form := f, match0 := base, mask0 := 0xFE } ∈ rows) (w : Width)
    (a : Word) (rest : List Byte) :
    decodeRest (opW base w.bit :: (wordBytes a ++ rest)) = some (mk w a, rest) := by
  obtain ⟨h0, hw⟩ := opW_fields base w.bit hb
  rw [decodeRest_of_accepts hr (Row.accepts_iff.2 ⟨h0, by simp⟩), hf, hw, takeWord_wordBytes,
    Option.map_some, Width.ofBit_bit]

/-- A segment opcode, then a ModRM byte whose row fixes bit 5 (R79). -/
theorem decode_encodeSeg {f : Form} {b0 : Byte} {mk : SegNum → Rm → Instr}
    (hf : ∀ b bs, decodeForm f b bs =
      (takeModRm bs).map fun p => (mk (SegNum.ofBits (p.1.extractLsb' 0 2)) p.2.1, p.2.2))
    (hr : { form := f, match0 := b0, mask0 := 0xFF, match1 := 0, mask1 := 0x20 } ∈ rows) (g : SegNum)
    {rm : Rm} (h : rm.encodable = true) (rest : List Byte) :
    decodeRest (b0 :: (encodeModRm (g.bits.setWidth 3) rm ++ rest)) = some (mk g rm, rest) := by
  rw [decodeRest_of_accepts hr (Row.accepts_iff.2 ⟨BitVec.and_allOnes, modRm_mask_seg _ g _⟩), hf,
    takeModRm_encode _ rm h]
  simp [BitVec.extractLsb'_setWidth_of_le]

/-- A branch opcode, then a displacement (R83). -/
theorem decodeRest_branch {f : Form} {b0 : Byte} {mk : Byte → Instr}
    (hf : ∀ b bs, decodeForm f b bs = (takeByte bs).map fun p => (mk p.1, p.2))
    (hr : { form := f, match0 := b0, mask0 := 0xFF } ∈ rows) (rel : Byte) (rest : List Byte) :
    decodeRest (b0 :: rel :: rest) = some (mk rel, rest) := by
  rw [decodeRest_of_accepts hr (Row.accepts_iff.2 ⟨BitVec.and_allOnes, by simp⟩), hf, takeByte,
    Option.map_some]

/-- MOV-rm-imm, whose row fixes the reg field (R79). -/
theorem decode_encode_movRmImm {rm : Rm} (h : rm.encodable = true) (v : Imm) (rest : List Byte) :
    decodeRest (encode (.movRmImm rm v) ++ rest) = some (.movRmImm rm v, rest) := by
  obtain ⟨h0, hw⟩ := opW_fields 0xC6 v.isWord (by decide)
  rw [encode, List.cons_append, List.append_assoc, decodeRest_of_accepts
    (r := { form := .movRmImm, match0 := 0xC6, mask0 := 0xFE, match1 := 0x00, mask1 := 0x38 }) (by decide)
    (Row.accepts_iff.2 ⟨h0, modRm_mask_reg _ 0 _⟩), decodeForm]
  simp only [takeModRm_encode 0 rm h, hw, takeImm_encode, Option.bind_some, Option.map_some]

/-- MOV-r-imm, with its register in the opcode byte (R79). -/
theorem decode_encode_movRegImm (reg : RegNum) (v : Imm) (rest : List Byte) :
    decodeRest (encode (.movRegImm reg v) ++ rest) = some (.movRegImm reg v, rest) := by
  obtain ⟨h0, hw, hn⟩ := movRegImm_fields v.isWord reg
  rw [encode, List.cons_append, decodeRest_of_accepts
    (r := { form := .movRegImm, match0 := 0xB0, mask0 := 0xF0 }) (by decide)
    (Row.accepts_iff.2 ⟨h0, by simp⟩), decodeForm]
  simp only [hw, hn, takeImm_encode, Option.map_some, RegNum.ofBits_bits]

/-- Settles O1, by the shape of each constructor's encoding. -/
theorem decodeOfEncode : Obligations.DecodeOfEncode := by
  unfold Obligations.DecodeOfEncode
  intro i rest hi
  cases i with
  | movRmReg d w reg rm =>
    exact decode_encodeRmReg (f := .movRmReg) (fun _ _ => rfl) (by decide) (by decide) d w reg hi rest
  | movRmImm rm v => exact decode_encode_movRmImm hi v rest
  | movRegImm reg v => exact decode_encode_movRegImm reg v rest
  | movAccMem w a =>
    exact decode_encodeAddr (f := .movAccMem) (fun _ _ => rfl) (by decide) (by decide) w a rest
  | movMemAcc w a =>
    exact decode_encodeAddr (f := .movMemAcc) (fun _ _ => rfl) (by decide) (by decide) w a rest
  | movSregRm g rm => exact decode_encodeSeg (f := .movSregRm) (fun _ _ => rfl) (by decide) g hi rest
  | movRmSreg rm g =>
    exact decode_encodeSeg (f := .movRmSreg) (mk := fun g rm => .movRmSreg rm g) (fun _ _ => rfl)
      (by decide) g hi rest
  | addRmReg d w reg rm =>
    exact decode_encodeRmReg (f := .addRmReg) (fun _ _ => rfl) (by decide) (by decide) d w reg hi rest
  | addRmImm rm v => exact decode_encodeGroup (f := .addRmImm) (fun _ _ => rfl) (by decide) hi v rest
  | addAccImm v => exact decode_encodeAccImm (f := .addAccImm) (fun _ _ => rfl) (by decide) (by decide) v rest
  | subRmReg d w reg rm =>
    exact decode_encodeRmReg (f := .subRmReg) (fun _ _ => rfl) (by decide) (by decide) d w reg hi rest
  | subRmImm rm v => exact decode_encodeGroup (f := .subRmImm) (fun _ _ => rfl) (by decide) hi v rest
  | subAccImm v => exact decode_encodeAccImm (f := .subAccImm) (fun _ _ => rfl) (by decide) (by decide) v rest
  | cmpRmReg d w reg rm =>
    exact decode_encodeRmReg (f := .cmpRmReg) (fun _ _ => rfl) (by decide) (by decide) d w reg hi rest
  | cmpRmImm rm v => exact decode_encodeGroup (f := .cmpRmImm) (fun _ _ => rfl) (by decide) hi v rest
  | cmpAccImm v => exact decode_encodeAccImm (f := .cmpAccImm) (fun _ _ => rfl) (by decide) (by decide) v rest
  | je rel => exact decodeRest_branch (f := .je) (fun _ _ => rfl) (by decide) rel rest
  | jne rel => exact decodeRest_branch (f := .jne) (fun _ _ => rfl) (by decide) rel rest
  | loop rel => exact decodeRest_branch (f := .loop) (fun _ _ => rfl) (by decide) rel rest

/-! ## Encoding what was decoded

What each field reader consumed is the encoding of what it answers. -/

theorem takeByte_some {bs : List Byte} {b : Byte} {rest : List Byte} (h : takeByte bs = some (b, rest)) :
    b :: rest = bs := by
  cases bs with
  | nil => simp [takeByte] at h
  | cons x xs => simpa [takeByte, eq_comm] using h

theorem takeWord_some {bs : List Byte} {v : Word} {rest : List Byte} (h : takeWord bs = some (v, rest)) :
    wordBytes v ++ rest = bs := by
  match bs, h with
  | lo :: hi :: bs, h =>
    obtain ⟨rfl, rfl⟩ : wordOf lo hi = v ∧ bs = rest := by simpa [takeWord] using h
    rw [wordBytes_wordOf, List.cons_append, List.cons_append, List.nil_append]

theorem mod_eq_zero : ∀ m : BitVec 2, m ≠ 3 → m ≠ 2 → m ≠ 1 → m = 0 := by decide

/-- The four cases of mod (R72). -/
theorem takeRm_some {m : BitVec 2} {n : BitVec 3} {bs : List Byte} {rm : Rm} {rest : List Byte}
    (h : takeRm m n bs = some (rm, rest)) :
    rm.encodable = true ∧ rm.modBits = m ∧ rm.rmBits = n ∧ rm.dispBytes ++ rest = bs := by
  unfold takeRm at h
  split_ifs at h with h3 h2 h1 h6
  · obtain ⟨rfl, rfl⟩ := Prod.mk.inj (Option.some.inj h)
    exact ⟨rfl, h3.symm, RegNum.bits_ofBits n, rfl⟩
  · obtain ⟨⟨d, rest'⟩, hd, he⟩ := Option.map_eq_some_iff.1 h
    obtain ⟨rfl, rfl⟩ := Prod.mk.inj he
    exact ⟨by simp [Rm.encodable], h2.symm, BaseForm.bits_ofBits n, takeWord_some hd⟩
  · obtain ⟨⟨d, rest'⟩, hd, he⟩ := Option.map_eq_some_iff.1 h
    obtain ⟨rfl, rfl⟩ := Prod.mk.inj he
    exact ⟨by simp [Rm.encodable], h1.symm, BaseForm.bits_ofBits n, takeByte_some hd⟩
  · obtain ⟨⟨a, rest'⟩, ha, he⟩ := Option.map_eq_some_iff.1 h
    obtain ⟨rfl, rfl⟩ := Prod.mk.inj he
    exact ⟨rfl, (mod_eq_zero m h3 h2 h1).symm, h6.symm, takeWord_some ha⟩
  · obtain ⟨rfl, rfl⟩ := Prod.mk.inj (Option.some.inj h)
    have hform : BaseForm.ofBits n ≠ .bp := fun hbp => h6 (by rw [← BaseForm.bits_ofBits n, hbp]; rfl)
    exact ⟨by cases hb : BaseForm.ofBits n <;> simp_all [Rm.encodable],
      (mod_eq_zero m h3 h2 h1).symm, BaseForm.bits_ofBits n, rfl⟩

theorem takeModRm_some {bs : List Byte} {reg : BitVec 3} {rm : Rm} {rest : List Byte}
    (h : takeModRm bs = some (reg, rm, rest)) :
    rm.encodable = true ∧ encodeModRm reg rm ++ rest = bs := by
  cases bs with
  | nil => simp [takeModRm] at h
  | cons b bs =>
    obtain ⟨⟨rm', rest'⟩, hrm, he⟩ := Option.map_eq_some_iff.1 h
    obtain ⟨rfl, rfl, rfl⟩ : b.extractLsb' 3 3 = reg ∧ rm' = rm ∧ rest' = rest := by simpa using he
    obtain ⟨henc, hmod, hn, hdisp⟩ := takeRm_some hrm
    exact ⟨henc, by rw [encodeModRm, hmod, hn, modRm_of_fields, List.cons_append, hdisp]⟩

theorem takeImm_some {w : Bool} {bs : List Byte} {v : Imm} {rest : List Byte}
    (h : takeImm w bs = some (v, rest)) : v.isWord = w ∧ v.encode ++ rest = bs := by
  cases w <;> obtain ⟨⟨x, rest'⟩, hx, he⟩ := Option.map_eq_some_iff.1 h <;>
    obtain ⟨rfl, rfl⟩ := Prod.mk.inj he
  · exact ⟨rfl, takeByte_some hx⟩
  · exact ⟨rfl, takeWord_some hx⟩

theorem takeGroupImm_some {s w : Bool} {bs : List Byte} {v : GroupImm} {rest : List Byte}
    (h : takeGroupImm s w bs = some (v, rest)) :
    v.sBit = s ∧ v.wBit = w ∧ v.encode ++ rest = bs := by
  unfold takeGroupImm at h
  split_ifs at h with hw hs <;> obtain ⟨⟨x, rest'⟩, hx, he⟩ := Option.map_eq_some_iff.1 h <;>
    obtain ⟨rfl, rfl⟩ := Prod.mk.inj he
  · exact ⟨hs.symm, hw.symm, takeByte_some hx⟩
  · exact ⟨by simpa [GroupImm.sBit] using hs, hw.symm, takeWord_some hx⟩
  · exact ⟨rfl, by simpa [GroupImm.wBit] using hw, takeByte_some hx⟩

/-- The reg field of a stream that starts with a ModRM byte. -/
theorem encodeModRm_reg {reg ext : BitVec 3} {rm : Rm} {bs rest : List Byte}
    (hbs : encodeModRm reg rm ++ rest = bs) (hb1 : bs.headD 0 &&& 0x38#8 = ext.setWidth 8 <<< 3) :
    reg = ext := by
  subst hbs
  exact modRm_reg_of_mask hb1

/-! The shapes of encoding: `hmk` says how the instruction that the form makes is encoded, `h0` and `h1` are
the bits that the row fixes. -/

section
variable {b0 : Byte} {bs rest : List Byte} {base : Byte} {i : Instr}

theorem encode_of_takeRmReg {mk : Dir → Width → RegNum → Rm → Instr}
    (hmk : ∀ d w reg rm, (mk d w reg rm).wf = rm.encodable ∧
      encode (mk d w reg rm) = encodeRmReg base d w reg rm)
    (h0 : b0 &&& 0xFC = base)
    (h : (takeRmReg b0 bs).map (fun p => (mk p.1.1 p.1.2.1 p.1.2.2.1 p.1.2.2.2, p.2)) = some (i, rest)) :
    i.wf = true ∧ encode i ++ rest = b0 :: bs := by
  obtain ⟨p, hp, he⟩ := Option.map_eq_some_iff.1 h
  obtain ⟨⟨reg, rm, rest'⟩, hm, rfl⟩ := Option.map_eq_some_iff.1 hp
  obtain ⟨rfl, rfl⟩ := Prod.mk.inj he
  obtain ⟨henc, hbs⟩ := takeModRm_some hm
  rw [(hmk _ _ _ _).1, (hmk _ _ _ _).2]
  refine ⟨henc, ?_⟩
  rw [encodeRmReg, ← h0, Dir.bit_ofBit, Width.bit_ofBit, opDW_of_fields, RegNum.bits_ofBits,
    List.cons_append, hbs]

theorem encode_of_takeRmGroupImm {ext : BitVec 3} {mk : Rm → GroupImm → Instr}
    (hmk : ∀ rm v, (mk rm v).wf = rm.encodable ∧ encode (mk rm v) = encodeGroup ext rm v)
    (h0 : b0 &&& 0xFC = 0x80) (h1 : bs.headD 0 &&& 0x38#8 = ext.setWidth 8 <<< 3)
    (h : (takeRmGroupImm b0 bs).map (fun p => (mk p.1.1 p.1.2, p.2)) = some (i, rest)) :
    i.wf = true ∧ encode i ++ rest = b0 :: bs := by
  obtain ⟨p, hp, he⟩ := Option.map_eq_some_iff.1 h
  obtain ⟨⟨reg, rm, rest'⟩, hm, hq⟩ := Option.bind_eq_some_iff.1 hp
  obtain ⟨⟨v, rest''⟩, hv, rfl⟩ := Option.map_eq_some_iff.1 hq
  obtain ⟨rfl, rfl⟩ := Prod.mk.inj he
  obtain ⟨henc, hbs⟩ := takeModRm_some hm
  obtain ⟨hs, hw, himm⟩ := takeGroupImm_some hv
  obtain rfl := encodeModRm_reg hbs h1
  rw [(hmk _ _).1, (hmk _ _).2]
  refine ⟨henc, ?_⟩
  rw [encodeGroup, hs, hw, ← h0, opDW_of_fields, List.cons_append, List.append_assoc, himm, hbs]

theorem encode_of_takeImm {mk : Imm → Instr}
    (hmk : ∀ v, (mk v).wf = true ∧ encode (mk v) = opW base v.isWord :: v.encode)
    (h0 : b0 &&& 0xFE = base)
    (h : (takeImm (b0.getLsbD 0) bs).map (fun p => (mk p.1, p.2)) = some (i, rest)) :
    i.wf = true ∧ encode i ++ rest = b0 :: bs := by
  obtain ⟨⟨v, rest'⟩, hv, he⟩ := Option.map_eq_some_iff.1 h
  obtain ⟨rfl, rfl⟩ := Prod.mk.inj he
  obtain ⟨hw, hbs⟩ := takeImm_some hv
  rw [(hmk _).1, (hmk _).2, hw, ← h0, opW_of_fields, List.cons_append, hbs]
  exact ⟨rfl, rfl⟩

theorem encode_of_takeAddr {mk : Width → Word → Instr}
    (hmk : ∀ w a, (mk w a).wf = true ∧ encode (mk w a) = opW base w.bit :: wordBytes a)
    (h0 : b0 &&& 0xFE = base)
    (h : (takeWord bs).map (fun p => (mk (Width.ofBit (b0.getLsbD 0)) p.1, p.2)) = some (i, rest)) :
    i.wf = true ∧ encode i ++ rest = b0 :: bs := by
  obtain ⟨⟨a, rest'⟩, ha, he⟩ := Option.map_eq_some_iff.1 h
  obtain ⟨rfl, rfl⟩ := Prod.mk.inj he
  rw [(hmk _ _).1, (hmk _ _).2, Width.bit_ofBit, ← h0, opW_of_fields, List.cons_append, takeWord_some ha]
  exact ⟨rfl, rfl⟩

theorem encode_of_takeSeg {mk : SegNum → Rm → Instr}
    (hmk : ∀ g rm, (mk g rm).wf = rm.encodable ∧
      encode (mk g rm) = base :: encodeModRm (g.bits.setWidth 3) rm)
    (h0 : b0 &&& 0xFF = base) (h1 : bs.headD 0 &&& 0x20 = 0)
    (h : (takeModRm bs).map (fun p => (mk (SegNum.ofBits (p.1.extractLsb' 0 2)) p.2.1, p.2.2)) =
      some (i, rest)) : i.wf = true ∧ encode i ++ rest = b0 :: bs := by
  obtain ⟨⟨reg, rm, rest'⟩, hm, he⟩ := Option.map_eq_some_iff.1 h
  obtain ⟨rfl, rfl⟩ := Prod.mk.inj he
  obtain ⟨henc, rfl⟩ := takeModRm_some hm
  obtain rfl := (BitVec.and_allOnes (x := b0)).symm.trans h0
  rw [(hmk _ _).1, (hmk _ _).2, SegNum.bits_ofBits, modRm_seg_of_mask h1]
  exact ⟨henc, rfl⟩

theorem encode_of_takeByte {mk : Byte → Instr}
    (hmk : ∀ rel, (mk rel).wf = true ∧ encode (mk rel) = [base, rel]) (h0 : b0 &&& 0xFF = base)
    (h : (takeByte bs).map (fun p => (mk p.1, p.2)) = some (i, rest)) :
    i.wf = true ∧ encode i ++ rest = b0 :: bs := by
  obtain ⟨⟨rel, rest'⟩, hrel, he⟩ := Option.map_eq_some_iff.1 h
  obtain ⟨rfl, rfl⟩ := Prod.mk.inj he
  obtain rfl := (BitVec.and_allOnes (x := b0)).symm.trans h0
  rw [(hmk _).1, (hmk _).2, ← takeByte_some hrel]
  exact ⟨rfl, rfl⟩

theorem encode_of_movRmImm (h0 : b0 &&& 0xFE = 0xC6) (h1 : bs.headD 0 &&& 0x38#8 = 0)
    (h : decodeForm .movRmImm b0 bs = some (i, rest)) : i.wf = true ∧ encode i ++ rest = b0 :: bs := by
  obtain ⟨⟨reg, rm, rest'⟩, hm, hq⟩ := Option.bind_eq_some_iff.1 h
  obtain ⟨⟨v, rest''⟩, hv, he⟩ := Option.map_eq_some_iff.1 hq
  obtain ⟨rfl, rfl⟩ := Prod.mk.inj he
  obtain ⟨henc, hbs⟩ := takeModRm_some hm
  obtain ⟨hw, himm⟩ := takeImm_some hv
  obtain rfl := encodeModRm_reg (ext := 0) hbs h1
  exact ⟨henc, by rw [encode, hw, ← h0, opW_of_fields, List.cons_append, List.append_assoc, himm, hbs]⟩

theorem encode_of_movRegImm (h0 : b0 &&& 0xF0 = 0xB0) (h : decodeForm .movRegImm b0 bs = some (i, rest)) :
    i.wf = true ∧ encode i ++ rest = b0 :: bs := by
  obtain ⟨⟨v, rest'⟩, hv, he⟩ := Option.map_eq_some_iff.1 h
  obtain ⟨rfl, rfl⟩ := Prod.mk.inj he
  obtain ⟨hw, hbs⟩ := takeImm_some hv
  exact ⟨rfl, by rw [encode, hw, RegNum.bits_ofBits, movRegImm_of_fields b0 h0, List.cons_append, hbs]⟩

end

/-- The form of an accepting row reads the fields of the encoding the row was written for. -/
theorem encode_of_decodeForm {r : Row} {b0 : Byte} {bs rest : List Byte} {i : Instr} (hr : r ∈ rows)
    (h0 : b0 &&& r.mask0 = r.match0) (h1 : bs.headD 0 &&& r.mask1 = r.match1)
    (h : decodeForm r.form b0 bs = some (i, rest)) : i.wf = true ∧ encode i ++ rest = b0 :: bs := by
  simp only [rows, movRows, arithRows, branchRows, List.cons_append, List.nil_append, List.mem_cons,
    List.not_mem_nil, or_false] at hr
  rcases hr with rfl | rfl | rfl | rfl | rfl | rfl | rfl | rfl | rfl | rfl | rfl | rfl | rfl | rfl | rfl |
    rfl | rfl | rfl | rfl
  · exact encode_of_takeRmReg (mk := .movRmReg) (fun _ _ _ _ => ⟨rfl, rfl⟩) h0 h
  · exact encode_of_movRmImm h0 h1 h
  · exact encode_of_movRegImm h0 h
  · exact encode_of_takeAddr (mk := .movAccMem) (fun _ _ => ⟨rfl, rfl⟩) h0 h
  · exact encode_of_takeAddr (mk := .movMemAcc) (fun _ _ => ⟨rfl, rfl⟩) h0 h
  · exact encode_of_takeSeg (mk := .movSregRm) (fun _ _ => ⟨rfl, rfl⟩) h0 h1 h
  · exact encode_of_takeSeg (mk := fun g rm => .movRmSreg rm g) (fun _ _ => ⟨rfl, rfl⟩) h0 h1 h
  · exact encode_of_takeRmReg (mk := .addRmReg) (fun _ _ _ _ => ⟨rfl, rfl⟩) h0 h
  · exact encode_of_takeRmGroupImm (mk := .addRmImm) (fun _ _ => ⟨rfl, rfl⟩) h0 h1 h
  · exact encode_of_takeImm (mk := .addAccImm) (fun _ => ⟨rfl, rfl⟩) h0 h
  · exact encode_of_takeRmReg (mk := .subRmReg) (fun _ _ _ _ => ⟨rfl, rfl⟩) h0 h
  · exact encode_of_takeRmGroupImm (mk := .subRmImm) (fun _ _ => ⟨rfl, rfl⟩) h0 h1 h
  · exact encode_of_takeImm (mk := .subAccImm) (fun _ => ⟨rfl, rfl⟩) h0 h
  · exact encode_of_takeRmReg (mk := .cmpRmReg) (fun _ _ _ _ => ⟨rfl, rfl⟩) h0 h
  · exact encode_of_takeRmGroupImm (mk := .cmpRmImm) (fun _ _ => ⟨rfl, rfl⟩) h0 h1 h
  · exact encode_of_takeImm (mk := .cmpAccImm) (fun _ => ⟨rfl, rfl⟩) h0 h
  · exact encode_of_takeByte (mk := .je) (fun _ => ⟨rfl, rfl⟩) h0 h
  · exact encode_of_takeByte (mk := .jne) (fun _ => ⟨rfl, rfl⟩) h0 h
  · exact encode_of_takeByte (mk := .loop) (fun _ => ⟨rfl, rfl⟩) h0 h

/-- Settles O2: the accepting row's form reads the fields of one encoding. -/
theorem encodeOfDecode : Obligations.EncodeOfDecode := by
  unfold Obligations.EncodeOfDecode
  intro bs i rest h
  cases bs with
  | nil => simp [decodeRest] at h
  | cons b0 bs =>
    obtain ⟨r, hr, hf⟩ := Option.bind_eq_some_iff.1 h
    obtain ⟨hmem, hacc⟩ := rowOf_some hr
    obtain ⟨h0, h1⟩ := Row.accepts_iff.1 hacc
    exact encode_of_decodeForm hmem h0 h1 hf

end Sys2Proof
end

section
/-! PROOFS. The statements that read RD's tables off raw bytes (30_encoding.md R71 to R85). -/

namespace Sys2Proof

open Machine

/-! ## The fields of a ModRM byte as numbers (R71) -/

theorem modField_toNat : ∀ b : Byte, (b.extractLsb' 6 2).toNat = b.toNat / 64 := by decide
theorem regField_toNat : ∀ b : Byte, (b.extractLsb' 3 3).toNat = b.toNat / 8 % 8 := by decide
theorem rmField_toNat : ∀ b : Byte, (b.extractLsb' 0 3).toNat = b.toNat % 8 := by decide

/-- The mask of the reg field. -/
theorem and_regMask : ∀ b : Byte, b &&& 0x38#8 = (b.extractLsb' 3 3).setWidth 8 <<< 3 := by decide

/-- A reg field with a given number, as the rows that fix it ask. -/
theorem and_regMask_of_toNat {b : Byte} {n : Nat} (h : b.toNat / 8 % 8 = n) :
    b &&& 0x38#8 = (BitVec.ofNat 3 n).setWidth 8 <<< 3 := by
  rw [and_regMask, ← h, ← regField_toNat, BitVec.ofNat_toNat, BitVec.setWidth_eq]

theorem and_bit5 : ∀ b : Byte, b.toNat / 32 % 2 = 0 → b &&& 0x20 = 0 := by decide

/-! ## Operands of field numbers (R72 to R76) -/

theorem registerOperand_toNat : ∀ (w : Bool) (n : BitVec 3),
    registerOperand w n.toNat = .reg ((RegNum.ofBits n).access (Width.ofBit w)) := by
  decide

theorem modRmTerms_toNat : ∀ n : BitVec 3, modRmTerms n.toNat = (BaseForm.ofBits n).terms := by decide

theorem segSlot_toNat : ∀ b : Byte, ([.es, .cs, .ss, .ds] : List Slot).getD (b.toNat / 8 % 4) .none =
    (SegNum.ofBits ((b.extractLsb' 3 3).extractLsb' 0 2)).access.slot := by
  decide

theorem sint8_eq (v : Byte) : sint8 v = signed8 v.toNat := by
  rw [sint8, signed8, BitVec.toInt_eq_toNat_cond]
  split_ifs <;> omega

theorem sint16_eq (v : Word) : sint16 v = signed16 v.toNat := by
  rw [sint16, signed16, BitVec.toInt_eq_toNat_cond]
  split_ifs <;> omega

theorem modRmDispCount_le (b1 : Byte) : modRmDispCount b1 ≤ 2 := by
  unfold modRmDispCount
  dsimp only
  split_ifs <;> omega

/-- What the decoder reads of a ModRM byte and enough bytes after it: the reg field, an operand that the
raw bytes stand for, and the bytes left. -/
theorem takeModRm_cons (b1 : Byte) {bs : List Byte} (hbs : modRmDispCount b1 ≤ bs.length) :
    ∃ rm, takeModRm (b1 :: bs) = some (b1.extractLsb' 3 3, rm, bs.drop (modRmDispCount b1)) ∧
      (∀ w, rm.operand (Width.ofBit w) = modRmOperand w b1 (bs.getD 0 0) (bs.getD 1 0)) ∧
      rm.dispLength = modRmDispCount b1 := by
  have hmod : ∀ m : BitVec 2, m = 3 ∨ m = 2 ∨ m = 1 ∨ m = 0 := by decide
  unfold modRmDispCount at *
  simp only [takeModRm, takeRm, modRmOperand, ← modField_toNat, ← rmField_toNat] at *
  generalize b1.extractLsb' 0 3 = n at *
  have hn : n = 6#3 ↔ n.toNat = 6 := ⟨fun h => by rw [h]; rfl, fun h => BitVec.eq_of_toNat_eq h⟩
  obtain hm | hm | hm | hm := hmod (b1.extractLsb' 6 2) <;> simp only [hm] at *
  · exact ⟨.reg (RegNum.ofBits n), rfl, fun w => (registerOperand_toNat w n).symm, rfl⟩
  · match bs, hbs with
    | d0 :: d1 :: bs, _ =>
      exact ⟨_, rfl,
        fun w => by simp [Rm.operand, Disp.value, sint16_eq, toNat_wordOf, modRmTerms_toNat], rfl⟩
  · match bs, hbs with
    | d0 :: bs, _ =>
      exact ⟨_, rfl, fun w => by simp [Rm.operand, Disp.value, sint8_eq, modRmTerms_toNat], rfl⟩
  · by_cases h6 : n = 6#3
    · subst h6
      match bs, hbs with
      | d0 :: d1 :: bs, _ =>
        exact ⟨_, rfl, fun w => by simp [Rm.operand, directOperand, toNat_wordOf], rfl⟩
    · have h6' := mt hn.2 h6
      exact ⟨.based (BaseForm.ofBits n) .zero, by simp [h6, h6'],
        fun w => by simp [Rm.operand, Disp.value, h6', modRmTerms_toNat], by simp [Rm.dispLength, h6']⟩

/-- The operand depends on the bytes that the ModRM byte calls for alone (R72). -/
theorem modRmOperand_congr {w : Bool} {b1 d0 d1 e0 e1 : Byte} (h0 : 0 < modRmDispCount b1 → d0 = e0)
    (h1 : 1 < modRmDispCount b1 → d1 = e1) : modRmOperand w b1 d0 d1 = modRmOperand w b1 e0 e1 := by
  have hmod : b1.toNat / 64 = 0 ∨ b1.toNat / 64 = 1 ∨ b1.toNat / 64 = 2 ∨ b1.toNat / 64 = 3 := by omega
  unfold modRmDispCount at h0 h1
  unfold modRmOperand
  obtain hm | hm | hm | hm := hmod <;> simp only [hm] at *
  · by_cases h6 : b1.toNat % 8 = 6 <;> simp_all
  all_goals simp_all

/-- The same of a displacement with any bytes after it. -/
theorem takeModRm_disp {b1 : Byte} {disp : List Byte} (hd : disp.length = modRmDispCount b1)
    (bs : List Byte) :
    ∃ rm, takeModRm (b1 :: (disp ++ bs)) = some (b1.extractLsb' 3 3, rm, bs) ∧
      (∀ w, rm.operand (Width.ofBit w) = modRmOperand w b1 (disp.getD 0 0) (disp.getD 1 0)) ∧
      rm.dispLength = disp.length := by
  obtain ⟨rm, hrm, hop, hlen⟩ := takeModRm_cons b1 (bs := disp ++ bs) (by simp [hd])
  refine ⟨rm, by rw [hrm, ← hd, List.drop_left], fun w => (hop w).trans (modRmOperand_congr ?_ ?_),
    hlen.trans hd.symm⟩ <;> rw [← hd] <;> exact fun hlt => List.getD_append _ _ _ _ hlt

/-! ## The record of a stream, by the row of its opcode -/

theorem recordOf_of_accepts {r : Row} {b0 : Byte} {bs : List Byte} (hr : r ∈ rows)
    (ha : r.accepts b0 (bs.headD 0) = true) :
    recordOf (b0 :: bs) = (decodeForm r.form b0 bs).map fun p => (p.1.toRecord, p.2) := by
  rw [recordOf, decodeRest_of_accepts hr ha]

/-- The sixteen `-rm-r` opcodes are four opcode bytes with their `d` and `w` bits. -/
theorem rmRegOpcodes_bits : ∀ x ∈ rmRegOpcodes,
    ∃ p ∈ ([(.mov, 0x88), (.add, 0x00), (.sub, 0x28), (.cmp, 0x38)] : List (OpKind × Byte)),
      p.1 = x.2.1 ∧ opDW p.2 x.2.2.1 x.2.2.2 = x.1 := by
  decide

/-- The `-rm-r` forms (R79 to R82); `hmk` is the record of the instruction that the form makes. -/
theorem recordOf_rmReg {f : Form} {op : OpKind} {base : Byte} {mk : Dir → Width → RegNum → Rm → Instr}
    (hf : ∀ b bs, decodeForm f b bs =
      (takeRmReg b bs).map fun p => (mk p.1.1 p.1.2.1 p.1.2.2.1 p.1.2.2.2, p.2))
    (hmk : ∀ d w reg rm, (mk d w reg rm).toRecord = rmRegRecord op d w reg rm)
    (hb : base &&& 0xFC = base) (hr : { form := f, match0 := base, mask0 := 0xFC } ∈ rows)
    (d w : Bool) (b1 d0 d1 : Byte) (rest : List Byte) :
    let reg := registerOperand w (b1.toNat / 8 % 8)
    let rm := modRmOperand w b1 d0 d1
    recordOf (opDW base d w :: b1 :: d0 :: d1 :: rest) =
      some ({ op := op, operands := if d then [reg, rm] else [rm, reg], wide := w,
              length := 2 + modRmDispCount b1 }, (d0 :: d1 :: rest).drop (modRmDispCount b1)) := by
  intro reg rm
  obtain ⟨h0, hd, hw⟩ := opDW_fields base d w hb
  obtain ⟨x, hx, hop, hlen⟩ := takeModRm_cons b1 (bs := d0 :: d1 :: rest)
    (Nat.le_trans (modRmDispCount_le b1) (by simp))
  have hreg : reg = .reg ((RegNum.ofBits (b1.extractLsb' 3 3)).access (Width.ofBit w)) := by
    rw [← registerOperand_toNat, regField_toNat]
  have hrm : rm = x.operand (Width.ofBit w) := (hop w).symm
  rw [recordOf_of_accepts hr (Row.accepts_iff.2 ⟨h0, by simp⟩), hf, takeRmReg, hx, hd, hw, hreg, hrm, ← hlen]
  cases d <;> simp [hmk, rmRegRecord, pairRecord, Dir.ofBit]

/-- Settles O8: each opcode is one of four with its bits, and the form's record is that of
`recordOf_rmReg`. -/
theorem modRmOperandTables : Obligations.ModRmOperandTables := by
  unfold Obligations.ModRmOperandTables
  intro b0 op d w b1 d0 d1 rest hmem
  obtain ⟨⟨op', base⟩, hp, hop, hb0⟩ := rmRegOpcodes_bits _ hmem
  dsimp only at hop hb0
  subst hop hb0
  simp only [List.mem_cons, Prod.mk.injEq, List.not_mem_nil, or_false] at hp
  obtain ⟨rfl, rfl⟩ | ⟨rfl, rfl⟩ | ⟨rfl, rfl⟩ | ⟨rfl, rfl⟩ := hp
  · exact recordOf_rmReg (f := .movRmReg) (fun _ _ => rfl) (fun _ _ _ _ => rfl) (by decide) (by decide) ..
  · exact recordOf_rmReg (f := .addRmReg) (fun _ _ => rfl) (fun _ _ _ _ => rfl) (by decide) (by decide) ..
  · exact recordOf_rmReg (f := .subRmReg) (fun _ _ => rfl) (fun _ _ _ _ => rfl) (by decide) (by decide) ..
  · exact recordOf_rmReg (f := .cmpRmReg) (fun _ _ => rfl) (fun _ _ _ _ => rfl) (by decide) (by decide) ..

theorem segAccess_eq (g : SegNum) : g.access = ⟨g.access.slot, 0, .word⟩ := by cases g <;> rfl

/-- A segment opcode with bit 5 of the ModRM byte clear (R79). -/
theorem recordOf_seg {f : Form} {b0 b1 : Byte}
    (hr : { form := f, match0 := b0, mask0 := 0xFF, match1 := 0x00, mask1 := 0x20 } ∈ rows)
    (h5 : b1.toNat / 32 % 2 = 0) (bs : List Byte) :
    recordOf (b0 :: b1 :: bs) = (decodeForm f b0 (b1 :: bs)).map fun p => (p.1.toRecord, p.2) :=
  recordOf_of_accepts hr (Row.accepts_iff.2 ⟨BitVec.and_allOnes, and_bit5 b1 h5⟩)

/-- Settles O9: the decoder's r/m operand and segment number are those of the raw byte. -/
theorem segmentNumberTable : Obligations.SegmentNumberTable := by
  unfold Obligations.SegmentNumberTable
  intro b1 d0 d1 rest h5 segs seg rm answer
  obtain ⟨x, hx, hop, hlen⟩ := takeModRm_cons b1 (bs := d0 :: d1 :: rest)
    (Nat.le_trans (modRmDispCount_le b1) (by simp))
  have hseg : seg = .reg (SegNum.ofBits ((b1.extractLsb' 3 3).extractLsb' 0 2)).access := by
    rw [segAccess_eq, ← segSlot_toNat]
  have hrm : rm = x.operand .word := (hop true).symm
  rw [recordOf_seg (f := .movSregRm) (by decide) h5, recordOf_seg (f := .movRmSreg) (by decide) h5,
    decodeForm, decodeForm, hx]
  simp [answer, hseg, hrm, ← hlen, Instr.toRecord, movSregRmRecord, movRmSregRecord, pairRecord, Width.bit]

/-! ## The immediate, accumulator and address opcodes (R76, R77) -/

theorem takeImm_width {w : Bool} {bs : List Byte} {v : Imm} {rest : List Byte}
    (h : takeImm w bs = some (v, rest)) : v.width = Width.ofBit w := by
  obtain ⟨rfl, -⟩ := takeImm_some h
  cases v <;> rfl

theorem takeGroupImm_width {s w : Bool} {bs : List Byte} {v : GroupImm} {rest : List Byte}
    (h : takeGroupImm s w bs = some (v, rest)) : v.width = Width.ofBit w := by
  obtain ⟨-, rfl, -⟩ := takeGroupImm_some h
  cases v <;> rfl

/-- Opcodes 80 to 83 with the reg field of a row (R80 to R82). -/
theorem recordOf_group {f : Form} {op : OpKind} {mk : Rm → GroupImm → Instr} {n : Nat}
    (hf : ∀ b bs, decodeForm f b bs = (takeRmGroupImm b bs).map fun p => (mk p.1.1 p.1.2, p.2))
    (hmk : ∀ rm v, (mk rm v).toRecord = rmGroupRecord op rm v)
    (hr : { form := f, match0 := 0x80, mask0 := 0xFC, match1 := (BitVec.ofNat 3 n).setWidth 8 <<< 3,
            mask1 := 0x38 } ∈ rows)
    {b1 : Byte} (hn : b1.toNat / 8 % 8 = n) {disp : List Byte} (hd : disp.length = modRmDispCount b1)
    {s w : Bool} {bs rest : List Byte} {v : GroupImm} (hv : takeGroupImm s w bs = some (v, rest))
    {x : Int} (hx : v.operand = .imm x) :
    recordOf (opDW 0x80 s w :: b1 :: (disp ++ bs)) =
      some ({ op := op, operands := [modRmOperand w b1 (disp.getD 0 0) (disp.getD 1 0), .imm x],
              wide := w, length := 2 + v.length + disp.length }, rest) := by
  obtain ⟨h0, hs, hw⟩ := opDW_fields 0x80 s w (by decide)
  obtain ⟨rm, hrm, hop, hlen⟩ := takeModRm_disp hd bs
  rw [recordOf_of_accepts (bs := b1 :: (disp ++ bs)) hr
    (Row.accepts_iff.2 ⟨h0, and_regMask_of_toNat (b := b1) hn⟩), hf, takeRmGroupImm, hrm, hs, hw]
  simp [hv, hmk, rmGroupRecord, pairRecord, takeGroupImm_width hv, hop, hlen, hx, Nat.add_right_comm]

/-- MOV-rm-imm, opcodes C6 and C7 (R79). -/
theorem recordOf_movRmImm {b1 : Byte} (hn : b1.toNat / 8 % 8 = 0) {disp : List Byte}
    (hd : disp.length = modRmDispCount b1) {w : Bool} {bs rest : List Byte} {v : Imm}
    (hv : takeImm w bs = some (v, rest)) {x : Int} (hx : v.operand = .imm x) :
    recordOf (opW 0xC6 w :: b1 :: (disp ++ bs)) =
      some ({ op := .mov, operands := [modRmOperand w b1 (disp.getD 0 0) (disp.getD 1 0), .imm x],
              wide := w, length := 2 + v.length + disp.length }, rest) := by
  obtain ⟨h0, hw⟩ := opW_fields 0xC6 w (by decide)
  obtain ⟨rm, hrm, hop, hlen⟩ := takeModRm_disp hd bs
  rw [recordOf_of_accepts (bs := b1 :: (disp ++ bs))
    (r := { form := .movRmImm, match0 := 0xC6, mask0 := 0xFE, match1 := 0x00, mask1 := 0x38 }) (by decide)
    (Row.accepts_iff.2 ⟨h0, and_regMask_of_toNat (b := b1) hn⟩), decodeForm, hrm, hw]
  simp [hv, Instr.toRecord, movRmImmRecord, pairRecord, takeImm_width hv, hop, hlen, hx, Nat.add_right_comm]

theorem registerOperand_acc (w : Bool) : registerOperand w 0 = accOperand (Width.ofBit w) := by
  cases w <;> rfl

/-- The accumulator with an immediate (R80 to R82). -/
theorem recordOf_accImm {f : Form} {op : OpKind} {base : Byte} {mk : Imm → Instr}
    (hf : ∀ b bs, decodeForm f b bs = (takeImm (b.getLsbD 0) bs).map fun p => (mk p.1, p.2))
    (hmk : ∀ v, (mk v).toRecord = accImmRecord op v) (hb : base &&& 0xFE = base)
    (hr : { form := f, match0 := base, mask0 := 0xFE } ∈ rows) {w : Bool} {bs rest : List Byte} {v : Imm}
    (hv : takeImm w bs = some (v, rest)) {x : Int} (hx : v.operand = .imm x) :
    recordOf (opW base w :: bs) =
      some ({ op := op, operands := [registerOperand w 0, .imm x], wide := w, length := 1 + v.length },
        rest) := by
  obtain ⟨h0, hw⟩ := opW_fields base w hb
  rw [recordOf_of_accepts hr (Row.accepts_iff.2 ⟨h0, by simp⟩), hf, hw, hv]
  simp [hmk, accImmRecord, pairRecord, takeImm_width hv, registerOperand_acc, hx]

/-- MOV-r-imm: the register's number is in the opcode byte (R79). -/
theorem recordOf_movRegImm {b0 : Byte} {n : Nat} {w : Bool} (hb : b0 &&& 0xF0 = 0xB0 ∧ b0.getLsbD 3 = w ∧
      (b0.extractLsb' 0 3).toNat = n) {bs rest : List Byte} {v : Imm}
    (hv : takeImm w bs = some (v, rest)) {x : Int} (hx : v.operand = .imm x) :
    recordOf (b0 :: bs) =
      some ({ op := .mov, operands := [registerOperand w n, .imm x], wide := w, length := 1 + v.length },
        rest) := by
  obtain ⟨h0, hw, rfl⟩ := hb
  rw [recordOf_of_accepts (r := { form := .movRegImm, match0 := 0xB0, mask0 := 0xF0 }) (by decide)
    (Row.accepts_iff.2 ⟨h0, by simp⟩), decodeForm, hw, hv, registerOperand_toNat]
  simp [Instr.toRecord, movRegImmRecord, pairRecord, takeImm_width hv, hx]

/-- The opcodes B0 to BF. -/
theorem movRegImm_opcodes : ∀ n < 8,
    (BitVec.ofNat 8 (0xB0 + n) &&& 0xF0 = 0xB0 ∧ (BitVec.ofNat 8 (0xB0 + n)).getLsbD 3 = false ∧
      ((BitVec.ofNat 8 (0xB0 + n)).extractLsb' 0 3).toNat = n) ∧
    (BitVec.ofNat 8 (0xB8 + n) &&& 0xF0 = 0xB0 ∧ (BitVec.ofNat 8 (0xB8 + n)).getLsbD 3 = true ∧
      ((BitVec.ofNat 8 (0xB8 + n)).extractLsb' 0 3).toNat = n) := by
  decide

/-- MOV between the accumulator and an address (R79). -/
theorem recordOf_addr {f : Form} {base : Byte} {mk : Width → Word → Instr}
    (hf : ∀ b bs, decodeForm f b bs =
      (takeWord bs).map fun p => (mk (Width.ofBit (b.getLsbD 0)) p.1, p.2))
    (hb : base &&& 0xFE = base) (hr : { form := f, match0 := base, mask0 := 0xFE } ∈ rows) (w : Bool)
    (lo hi : Byte) (rest : List Byte) :
    recordOf (opW base w :: lo :: hi :: rest) =
      some ((mk (Width.ofBit w) (wordOf lo hi)).toRecord, rest) := by
  obtain ⟨h0, hw⟩ := opW_fields base w hb
  rw [recordOf_of_accepts hr (Row.accepts_iff.2 ⟨h0, by simp⟩), hf, hw, takeWord, Option.map_some,
    Option.map_some]

theorem wordOf_cast (lo hi : Byte) : ((wordOf lo hi).toNat : Int) = (hi.toNat : Int) * 256 + lo.toNat := by
  rw [toNat_wordOf]
  push_cast
  rfl

/-- Opcodes 80 to 83 in the four cases of `sw` (R77). -/
theorem recordOf_groupOpcodes {f : Form} {op : OpKind} {mk : Rm → GroupImm → Instr} {n : Nat}
    (hf : ∀ b bs, decodeForm f b bs = (takeRmGroupImm b bs).map fun p => (mk p.1.1 p.1.2, p.2))
    (hmk : ∀ rm v, (mk rm v).toRecord = rmGroupRecord op rm v)
    (hr : { form := f, match0 := 0x80, mask0 := 0xFC, match1 := (BitVec.ofNat 3 n).setWidth 8 <<< 3,
            mask1 := 0x38 } ∈ rows)
    {b1 : Byte} (hn : b1.toNat / 8 % 8 = n) {disp : List Byte} (hd : disp.length = modRmDispCount b1)
    (i0 i1 : Byte) (rest : List Byte) :
    let rm (w : Bool) : Operand := modRmOperand w b1 (disp.getD 0 0) (disp.getD 1 0)
    let long (b0 : Byte) := recordOf (b0 :: b1 :: (disp ++ i0 :: i1 :: rest))
    let short (src : Int) (wide : Bool) : Record :=
      { op := op, operands := [rm wide, .imm src], wide := wide, length := 3 + disp.length }
    long 0x80 = some (short i0.toNat false, i1 :: rest) ∧
    long 0x81 = some ({ op := op, operands := [rm true, .imm ((i1.toNat : Int) * 256 + i0.toNat)],
                        wide := true, length := 4 + disp.length }, rest) ∧
    long 0x82 = some (short i0.toNat false, i1 :: rest) ∧
    long 0x83 = some (short (signed8 i0.toNat) true, i1 :: rest) :=
  ⟨recordOf_group hf hmk hr hn hd (s := false) (w := false) (v := .byte false i0) rfl rfl,
    recordOf_group hf hmk hr hn hd (s := false) (w := true) (v := .word (wordOf i0 i1)) rfl
      (congrArg Operand.imm (wordOf_cast i0 i1)),
    recordOf_group hf hmk hr hn hd (s := true) (w := false) (v := .byte true i0) rfl rfl,
    recordOf_group hf hmk hr hn hd (s := true) (w := true) (v := .signed i0) rfl
      (congrArg Operand.imm (sint8_eq i0))⟩

/-- Settles O10, opcode by opcode: each is its row's opcode bits with the bits of its fields. -/
theorem immediateAssembly : Obligations.ImmediateAssembly := by
  unfold Obligations.ImmediateAssembly
  intro b1 i0 i1 disp rest hd one two rm acc long short narrow wide
  have hbyte : takeImm false (i0 :: i1 :: rest) = some (.byte i0, i1 :: rest) := rfl
  have hword : takeImm true (i0 :: i1 :: rest) = some (.word (wordOf i0 i1), rest) := rfl
  have hone : (Imm.byte i0).operand = .imm one := rfl
  have htwo : (Imm.word (wordOf i0 i1)).operand = .imm two := congrArg Operand.imm (wordOf_cast i0 i1)
  have accImm : ∀ {f op} {mk : Imm → Instr} {base : Byte},
      (∀ b bs, decodeForm f b bs = (takeImm (b.getLsbD 0) bs).map fun p => (mk p.1, p.2)) →
      (∀ v, (mk v).toRecord = accImmRecord op v) → base &&& 0xFE = base →
      { form := f, match0 := base, mask0 := 0xFE } ∈ rows →
      short (opW base false) = narrow op (acc false) (.imm one) 2 ∧
      short (opW base true) = wide op (acc true) (.imm two) 3 := fun hf hmk hb hr =>
    ⟨recordOf_accImm hf hmk hb hr hbyte hone, recordOf_accImm hf hmk hb hr hword htwo⟩
  obtain ⟨h04, h05⟩ := accImm (f := .addAccImm) (base := 0x04) (fun _ _ => rfl) (fun _ => rfl) (by decide)
    (by decide)
  obtain ⟨h2C, h2D⟩ := accImm (f := .subAccImm) (base := 0x2C) (fun _ _ => rfl) (fun _ => rfl) (by decide)
    (by decide)
  obtain ⟨h3C, h3D⟩ := accImm (f := .cmpAccImm) (base := 0x3C) (fun _ _ => rfl) (fun _ => rfl) (by decide)
    (by decide)
  have hload := fun w => recordOf_addr (f := .movAccMem) (mk := .movAccMem) (base := 0xA0) (fun _ _ => rfl)
    (by decide) (by decide) w i0 i1 rest
  have hstore := fun w => recordOf_addr (f := .movMemAcc) (mk := .movMemAcc) (base := 0xA2) (fun _ _ => rfl)
    (by decide) (by decide) w i0 i1 rest
  simp only [Instr.toRecord, movAccMemRecord, movMemAccRecord, directOperand, wordOf_cast] at hload hstore
  refine ⟨fun n op hmem hn => ?_, fun hn => ⟨recordOf_movRmImm hn hd (w := false) hbyte hone,
    recordOf_movRmImm hn hd (w := true) hword htwo⟩, h04, h05, h2C, h2D, h3C, h3D, fun n hn => ?_,
    hload false, hload true, hstore false, hstore true⟩
  · simp only [List.mem_cons, Prod.mk.injEq, List.not_mem_nil, or_false] at hmem
    obtain ⟨rfl, rfl⟩ | ⟨rfl, rfl⟩ | ⟨rfl, rfl⟩ := hmem
    · exact recordOf_groupOpcodes (f := .addRmImm) (fun _ _ => rfl) (fun _ _ => rfl) (by decide) hn hd ..
    · exact recordOf_groupOpcodes (f := .subRmImm) (fun _ _ => rfl) (fun _ _ => rfl) (by decide) hn hd ..
    · exact recordOf_groupOpcodes (f := .cmpRmImm) (fun _ _ => rfl) (fun _ _ => rfl) (by decide) hn hd ..
  · obtain ⟨hB0, hB8⟩ := movRegImm_opcodes n hn
    exact ⟨recordOf_movRegImm hB0 hbyte hone, recordOf_movRegImm hB8 hword htwo⟩

/-! ## Branches and samples (R78 to R83) -/

/-- Settles O7: the operand is `sint8` of the byte after the opcode. -/
theorem relativeDisplacementIsSignedByte : Obligations.RelativeDisplacementIsSignedByte := by
  unfold Obligations.RelativeDisplacementIsSignedByte
  intro r8 rest rel record
  have hrel : sint8 r8 = rel := sint8_eq r8
  refine ⟨?_, ?_, ?_, ?_⟩
  · rw [decodeRest_branch (f := .je) (mk := .je) (fun _ _ => rfl) (by decide)]
    simp [Instr.toRecord, relRecord, record, hrel]
  · rw [decodeRest_branch (f := .jne) (mk := .jne) (fun _ _ => rfl) (by decide)]
    simp [Instr.toRecord, relRecord, record, hrel]
  · rw [decodeRest_branch (f := .loop) (mk := .loop) (fun _ _ => rfl) (by decide)]
    simp [Instr.toRecord, relRecord, record, hrel]
  · have := r8.isLt
    show -128 ≤ (if r8.toNat < 128 then (r8.toNat : Int) else (r8.toNat : Int) - 256) ∧
      (if r8.toNat < 128 then (r8.toNat : Int) else (r8.toNat : Int) - 256) ≤ 127
    split_ifs <;> omega

/-- Settles O6: each word is decoded by evaluation. -/
theorem decodeSampleWords : Obligations.DecodeSampleWords := by
  unfold Obligations.DecodeSampleWords
  decide

/-! ## The length (R84) -/

theorem encode_length (i : Instr) : (encode i).length = i.toRecord.length := by
  cases i with
  | movRmReg d w reg rm => exact Laws.EncodedLength.movRmReg d w reg rm
  | movRmImm rm v => exact Laws.EncodedLength.movRmImm rm v
  | movRegImm reg v => exact Laws.EncodedLength.movRegImm reg v
  | movAccMem w a => exact Laws.EncodedLength.movAccMem w a
  | movMemAcc w a => exact Laws.EncodedLength.movMemAcc w a
  | movSregRm g rm => exact Laws.EncodedLength.movSregRm g rm
  | movRmSreg rm g => exact Laws.EncodedLength.movRmSreg rm g
  | addRmReg d w reg rm => exact Laws.EncodedLength.addRmReg d w reg rm
  | addRmImm rm v => exact Laws.EncodedLength.addRmImm rm v
  | addAccImm v => exact Laws.EncodedLength.addAccImm v
  | subRmReg d w reg rm => exact Laws.EncodedLength.subRmReg d w reg rm
  | subRmImm rm v => exact Laws.EncodedLength.subRmImm rm v
  | subAccImm v => exact Laws.EncodedLength.subAccImm v
  | cmpRmReg d w reg rm => exact Laws.EncodedLength.cmpRmReg d w reg rm
  | cmpRmImm rm v => exact Laws.EncodedLength.cmpRmImm rm v
  | cmpAccImm v => exact Laws.EncodedLength.cmpAccImm v
  | je rel => exact Laws.EncodedLength.je rel
  | jne rel => exact Laws.EncodedLength.jne rel
  | loop rel => exact Laws.EncodedLength.loop rel

/-- D of R84 is read off the ModRM byte. -/
theorem modRmDispCount_encode (reg : BitVec 3) {rm : Rm} (h : rm.encodable = true) :
    modRmDispCount (rm.modBits ++ reg ++ rm.rmBits : BitVec 8) = rm.dispLength := by
  obtain ⟨hmod, -, hrm⟩ := modRm_fields rm.modBits reg rm.rmBits
  rw [modRmDispCount, ← modField_toNat, ← rmField_toNat, hmod, hrm]
  rcases rm with n | a | ⟨f, _ | d | d⟩
  · rfl
  · rfl
  · cases f with
    | bp => cases h
    | _ => rfl
  · rfl
  · rfl

theorem dispLength_le (rm : Rm) : rm.dispLength ≤ 2 := by
  rcases rm with n | a | ⟨f, _ | d | d⟩ <;> simp [Rm.dispLength]

/-- R84 for a length and the first two bytes. -/
def LengthCounted (n : Nat) (b0 b1 : Byte) : Prop :=
  n = 1 + modRmCount b0 + dispCount b0 b1 + immCount b0 ∧ 2 ≤ n ∧ n ≤ 6

/-- With a ModRM byte the displacement bytes are its, and at most two immediate bytes follow. -/
theorem lengthCounted_modRm {b0 : Byte} {k : Nat} (hb0 : b0 ∈ modRmOpcodes ∧ immCount b0 = k ∧ k ≤ 2)
    (reg : BitVec 3) {rm : Rm} (h : rm.encodable = true) {n : Nat} (hn : n = 2 + rm.dispLength + k) :
    LengthCounted n b0 (rm.modBits ++ reg ++ rm.rmBits) := by
  obtain ⟨hmem, himm, hk⟩ := hb0
  have hlen := dispLength_le rm
  have hcon : modRmOpcodes.contains b0 = true := List.contains_iff_mem.2 hmem
  have hD : dispCount b0 (rm.modBits ++ reg ++ rm.rmBits) = rm.dispLength := by
    rw [dispCount, if_pos hcon, modRmDispCount_encode reg h]
  have hM : modRmCount b0 = 1 := if_pos hcon
  exact ⟨by omega, by omega, by omega⟩

/-- Without one, the opcode alone counts one to two bytes of address or immediate. -/
theorem lengthCounted_opcode {b0 b1 : Byte} {k : Nat} (hb0 : b0 ∉ modRmOpcodes ∧
      (if ([0xA0, 0xA1, 0xA2, 0xA3] : List Byte).contains b0 then 2 else 0) + immCount b0 = k)
    (hk : 1 ≤ k ∧ k ≤ 2) {n : Nat} (hn : n = 1 + k) : LengthCounted n b0 b1 := by
  obtain ⟨hmem, hcount⟩ := hb0
  have hcon : ¬ modRmOpcodes.contains b0 = true := fun h => hmem (List.contains_iff_mem.1 h)
  have hM : modRmCount b0 = 0 := if_neg hcon
  have hD : dispCount b0 b1 = if ([0xA0, 0xA1, 0xA2, 0xA3] : List Byte).contains b0 then 2 else 0 :=
    if_neg hcon
  exact ⟨by omega, by omega, by omega⟩

theorem rmRegRecord_length (op : OpKind) (d : Dir) (w : Width) (reg : RegNum) (rm : Rm) :
    (rmRegRecord op d w reg rm).length = 2 + rm.dispLength := by
  cases d <;> rfl

theorem lengthCounted_rmReg {base : Byte}
    (hb : ∀ d w, opDW base d w ∈ modRmOpcodes ∧ immCount (opDW base d w) = 0 ∧ 0 ≤ 2) (op : OpKind)
    (d : Dir) (w : Width) (reg : RegNum) {rm : Rm} (h : rm.encodable = true) :
    LengthCounted (rmRegRecord op d w reg rm).length (opDW base d.bit w.bit)
      (rm.modBits ++ reg.bits ++ rm.rmBits) :=
  lengthCounted_modRm (hb _ _) _ h (rmRegRecord_length op d w reg rm)

theorem lengthCounted_group (op : OpKind) (ext : BitVec 3) {rm : Rm} (h : rm.encodable = true)
    (v : GroupImm) : LengthCounted (rmGroupRecord op rm v).length (opDW 0x80 v.sBit v.wBit)
      (rm.modBits ++ ext ++ rm.rmBits) := by
  refine lengthCounted_modRm (k := v.length) ?_ ext h rfl
  cases v with
  | byte opc82 _ => cases opc82 <;> simp only [GroupImm.sBit, GroupImm.wBit, GroupImm.length] <;> decide
  | _ => simp only [GroupImm.sBit, GroupImm.wBit, GroupImm.length]; decide

/-- An opcode with an immediate alone: I is 1 without `w` and 2 with it (R77). -/
theorem lengthCounted_imm {opcode : Bool → Byte} (hb : ∀ w, opcode w ∉ modRmOpcodes ∧
      (if ([0xA0, 0xA1, 0xA2, 0xA3] : List Byte).contains (opcode w) then 2 else 0) +
        immCount (opcode w) = if w then 2 else 1) (v : Imm) (b1 : Byte) :
    LengthCounted (1 + v.length) (opcode v.isWord) b1 := by
  cases v with
  | byte _ => exact lengthCounted_opcode (hb false) (by decide) rfl
  | word _ => exact lengthCounted_opcode (hb true) (by decide) rfl

theorem length_counted (i : Instr) (hi : i.wf = true) :
    LengthCounted i.toRecord.length ((encode i).getD 0 0) ((encode i).getD 1 0) := by
  cases i with
  | movRmReg d w reg rm => exact lengthCounted_rmReg (base := 0x88) (by decide) .mov d w reg hi
  | addRmReg d w reg rm => exact lengthCounted_rmReg (base := 0x00) (by decide) .add d w reg hi
  | subRmReg d w reg rm => exact lengthCounted_rmReg (base := 0x28) (by decide) .sub d w reg hi
  | cmpRmReg d w reg rm => exact lengthCounted_rmReg (base := 0x38) (by decide) .cmp d w reg hi
  | addRmImm rm v => exact lengthCounted_group .add 0 hi v
  | subRmImm rm v => exact lengthCounted_group .sub 5 hi v
  | cmpRmImm rm v => exact lengthCounted_group .cmp 7 hi v
  | movRmImm rm v =>
    cases v with
    | byte _ => exact lengthCounted_modRm (b0 := opW 0xC6 false) (k := 1) (by decide) 0 hi rfl
    | word _ => exact lengthCounted_modRm (b0 := opW 0xC6 true) (k := 2) (by decide) 0 hi rfl
  | movRegImm reg v =>
    exact lengthCounted_imm (opcode := fun w => 0xB0 ||| (if w then 8 else 0) ||| reg.bits.setWidth 8)
      (by cases reg <;> decide) v _
  | movAccMem w a =>
    cases w <;> exact lengthCounted_opcode (b0 := opW 0xA0 _) (k := 2) (by decide) (by decide) rfl
  | movMemAcc w a =>
    cases w <;> exact lengthCounted_opcode (b0 := opW 0xA2 _) (k := 2) (by decide) (by decide) rfl
  | movSregRm g rm => exact lengthCounted_modRm (b0 := 0x8E) (k := 0) (by decide) _ hi rfl
  | movRmSreg rm g => exact lengthCounted_modRm (b0 := 0x8C) (k := 0) (by decide) _ hi rfl
  | addAccImm v => exact lengthCounted_imm (opcode := opW 0x04) (by decide) v _
  | subAccImm v => exact lengthCounted_imm (opcode := opW 0x2C) (by decide) v _
  | cmpAccImm v => exact lengthCounted_imm (opcode := opW 0x3C) (by decide) v _
  | je rel => exact lengthCounted_opcode (b0 := 0x74) (k := 1) (by decide) (by decide) rfl
  | jne rel => exact lengthCounted_opcode (b0 := 0x75) (k := 1) (by decide) (by decide) rfl
  | loop rel => exact lengthCounted_opcode (b0 := 0xE2) (k := 1) (by decide) (by decide) rfl

/-- Settles O4: accepted bytes are the encoding of what they decode to, which is as long as the record says
and whose first two bytes give that length. -/
theorem lengthFromOpcodeAndModRm : Obligations.LengthFromOpcodeAndModRm := by
  unfold Obligations.LengthFromOpcodeAndModRm
  refine ⟨fun b0 b1 bs i rest h => ?_, by decide, by decide, by decide, by decide⟩
  obtain ⟨hi, henc⟩ := encodeOfDecode _ i rest h
  obtain ⟨hcount, h2, h6⟩ := length_counted i hi
  rw [← encode_length] at *
  have hget : ∀ k, k < 2 → (encode i).getD k 0 = (b0 :: b1 :: bs).getD k 0 := fun k hk => by
    rw [← henc, List.getD_append _ _ _ _ (Nat.lt_of_lt_of_le hk h2)]
  rw [hget 0 (by omega), hget 1 (by omega)] at hcount
  refine ⟨hcount, h2, h6, ?_, ?_⟩
  · simp [← henc]
  · rw [← henc, List.drop_left]

/-! ## What RD does not recognise (R85) -/

theorem takeImm_isSome (w : Bool) {bs : List Byte} (h : 2 ≤ bs.length) : ∃ p, takeImm w bs = some p := by
  match bs, h with
  | lo :: hi :: bs, _ => cases w <;> exact ⟨_, rfl⟩

theorem takeGroupImm_isSome (s w : Bool) {bs : List Byte} (h : 2 ≤ bs.length) :
    ∃ p, takeGroupImm s w bs = some p := by
  match bs, h with
  | lo :: hi :: bs, _ => cases s <;> cases w <;> exact ⟨_, rfl⟩

/-- Five bytes after the opcode are enough for every form: a ModRM byte, two of displacement and two of
immediate (R84). -/
theorem decodeForm_isSome (f : Form) (b0 b1 b2 b3 b4 b5 : Byte) (rest : List Byte) :
    ∃ p, decodeForm f b0 (b1 :: b2 :: b3 :: b4 :: b5 :: rest) = some p := by
  have hle := modRmDispCount_le b1
  obtain ⟨rm, hrm, -, -⟩ := takeModRm_cons b1 (bs := b2 :: b3 :: b4 :: b5 :: rest)
    (Nat.le_trans hle (by simp))
  have hleft : 2 ≤ ((b2 :: b3 :: b4 :: b5 :: rest).drop (modRmDispCount b1)).length := by
    simp only [List.length_drop, List.length_cons]
    omega
  obtain ⟨v, hv⟩ := takeImm_isSome (b0.getLsbD 0) hleft
  obtain ⟨g, hg⟩ := takeGroupImm_isSome (b0.getLsbD 1) (b0.getLsbD 0) hleft
  obtain ⟨v0, hv0⟩ := takeImm_isSome (b0.getLsbD 0) (bs := b1 :: b2 :: b3 :: b4 :: b5 :: rest) (by simp)
  obtain ⟨v3, hv3⟩ := takeImm_isSome (b0.getLsbD 3) (bs := b1 :: b2 :: b3 :: b4 :: b5 :: rest) (by simp)
  cases f <;> simp only [decodeForm, takeRmReg, takeRmGroupImm, takeWord, takeByte, hrm, hv, hg, hv0, hv3,
    Option.map_some, Option.bind_some, Option.some.injEq, exists_eq']

/-- Every row's opcodes are among those that R79 to R83 list. -/
theorem listed_of_row : ∀ r ∈ rows, ∀ b0 : Byte, b0 &&& r.mask0 = r.match0 → b0 ∈ listedOpcodes := by
  decide

/-- For a listed opcode the reg field decides. -/
theorem rowOf_listed : ∀ b0 ∈ listedOpcodes, ∀ reg : BitVec 3,
    (rowOf b0 (reg.setWidth 8 <<< 3)).isNone = unrecognizedBytes b0 (reg.setWidth 8 <<< 3) := by
  decide

/-- The rows see no more of the ModRM byte than the reg field. -/
theorem rowOf_and_regMask (b0 b1 : Byte) : rowOf b0 (b1 &&& 0x38#8) = rowOf b0 b1 := by
  have hmask : ∀ r ∈ rows, 0x38#8 &&& r.mask1 = r.mask1 := by decide
  refine List.find?_congr fun r hr => ?_
  rw [Row.accepts, BitVec.and_assoc, hmask r hr, Row.accepts]

theorem and_regMask_toNat : ∀ b : Byte, (b &&& 0x38#8).toNat / 8 % 8 = b.toNat / 8 % 8 ∧
    (b &&& 0x38#8).toNat / 32 % 2 = b.toNat / 32 % 2 := by
  decide

theorem unrecognizedBytes_and_regMask (b0 b1 : Byte) :
    unrecognizedBytes b0 (b1 &&& 0x38#8) = unrecognizedBytes b0 b1 := by
  obtain ⟨h8, h32⟩ := and_regMask_toNat b1
  rw [unrecognizedBytes, unrecognizedBytes, h8, h32]

theorem rowOf_eq_none_iff (b0 b1 : Byte) : rowOf b0 b1 = none ↔ unrecognizedBytes b0 b1 = true := by
  by_cases hb0 : b0 ∈ listedOpcodes
  · have h := rowOf_listed b0 hb0 (b1.extractLsb' 3 3)
    rw [← and_regMask, rowOf_and_regMask, unrecognizedBytes_and_regMask] at h
    rw [← h, Option.isNone_iff_eq_none]
  · have hc : listedOpcodes.contains b0 = false := by simpa using hb0
    have hnone : rowOf b0 b1 = none := List.find?_eq_none.2 fun r hr ha =>
      hb0 (listed_of_row r hr b0 (Row.accepts_iff.1 ha).1)
    simp only [hnone, unrecognizedBytes, hc, Bool.not_false, Bool.true_or]

theorem decodeRest_eq_none_iff (b0 b1 b2 b3 b4 b5 : Byte) (rest : List Byte) :
    decodeRest (b0 :: b1 :: b2 :: b3 :: b4 :: b5 :: rest) = none ↔ unrecognizedBytes b0 b1 = true := by
  rw [← rowOf_eq_none_iff, decodeRest, List.headD_cons]
  cases hr : rowOf b0 b1 with
  | none => simp
  | some r =>
    obtain ⟨p, hp⟩ := decodeForm_isSome r.form b0 b1 b2 b3 b4 b5 rest
    simp [hp]

/-- Settles O5: no row accepts the listed patterns and every row's form reads six bytes; the step on such
bytes takes the decode error; MOV to CS completes as any MOV (30_encoding.md R85). -/
theorem unrecognizedSetHalts : Obligations.UnrecognizedSetHalts := by
  unfold Obligations.UnrecognizedSetHalts
  refine ⟨decodeRest_eq_none_iff, fun s hrun hvalid hbytes => ?_, fun rm s => ?_⟩
  · have hnone : decode (fetch s) = none := by
      rw [decode, Option.map_eq_none_iff]
      exact (decodeRest_eq_none_iff ..).2 hbytes
    exact ⟨_, step_decodeError (stopReason_none.2 ⟨hrun, hvalid⟩) hnone, rfl⟩
  · refine ⟨_, exec_eq (.movSregRm .cs rm) s, ?_⟩
    rw [complete_mov (toRecord_wf _) s rfl, endTest_readWord]
    exact State.readWord_writeWord_same _ _ _

end Sys2Proof
end

section
/-! PROOFS. The statements about memory, operands and the region's queries (20_memory.md, 60_exceptions.md
R133). -/

namespace Sys2Proof.Machine

/-! ## Addresses and bytes (20_memory.md section 1) -/

/-- Settles O15: the reduction is a remainder, which is also what a two's complement word of SizePow2 bits
keeps; byte accesses see the address through it alone. -/
theorem addressReduction : Obligations.AddressReduction := by
  unfold Obligations.AddressReduction
  intro s a b v
  refine ⟨s.reduce_cast a, (BitVec.toNat_ofInt a).symm, fun h => ⟨?_, ?_⟩⟩
  · rw [State.byteAt, h, State.byteAt]
  · rw [State.setByteAt, h, State.setByteAt]

theorem toNat_memRead_byte (s : State) (a : Int) : (s.memRead a .byte).toNat = (s.byteAt a).toNat := by
  have := (s.byteAt a).isLt
  simp only [State.memRead, BitVec.toNat_setWidth]
  omega

theorem toNat_memRead_word (s : State) (a : Int) :
    (s.memRead a .word).toNat = (s.byteAt a).toNat + 256 * (s.byteAt (a + 1)).toNat := by
  rw [State.memRead, toNat_wordOf]
  omega

/-- Settles O16: reads and writes take their bytes at addresses reduced one by one, and the address past the
top is a multiple of the region's size. -/
theorem memoryReadAndWrite : Obligations.MemoryReadAndWrite := by
  unfold Obligations.MemoryReadAndWrite
  intro s a x v hm
  refine ⟨toNat_memRead_byte s a, toNat_memRead_word s a, ?_, ?_, by simp [State.reduce]⟩
  · rw [State.byteAt_memWrite_byte hm, apply_ite BitVec.toNat, toNat_loByte]
  · rw [State.byteAt_memWrite_word hm, apply_ite BitVec.toNat, apply_ite BitVec.toNat, toNat_loByte,
      toNat_hiByte]

/-! ## The code view (20_memory.md R41, R49) -/

theorem codeAt_eq_get (s : State) (k : Nat) :
    codeAt s k = Memory.get s.mem (s.baseAddress (s.ip.toNat + k)) := by
  rw [codeAt, State.byteAt, State.baseAddress, Int.add_assoc]

/-- Settles O20: the code view reads memory at its base address, and a store leaves `ip`. -/
theorem fetchSeesStores : Obligations.FetchSeesStores := by
  unfold Obligations.FetchSeesStores
  intro s a v k hm
  have haddr : (s.setByteAt a v).baseAddress ((s.setByteAt a v).ip.toNat + k) =
      s.baseAddress (s.ip.toNat + k) := rfl
  rw [codeAt_eq_get, haddr]
  exact Memory.get_set hm _ _ v

/-- Settles O59: each query is read off its definition. -/
theorem regionQueriesAndDump : Obligations.RegionQueriesAndDump := by
  unfold Obligations.RegionQueriesAndDump
  intro s k
  refine ⟨rfl, s.reduce_cast _, codeAt_eq_get s k, ?_, fun hk => ?_, fun name => ⟨rfl, rfl⟩⟩
  · rw [memoryDump, List.length_map, List.length_range, State.memSize]
  · have hlt : k < s.memSize := by
      have := s.memSize_pos
      rw [State.highestAddress] at hk
      omega
    rw [memoryDump, List.getElem?_map, List.getElem?_range hlt, Option.map_some]

/-! ## Operands (20_memory.md section 5) -/

/-- The mask of a width keeps that many low bytes (20_memory.md R53, R59). -/
theorem toNat_and_widthMask (v : Word) (w : Width) :
    (v &&& widthMask w).toNat = v.toNat % if w = .byte then 256 else 65536 := by
  cases w
  · exact Nat.and_two_pow_sub_one_eq_mod v.toNat 8
  · exact Nat.and_two_pow_sub_one_eq_mod v.toNat 16

/-- The value of a register access (20_memory.md R53). -/
theorem toNat_accessValue (s : State) (a : RegAccess) :
    (accessValue s a).toNat =
      (s.readWord a.slot).toNat / 256 ^ a.offset.val % if a.count = .byte then 256 else 65536 := by
  rw [accessValue, toNat_and_widthMask, BitVec.toNat_ushiftRight, Nat.shiftRight_eq_div_pow, Nat.pow_mul]

/-- Settles O17: the fold of zero, one and two terms, with the value of each by `toNat_accessValue`. -/
theorem effectiveAddressFold : Obligations.EffectiveAddressFold := by
  unfold Obligations.EffectiveAddressFold
  intro s t1 t2 d value
  have hvalue : ∀ t : Term, ((accessValue s t.reg).toNat : Int) = value t := by
    intro t
    have hlt : (s.readWord t.reg.slot).toNat / 256 ^ t.reg.offset.val < 65536 :=
      Nat.lt_of_le_of_lt (Nat.div_le_self _ _) (s.readWord t.reg.slot).isLt
    rw [toNat_accessValue]
    by_cases hc : t.reg.count = .byte
    · simp only [value, hc, if_true]
    · simp only [value, hc, if_false, Nat.mod_eq_of_lt hlt]
  refine ⟨by simp [effectiveAddress], ?_, ?_⟩ <;>
    simp only [effectiveAddress, List.foldl_cons, List.foldl_nil, foldTerm, hvalue] <;> split_ifs <;> ring

/-- No term of RD names a segment slot (30_encoding.md R73). -/
theorem terms_slot_ne_seg (f : BaseForm) (g : SegNum) : ∀ t ∈ f.terms, t.reg.slot ≠ g.access.slot := by
  cases f <;> cases g <;> decide

theorem segSlot_ne_ip (g : SegNum) : Slot.ip ≠ g.access.slot := by cases g <;> decide

/-- Settles O18: RD's memory operands name no segment slot and the fetch reads `ip` and memory alone; the
resolver takes no notice of the segment field. -/
theorem segmentsTakeNoPartInAddressing : Obligations.SegmentsTakeNoPartInAddressing := by
  unfold Obligations.SegmentsTakeNoPartInAddressing
  refine ⟨fun s g v w rm k hrm => ⟨resolve_congr w _ fun ts d seg ho t ht _ => ?_, ?_⟩,
    fun s w ts d g g' => rfl⟩
  · cases rm with
    | reg n => exact absurd rfl (hrm n)
    | direct a =>
      obtain ⟨rfl, -⟩ := Operand.mem.inj ho
      cases ht
    | based f disp =>
      obtain ⟨rfl, -⟩ := Operand.mem.inj ho
      exact State.readWord_writeWord_ne s v (terms_slot_ne_seg f g t ht)
  · have hip : (s.writeWord g.access.slot v).ip = s.ip :=
      State.readWord_writeWord_ne s v (segSlot_ne_ip g)
    rw [codeAt, hip]
    exact State.byteAt_congr rfl rfl _

theorem toNat_ofInt_word (v : Int) : ((BitVec.ofInt 16 v).toNat : Int) = v % 65536 := by
  rw [BitVec.toNat_ofInt]
  omega

/-- Settles O19: the cell is the low word of the literal, read through the mask of the width. -/
theorem immediateCell : Obligations.ImmediateCell := by
  unfold Obligations.ImmediateCell
  intro s v
  have hcell := toNat_ofInt_word v
  have hlt := (BitVec.ofInt 16 v).isLt
  rw [resolve, readLoc, resolve, readLoc, toNat_and_widthMask, toNat_and_widthMask, if_neg (by decide),
    if_pos rfl]
  omega

/-- Settles O60: what each kind of location reads as. -/
theorem operandLocationsAndReads : Obligations.OperandLocationsAndReads := by
  unfold Obligations.OperandLocationsAndReads
  intro s w cnt i off ts d a g c
  have hbyte : (accessValue s ⟨i, off, .byte⟩).toNat = (s.readByte i off).toNat := by
    rw [toNat_accessValue, if_pos rfl]
    obtain rfl | rfl : off = 0 ∨ off = 1 := by omega
    · rw [State.readByte_lo, toNat_loByte]
      simp
    · rw [State.readByte_hi, toNat_hiByte]
      have := (s.readWord i).isLt
      show (s.readWord i).toNat / 256 ^ 1 % 256 = _
      omega
  refine ⟨rfl, rfl, ?_, hbyte, toNat_accessValue s ⟨i, off, cnt⟩, toNat_memRead_byte s a,
    toNat_memRead_word s a, toNat_and_widthMask c .byte, ?_⟩
  · apply BitVec.eq_of_toNat_eq
    have := (s.readWord i).isLt
    rw [readLoc, toNat_accessValue, if_neg nofun]
    show (s.readWord i).toNat / 256 ^ 0 % 65536 = _
    omega
  · exact BitVec.and_allOnes

end Sys2Proof.Machine
end

section
/-! PROOFS. The statements about the cycle (40_execution_cycle.md): which record is refused, when a step is
taken and what it runs, the end test, and what a step may change. -/

namespace Sys2Proof.Machine

/-! ## A refusal -/

theorem stepWith_illFormed {D : Decoder} {s : State} {r : Record} {c : WfCheck} (hs : stopReason s = none)
    (hd : D s.ip (codeAt s) = some r) (hc : r.firstFailingCheck = some c) :
    stepWith D s = .refused (.illFormed c) := by
  rw [stepWith_record hs hd, runRecord_illFormed hc]

/-- Settles O12: such an operand fails WF3. -/
theorem byteAccessToWordOnlyRefused : Obligations.ByteAccessToWordOnlyRefused := by
  unfold Obligations.ByteAccessToWordOnlyRefused
  intro D s r i off hrun hvalid hd hk hmem hi
  have hbyte : i.hasBytes = false := by cases i <;> simp_all [Slot.hasBytes, Slot.index]
  have h3 : r.passes .wf3 = false := by
    refine List.all_eq_false.2 ⟨_, List.mem_append_left _ (Record.mem_regOperands.2 hmem), ?_⟩
    simp [RegAccess.byteOk, hbyte]
  obtain ⟨c, hc, hfail⟩ := firstFailingCheck_of_not_wf3 hk h3
  exact ⟨c, hc, stepWith_illFormed (stopReason_none.2 ⟨hrun, hvalid⟩) hd hfail⟩

/-- Settles O48: the first failing check is where the search stops; RD's records are those of
`toRecord_wf`. -/
theorem illFormedRecordRefused : Obligations.IllFormedRecordRefused := by
  unfold Obligations.IllFormedRecordRefused
  refine ⟨fun D s r c hrun hvalid hd hc => ?_, fun bs i rest _ => toRecord_wf i⟩
  obtain ⟨hfail, before, after, hsplit, hbefore⟩ := List.find?_eq_some_iff_append.1 hc
  exact ⟨stepWith_illFormed (stopReason_none.2 ⟨hrun, hvalid⟩) hd hc, by simpa using hfail, before, after,
    hsplit, fun b hb => by simpa using hbefore b hb⟩

/-! ## When a step is taken, and what it runs -/

theorem stopReason_notRunning {s : State} (h : s.status ≠ .running) :
    stopReason s = some (.notRunning s.status) := by
  simp [stopReason, h]

theorem step_instr {s : State} {i : Instr} (hs : stopReason s = none) (hd : decode (fetch s) = some i) :
    step s = exec i s := by
  simp [step, hs, hd]

/-- Settles O39: the six bytes are those that the step fetches. -/
theorem stepRunsDecodedInstruction : Obligations.StepRunsDecodedInstruction := by
  unfold Obligations.StepRunsDecodedInstruction
  intro s i hrun hvalid hd
  exact step_instr (stopReason_none.2 ⟨hrun, hvalid⟩) hd

/-- Settles O42: the step of any decoder, RD among them, faults when it has a reason to stop. -/
theorem haltedStatesAreFinal : Obligations.HaltedStatesAreFinal := by
  unfold Obligations.HaltedStatesAreFinal
  intro s hs
  have hall : ∀ D : Decoder, stepWith D s = .fault (.notRunning s.status) := fun D =>
    stepWith_fault_iff.2 (stopReason_notRunning hs)
  exact ⟨(stepIsReferenceCycle s).trans (hall rd), hall⟩

/-- RD never answers an ill-formed record (30_encoding.md R69). -/
theorem stepWith_rd_ne_refused (s : State) (e : Refusal) : stepWith rd s ≠ .refused e := by
  intro h
  obtain ⟨-, r, c, hd, hc, -⟩ := stepWith_refused_iff.1 h
  obtain ⟨i, -, rfl⟩ := Option.map_eq_some_iff.1 ((rd_codeAt s).symm.trans hd)
  rw [toRecord_wf i] at hc
  cases hc

/-- Settles O43: an instruction completes and a decode error is a next state; the step is that of RD. -/
theorem runningMachineSteps : Obligations.RunningMachineSteps := by
  unfold Obligations.RunningMachineSteps
  refine ⟨fun s hrun hvalid => ?_, fun s e => stepIsReferenceCycle s ▸ stepWith_rd_ne_refused s e⟩
  have hs : stopReason s = none := stopReason_none.2 ⟨hrun, hvalid⟩
  cases hd : decode (fetch s) with
  | none => exact ⟨_, step_decodeError hs hd⟩
  | some i => exact ⟨_, (step_instr hs hd).trans (exec_eq i s)⟩

theorem complete_status {s : State} (hrun : s.status = .running) (r : Record) :
    (complete r (recordBody r) s).status =
      if s.cfg.endLimit ≤ (complete r (recordBody r) s).ip.toNat then .haltedEndOfCode else .running := by
  obtain ⟨-, -, hstatus⟩ := complete_fixed r s
  rw [hstatus, hrun]

/-- Settles O45: every next state but a decode error's is that of a completed record. -/
theorem endTestAfterEveryStep : Obligations.EndTestAfterEveryStep := by
  unfold Obligations.EndTestAfterEveryStep
  refine ⟨fun D s t r ht hd => ?_, fun i s t hrun ht => ?_⟩
  · obtain ⟨hrun, -, ⟨hnone, -⟩ | ⟨r', -, -, rfl⟩⟩ := stepWith_next ht
    · simp [hd] at hnone
    · exact complete_status hrun r'
  · obtain rfl := Host.Outcome.next.inj ((exec_eq i s).symm.trans ht)
    exact complete_status hrun i.toRecord

/-- Settles O47: the body reports the operation, and touches nothing else. -/
theorem unhandledIsSteppedOver : Obligations.UnhandledIsSteppedOver := by
  unfold Obligations.UnhandledIsSteppedOver
  intro D s r name hrun hvalid hd hop hlen
  have hs : stopReason s = none := stopReason_none.2 ⟨hrun, hvalid⟩
  have hwf : r.firstFailingCheck = none := (firstFailingCheck_other hop).2 hlen
  have hstep : stepWith D s = .next (complete r (recordBody r) s) := by
    rw [stepWith_record hs hd, runRecord_wf hwf]
  have hbody : recordBody r = otherBody r := by simp only [recordBody, hop]
  obtain ⟨hvalid', hcfg, -⟩ := complete_fixed r s
  refine ⟨_, hstep, ?_, complete_ip_seq hwf s (by simp [hop]), fun j hj => ?_, ?_, hvalid', hcfg,
    complete_status hrun r⟩
  · simp [complete_trace, hbody, otherBody]
  · exact complete_readWord_ne hwf s hj (by simp [hop]) (by simp [hop]) (by simp [hop])
  · simp [complete_mem, hbody, otherBody]

/-! ## What a step changes -/

/-- Settles O13: the slots that `complete_readWord_ne` lets change. -/
theorem registersChangeOnlyAsDestination : Obligations.RegistersChangeOnlyAsDestination := by
  unfold Obligations.RegistersChangeOnlyAsDestination
  intro D s t j ht hip hfl hne
  obtain ⟨-, -, ⟨-, rfl⟩ | ⟨r, hd, hwf, rfl⟩⟩ := stepWith_next ht
  · exact absurd rfl hne
  refine ⟨fun hj => hne (hj ▸ complete_readWord_none hwf s), r, hd, ?_⟩
  by_contra hcon
  obtain ⟨hdst, hloop⟩ := not_or.1 hcon
  exact hne (complete_readWord_ne hwf s hip (fun _ => hfl)
    (fun hm => Bool.eq_false_iff.2 fun hin => hdst ⟨hm, hin⟩) fun hl hc => hloop ⟨hl, hc⟩)

/-- Settles O14: every other kind, and a decode error, keeps the FLAGS slot. -/
theorem onlyArithmeticWritesFlags : Obligations.OnlyArithmeticWritesFlags := by
  unfold Obligations.OnlyArithmeticWritesFlags
  intro D s t ht hne
  obtain ⟨-, -, ⟨-, rfl⟩ | ⟨r, hd, hwf, rfl⟩⟩ := stepWith_next ht
  · exact absurd rfl hne
  · exact ⟨r, hd, Decidable.not_not.1 fun hop => hne (complete_flagsWord_kept hwf s hop)⟩

/-- Settles O21: the bytes that `complete_byteAt_ne` lets change. -/
theorem memoryChangesOnlyAtDestination : Obligations.MemoryChangesOnlyAtDestination := by
  unfold Obligations.MemoryChangesOnlyAtDestination
  intro D s t x ht hne
  obtain ⟨-, -, ⟨-, rfl⟩ | ⟨r, hd, hwf, rfl⟩⟩ := stepWith_next ht
  · exact absurd rfl hne
  refine ⟨r, hd, ?_⟩
  by_contra hcon
  exact hne (complete_byteAt_ne hwf s fun hm => Bool.eq_false_iff.2 fun hcov => hcon ⟨hm, hcov⟩)

end Sys2Proof.Machine
end

section
/-! PROOFS. The statements about the instructions (41_data_movement.md, 42_arithmetic.md,
43_control_transfer.md) and their trace, each from the record that the instruction stands for. -/

namespace Sys2Proof.Machine

/-! ## What a completed record stores and traces -/

theorem storedAt_congr {l : Loc} {v : Word} {s t u : State} (hr : ∀ i, u.readWord i = t.readWord i)
    (hb : ∀ a, u.byteAt a = t.byteAt a) (h : storedAt l v s t) : storedAt l v s u := by
  rcases l with ⟨i, off, _ | _⟩ | ⟨a, _ | _⟩ | _
  case imm => exact h
  all_goals simpa only [storedAt, hr, hb] using h

theorem emitDelta_byteAt (before after : Flags) (s : State) (a : Int) :
    (emitDelta before after s).byteAt a = s.byteAt a :=
  State.byteAt_congr (emitDelta_mem ..) (emitDelta_cfg ..) a

section
variable {r : Record} (h : r.firstFailingCheck = none) (s : State)
include h

/-- MOV, ADD and SUB leave their result at the destination (20_memory.md R60). -/
theorem complete_storedAt (hm : Memory.wf s.mem = true) (hop : r.op ∈ ([.mov, .add, .sub] : List OpKind)) :
    storedAt (resolve r.width (r.operand 0) s) (recordResult r s) s (complete r (recordBody r) s) := by
  have hk : ∀ n, r.op ≠ .other n := fun n hn => by simp [hn] at hop
  have htwo : r.op.isTwoOperand = true := OpKind.isTwoOperand_iff.2 (List.mem_append_left [OpKind.cmp] hop)
  have hslot : ∀ j, (resolve r.width (r.operand 0) s).inSlot j = true → j ≠ .ip ∧ j ≠ .flags :=
    fun j hj => (isOperand_ne (inSlot_isOperand h hk hj)).2
  obtain hop | hop : r.op = .mov ∨ (r.op = .add ∨ r.op = .sub) := by simpa using hop
  · rw [complete_mov h s hop]
    refine storedAt_congr (endTest_readWord _) (endTest_byteAt _) ?_
    exact storedAt_writeLoc _ hm rfl (fun j hj => begin_readWord_ne r s (hslot j hj).1) (dst_ne_imm h htwo s)
  · rw [complete_addSub h s hop]
    refine storedAt_congr (endTest_readWord _) (endTest_byteAt _) ?_
    refine storedAt_congr (emitDelta_readWord _ _ _) (emitDelta_byteAt _ _ _) ?_
    refine storedAt_writeLoc _ hm rfl (fun j hj => ?_) (dst_ne_imm h htwo s)
    rw [State.readWord_setFlags, if_neg (hslot j hj).2, begin_readWord_ne r s (hslot j hj).1]

/-- The trace of the seven kinds: `Exec`, then the flag delta if there is one (40_execution_cycle.md R98,
42_arithmetic.md R108). -/
theorem complete_trace_kind (hk : ∀ n, r.op ≠ .other n) :
    (complete r (recordBody r) s).trace = s.trace ++ .exec r ::
      (if s.flags = (complete r (recordBody r) s).flags then []
        else [.flagsDelta s.flags (complete r (recordBody r) s).flags]) := by
  have kept : r.op ∉ ([.add, .sub, .cmp] : List OpKind) →
      (recordBody r (begin r s)).trace = (begin r s).trace → (complete r (recordBody r) s).trace =
        s.trace ++ .exec r :: (if s.flags = (complete r (recordBody r) s).flags then []
          else [.flagsDelta s.flags (complete r (recordBody r) s).flags]) := by
    intro hop htrace
    rw [complete_flags_kept h s hop, if_pos rfl, complete_trace, htrace, begin_trace]
  cases hop : r.op with
  | other n => exact absurd hop (hk n)
  | add | sub =>
    rw [complete_flags_arith h s (by simp [hop]), complete_addSub h s (by simp [hop])]
    simp [emitDelta_trace]
  | cmp =>
    rw [complete_flags_arith h s (by simp [hop]), complete_cmp h s hop]
    simp [emitDelta_trace]
  | mov =>
    refine kept (by simp [hop]) ?_
    simp only [recordBody, hop, movBody, writeLoc_trace]
  | je | jne | loop =>
    refine kept (by simp [hop]) ?_
    simp only [recordBody, hop, jeBody, jneBody, loopBody, apply_ite State.trace, branchTo_trace,
      State.writeWord_trace, ite_self]

end

/-! ## The branches -/

section
variable {r : Record} (s : State)

/-- The decrement of the LOOP counter (43_control_transfer.md R113). -/
theorem loopBody_readWord_c (rel : Int) : (loopBody rel s).readWord .c = s.readWord .c - 1 := by
  have hip : ∀ t : State, (branchTo rel t).readWord .c = t.readWord .c := fun t =>
    branchTo_readWord_ne rel t (by decide)
  simp only [loopBody, apply_ite (State.readWord · .c), hip, State.readWord_writeWord_same, ite_self]

theorem complete_readWord_c_loop (hop : r.op = .loop) :
    (complete r (recordBody r) s).readWord .c = s.readWord .c - 1 := by
  simp only [complete_readWord, recordBody, hop, loopBody_readWord_c]
  rw [begin_readWord_ne r s (by decide)]

theorem complete_ip_je (hop : r.op = .je) :
    (complete r (recordBody r) s).ip = if s.flags.zf then
      s.ip + BitVec.ofNat 16 r.length + BitVec.ofInt 16 (relOf (r.operand 0))
      else s.ip + BitVec.ofNat 16 r.length := by
  simp only [complete_ip, recordBody, hop, jeBody_ip, begin_flags, begin_ip]

theorem complete_ip_jne (hop : r.op = .jne) :
    (complete r (recordBody r) s).ip = if s.flags.zf then s.ip + BitVec.ofNat 16 r.length
      else s.ip + BitVec.ofNat 16 r.length + BitVec.ofInt 16 (relOf (r.operand 0)) := by
  simp only [complete_ip, recordBody, hop, jneBody_ip, begin_flags, begin_ip]

/-- LOOP branches unless the counter was 1 (43_control_transfer.md R113). -/
theorem complete_ip_loop (hop : r.op = .loop) :
    (complete r (recordBody r) s).ip = if s.readWord .c = 1 then s.ip + BitVec.ofNat 16 r.length
      else s.ip + BitVec.ofNat 16 r.length + BitVec.ofInt 16 (relOf (r.operand 0)) := by
  have hc : (begin r s).readWord .c = s.readWord .c := begin_readWord_ne r s (by decide)
  simp only [complete_ip, recordBody, hop, loopBody_ip, begin_ip, hc, sub_eq_zero]

end

/-- Settles O33: the decoded byte, and the completed LOOP record, whose displacement reduced to a word is the
byte's sign extension. -/
theorem loopDecrementsAndBranches : Obligations.LoopDecrementsAndBranches := by
  unfold Obligations.LoopDecrementsAndBranches
  intro rel s
  refine ⟨?_, _, exec_eq (.loop rel) s, complete_readWord_c_loop s rfl,
    complete_flagsWord_branch (toRecord_wf (.loop rel)) (by simp [Instr.toRecord, relRecord]) s,
    complete_ip_loop s rfl⟩
  rw [decode, decodeRest_branch (f := .loop) (mk := .loop) (fun _ _ => rfl) (by decide), Option.map_some]

/-- An instruction with a displacement byte is one of the three branches. -/
theorem relByte?_eq_some {i : Instr} {rel : Byte} (h : i.relByte? = some rel) :
    i = .je rel ∨ i = .jne rel ∨ i = .loop rel := by
  cases i <;> simp_all [Instr.relByte?]

theorem not_mem_of_branch {op : OpKind} (h : op ∈ ([.je, .jne, .loop] : List OpKind)) :
    op ∉ ([.mov, .add, .sub] : List OpKind) ∧ op ∉ ([.add, .sub, .cmp] : List OpKind) := by
  cases op <;> simp_all

/-- Settles O34: a branch writes no destination and no flag, and LOOP alone writes C. -/
theorem branchFrame : Obligations.BranchFrame := by
  unfold Obligations.BranchFrame
  intro i rel s t hrel ht
  obtain rfl := Host.Outcome.next.inj ((exec_eq i s).symm.trans ht)
  have hwf := toRecord_wf i
  obtain ⟨hop, hloop⟩ : i.toRecord.op ∈ ([.je, .jne, .loop] : List OpKind) ∧
      (i.toRecord.op = .loop → i = .loop rel) := by
    obtain rfl | rfl | rfl := relByte?_eq_some hrel <;> simp [Instr.toRecord, relRecord]
  obtain ⟨hdst, hflags⟩ := not_mem_of_branch hop
  obtain ⟨hvalid, hcfg, -⟩ := complete_fixed i.toRecord s
  exact ⟨fun j hip hc => complete_readWord_ne hwf s hip (fun hm => absurd hm hflags)
      (fun hm => absurd hm hdst) fun hl => hc.resolve_right (not_not_intro (hloop hl)),
    complete_flagsWord_branch hwf hop s, fun x => complete_byteAt_ne hwf s fun hm => absurd hm hdst,
    hvalid, hcfg⟩

/-! ## MOV (41_data_movement.md R100) -/

/-- Settles O22: the result of a MOV record is its source's value. -/
theorem movCopiesWidthBytes : Obligations.MovCopiesWidthBytes := by
  unfold Obligations.MovCopiesWidthBytes
  intro i s hi hm
  have hwf := toRecord_wf i
  have hop := isMov_op hi
  have hresult : recordResult i.toRecord s = readLoc (srcLoc i s) s := by
    simp only [recordResult, hop, operandValue, srcLoc]
  refine ⟨_, exec_eq i s, hresult ▸ complete_storedAt hwf s hm (by simp [hop]),
    complete_flagsWord_kept hwf s (by simp [hop]), ?_, complete_ip_seq hwf s (by simp [hop])⟩
  rw [complete_trace_kind hwf s (toRecord_kind i), complete_flags_kept hwf s (by simp [hop]), if_pos rfl]

/-- Settles O23: a MOV changes no slot and no byte but `ip` and its destination's. -/
theorem movFrame : Obligations.MovFrame := by
  unfold Obligations.MovFrame
  intro i s t hi ht
  obtain rfl := Host.Outcome.next.inj ((exec_eq i s).symm.trans ht)
  have hwf := toRecord_wf i
  have hop := isMov_op hi
  obtain ⟨hvalid, hcfg, -⟩ := complete_fixed i.toRecord s
  exact ⟨fun j hip hj => complete_readWord_ne hwf s hip (by simp [hop]) (fun _ => hj) (by simp [hop]),
    complete_flagsWord_kept hwf s (by simp [hop]), fun x hx => complete_byteAt_ne hwf s fun _ => hx,
    hvalid, hcfg⟩

/-! ## The flags of a sum and of a difference (42_arithmetic.md R101 to R106) -/

theorem evenOnes_mod_256 (n : Nat) : evenOnes (n % 256) = evenOnes n := by
  have hbit : ∀ k ∈ List.range 8, n % 256 / 2 ^ k % 2 = n / 2 ^ k % 2 := by
    intro k hk
    have hk : k < 8 := List.mem_range.1 hk
    interval_cases k <;> omega
  rw [evenOnes, evenOnes, List.map_congr_left hbit]

theorem computeFlags_add (x y : Word) :
    computeFlags (x + y) =
      { pf := evenOnes ((x.toNat + y.toNat) % 256)
        zf := decide ((x.toNat + y.toNat) % 65536 = 0)
        sf := decide (32768 ≤ (x.toNat + y.toNat) % 65536) } := by
  rw [computeFlagsOfWord, BitVec.toNat_add, Nat.mod_mod_of_dvd _ (by decide)]

/-- The value of a difference of words, in integers. -/
theorem toNat_word_sub (x y : Word) : ((x - y).toNat : Int) = ((x.toNat : Int) - y.toNat) % 65536 := by
  rw [BitVec.toNat_sub]
  omega

theorem computeFlags_sub (x y : Word) :
    computeFlags (x - y) =
      { pf := evenOnes (((x.toNat : Int) - y.toNat) % 65536).toNat
        zf := decide (((x.toNat : Int) - y.toNat) % 65536 = 0)
        sf := decide (32768 ≤ ((x.toNat : Int) - y.toNat) % 65536) } := by
  rw [computeFlagsOfWord, ← toNat_word_sub, evenOnes_mod_256, Int.toNat_natCast]
  congr 1 <;> rw [decide_eq_decide] <;> omega

theorem ofInt_sub_toNat (x y : Word) : BitVec.ofInt 16 ((x.toNat : Int) - y.toNat) = x - y := by
  apply BitVec.eq_of_toNat_eq
  rw [← Int.natCast_inj, toNat_ofInt_word, toNat_word_sub]

/-! ## ADD, SUB and CMP (42_arithmetic.md R105 to R107) -/

theorem recordResult_add {r : Record} (hop : r.op = .add) (s : State) :
    recordResult r s = operandValue r 0 s + operandValue r 1 s := by
  simp only [recordResult, hop]

theorem recordResult_sub {r : Record} (hop : r.op = .sub ∨ r.op = .cmp) (s : State) :
    recordResult r s = operandValue r 0 s - operandValue r 1 s := by
  obtain hop | hop := hop <;> simp only [recordResult, hop]

/-- The flags ADD leaves. -/
theorem complete_flags_add {r : Record} (h : r.firstFailingCheck = none) (s : State) (hop : r.op = .add) :
    (complete r (recordBody r) s).flags =
      { pf := evenOnes (((operandValue r 0 s).toNat + (operandValue r 1 s).toNat) % 256)
        zf := decide (((operandValue r 0 s).toNat + (operandValue r 1 s).toNat) % 65536 = 0)
        sf := decide (32768 ≤ ((operandValue r 0 s).toNat + (operandValue r 1 s).toNat) % 65536) } := by
  rw [complete_flags_arith h s (by simp [hop]), recordResult_add hop, computeFlags_add]

/-- The flags SUB and CMP leave. -/
theorem complete_flags_sub {r : Record} (h : r.firstFailingCheck = none) (s : State)
    (hop : r.op = .sub ∨ r.op = .cmp) :
    (complete r (recordBody r) s).flags =
      { pf := evenOnes (((operandValue r 0 s).toNat - (operandValue r 1 s).toNat : Int) % 65536).toNat
        zf := decide (((operandValue r 0 s).toNat - (operandValue r 1 s).toNat : Int) % 65536 = 0)
        sf := decide (32768 ≤ ((operandValue r 0 s).toNat - (operandValue r 1 s).toNat : Int) % 65536) } := by
  rw [complete_flags_arith h s (by obtain hop | hop := hop <;> simp [hop]), recordResult_sub hop,
    computeFlags_sub]

/-- Settles O24: the record's result is the sum of the words, and its flags are those of the sum. -/
theorem addWritesSumAndFlags : Obligations.AddWritesSumAndFlags := by
  unfold Obligations.AddWritesSumAndFlags
  intro i s hi hm a b
  have hwf := toRecord_wf i
  have hop := isAdd_op hi
  have hresult : recordResult i.toRecord s = BitVec.ofNat 16 (a + b) :=
    (recordResult_add hop s).trans (BitVec.add_def ..)
  have hflags := complete_flags_add hwf s hop
  exact ⟨_, exec_eq i s, hresult ▸ complete_storedAt hwf s hm (by simp [hop]), congrArg Flags.pf hflags,
    congrArg Flags.zf hflags, congrArg Flags.sf hflags, complete_trace_kind hwf s (toRecord_kind i),
    complete_ip_seq hwf s (by simp [hop])⟩

/-- Settles O25: the same of the difference. -/
theorem subWritesDifferenceAndFlags : Obligations.SubWritesDifferenceAndFlags := by
  unfold Obligations.SubWritesDifferenceAndFlags
  intro i s hi hm a b
  have hwf := toRecord_wf i
  have hop := isSub_op hi
  have hresult : recordResult i.toRecord s = BitVec.ofInt 16 (a - b) :=
    (recordResult_sub (.inl hop) s).trans (ofInt_sub_toNat ..).symm
  have hflags := complete_flags_sub hwf s (.inl hop)
  exact ⟨_, exec_eq i s, hresult ▸ complete_storedAt hwf s hm (by simp [hop]), congrArg Flags.pf hflags,
    congrArg Flags.zf hflags, congrArg Flags.sf hflags, complete_trace_kind hwf s (toRecord_kind i),
    complete_ip_seq hwf s (by simp [hop])⟩

/-! CMP stores nothing, so its operands read as before. -/

section
variable {r : Record} (h : r.firstFailingCheck = none) (s : State) (hop : r.op = .cmp)
include h hop

theorem complete_mem_cmp : (complete r (recordBody r) s).mem = s.mem := by
  rw [complete_cmp h s hop]
  simp

theorem complete_readWord_cmp {j : Slot} (hip : j ≠ .ip) (hfl : j ≠ .flags) :
    (complete r (recordBody r) s).readWord j = s.readWord j :=
  complete_readWord_ne h s hip (fun _ => hfl) (by simp [hop]) (by simp [hop])

theorem complete_readLoc_cmp (k : Nat) :
    readLoc (resolve r.width (r.operand k) s) (complete r (recordBody r) s) = operandValue r k s := by
  obtain ⟨-, hcfg, -⟩ := complete_fixed r s
  refine readLoc_congr _ (complete_mem_cmp h s hop) hcfg fun j hj => ?_
  obtain ⟨-, hip, hfl⟩ := isOperand_ne (inSlot_isOperand h (kind_of_op hop (by simp)) hj)
  exact complete_readWord_cmp h s hop hip hfl

end

/-- Settles O26: the flags of the difference, with memory and the operands' slots kept. -/
theorem cmpSetsFlagsOnly : Obligations.CmpSetsFlagsOnly := by
  unfold Obligations.CmpSetsFlagsOnly
  intro i s hi a b
  have hwf := toRecord_wf i
  have hop := isCmp_op hi
  have hflags := complete_flags_sub hwf s (.inr hop)
  exact ⟨_, exec_eq i s, complete_readLoc_cmp hwf s hop 0, complete_readLoc_cmp hwf s hop 1,
    fun x => complete_byteAt_ne hwf s (by simp [hop]), congrArg Flags.pf hflags, congrArg Flags.zf hflags,
    congrArg Flags.sf hflags, complete_trace_kind hwf s (toRecord_kind i),
    complete_ip_seq hwf s (by simp [hop])⟩

/-- Settles O27: the frame of a completed ADD or SUB, whose FLAGS word is that of a flag set. -/
theorem addSubFrame : Obligations.AddSubFrame := by
  unfold Obligations.AddSubFrame
  intro i s t hi ht
  obtain rfl := Host.Outcome.next.inj ((exec_eq i s).symm.trans ht)
  have hwf := toRecord_wf i
  have hop : i.toRecord.op ∈ ([.add, .sub] : List OpKind) := by
    obtain hi | hi := hi
    · simp [isAdd_op hi]
    · simp [isSub_op hi]
  obtain ⟨hvalid, hcfg, -⟩ := complete_fixed i.toRecord s
  exact ⟨fun j hip hfl hj => complete_readWord_ne hwf s hip (fun _ => hfl) (fun _ => hj) fun hl => by
      simp [hl] at hop,
    complete_flagsReserved_arith hwf s (List.mem_append_left [OpKind.cmp] hop),
    fun x hx => complete_byteAt_ne hwf s fun _ => hx, hvalid, hcfg⟩

/-- Settles O28: the frame of a completed CMP. -/
theorem cmpFrame : Obligations.CmpFrame := by
  unfold Obligations.CmpFrame
  intro i s t hi ht
  obtain rfl := Host.Outcome.next.inj ((exec_eq i s).symm.trans ht)
  have hwf := toRecord_wf i
  have hop := isCmp_op hi
  obtain ⟨hvalid, hcfg, -⟩ := complete_fixed i.toRecord s
  exact ⟨fun j hip hfl => complete_readWord_cmp hwf s hop hip hfl,
    complete_flagsReserved_arith hwf s (by simp [hop]), fun x => complete_byteAt_ne hwf s (by simp [hop]),
    hvalid, hcfg⟩

/-- A CMP and a SUB record of the same result leave the same FLAGS word. -/
theorem flagsWord_cmp_sub {i j : Instr} (hi : i.isCmp = true) (hj : j.isSub = true) {s : State}
    (hresult : recordResult i.toRecord s = recordResult j.toRecord s) :
    ∃ t u, exec i s = .next t ∧ exec j s = .next u ∧ t.readWord .flags = u.readWord .flags := by
  refine ⟨_, _, exec_eq i s, exec_eq j s, ?_⟩
  rw [complete_flagsWord_arith (toRecord_wf i) s (by simp [isCmp_op hi]),
    complete_flagsWord_arith (toRecord_wf j) s (by simp [isSub_op hj]), hresult]

/-- Settles O31: form by form the two records differ in the kind alone. -/
theorem cmpFlagsAreSubFlags : Obligations.CmpFlagsAreSubFlags := by
  unfold Obligations.CmpFlagsAreSubFlags
  exact fun s => ⟨fun d w reg rm => flagsWord_cmp_sub rfl rfl (by cases d <;> rfl),
    fun rm imm => flagsWord_cmp_sub rfl rfl rfl, fun imm => flagsWord_cmp_sub rfl rfl rfl⟩

/-! ## Byte width (42_arithmetic.md R104) -/

/-- An operand of a byte record reads as less than 256. -/
theorem operandValue_lt_of_byte {r : Record} (h : r.firstFailingCheck = none)
    (hop : r.op.isTwoOperand = true) (hw : r.width = .byte) (k : Nat) (s : State) :
    (operandValue r k s).toNat < 256 := by
  have hk : ∀ n, r.op ≠ .other n := fun n hn => by simp [hn, OpKind.isTwoOperand] at hop
  rw [operandValue]
  cases ho : r.operand k with
  | none => simp [resolve, readLoc]
  | reg a =>
    obtain ⟨-, -, -, hcount⟩ := operand_slot h hk ho
    rw [resolve, readLoc, toNat_accessValue, if_pos ((hcount hop).trans hw)]
    exact Nat.mod_lt _ (by decide)
  | mem ts d g =>
    rw [hw, resolve, readLoc, toNat_memRead_byte]
    exact BitVec.isLt _
  | imm v =>
    rw [hw, resolve, readLoc, toNat_and_widthMask, if_pos rfl]
    exact Nat.mod_lt _ (by decide)

/-- Settles O29: below 256 the sum does not reach the sign bit, and a borrow fills the high byte. -/
theorem byteWidthFlagLaw : Obligations.ByteWidthFlagLaw := by
  unfold Obligations.ByteWidthFlagLaw
  intro i s t hw ht a b
  obtain rfl := Host.Outcome.next.inj ((exec_eq i s).symm.trans ht)
  have hwf := toRecord_wf i
  have hlt : ∀ k, i.toRecord.op ∈ ([.mov, .add, .sub, .cmp] : List OpKind) →
      (operandValue i.toRecord k s).toNat < 256 := fun k hop =>
    operandValue_lt_of_byte hwf (OpKind.isTwoOperand_iff.2 hop) hw k s
  refine ⟨fun hi => ?_, fun hi => ?_⟩
  · have hop := isAdd_op hi
    have ha : a < 256 := hlt 0 (by simp [hop])
    have hb : b < 256 := hlt 1 (by simp [hop])
    rw [complete_flags_add hwf s hop]
    refine ⟨decide_eq_decide.2 ?_, decide_eq_false ?_, rfl⟩
    · show (a + b) % 65536 = 0 ↔ a = 0 ∧ b = 0
      omega
    · show ¬ 32768 ≤ (a + b) % 65536
      omega
  · have hop : i.toRecord.op = .sub ∨ i.toRecord.op = .cmp := hi.imp isSub_op isCmp_op
    have hmem : i.toRecord.op ∈ ([.mov, .add, .sub, .cmp] : List OpKind) := by
      obtain hop | hop := hop <;> simp [hop]
    have ha : a < 256 := hlt 0 hmem
    have hb : b < 256 := hlt 1 hmem
    rw [complete_flags_sub hwf s hop]
    refine ⟨fun hle => ⟨decide_eq_decide.2 ?_, decide_eq_false ?_, ?_⟩, fun hlt =>
      ⟨decide_eq_false ?_, decide_eq_true ?_⟩⟩
    · show ((a : Int) - b) % 65536 = 0 ↔ a = b
      omega
    · show ¬ 32768 ≤ ((a : Int) - b) % 65536
      omega
    · show evenOnes (((a : Int) - b) % 65536).toNat = evenOnes (a - b)
      congr 1
      omega
    · show ¬ ((a : Int) - b) % 65536 = 0
      omega
    · show 32768 ≤ ((a : Int) - b) % 65536
      omega

/-! ## The trace, and the records of any decoder -/

/-- Settles O46: an instruction's record is of one of the seven kinds. -/
theorem traceOfAnInstruction : Obligations.TraceOfAnInstruction := by
  unfold Obligations.TraceOfAnInstruction
  refine ⟨fun i s t ht => ?_, fun before after => by simp [deltaText, Flags.letters, String.append_assoc]⟩
  obtain rfl := Host.Outcome.next.inj ((exec_eq i s).symm.trans ht)
  exact complete_trace_kind (toRecord_wf i) s (toRecord_kind i)

/-- Settles O35, kind by kind. -/
theorem recordsOfAnyDecoderExecute : Obligations.RecordsOfAnyDecoderExecute := by
  unfold Obligations.RecordsOfAnyDecoderExecute
  intro D s r hrun hvalid hm hd hwf dst a b next
  have hseq : r.op ∉ ([.je, .jne, .loop] : List OpKind) → (complete r (recordBody r) s).ip = next :=
    complete_ip_seq hwf s
  refine ⟨complete r (recordBody r) s, ?_, complete_trace_kind hwf s,
    fun hop => complete_flags_kept hwf s (not_mem_of_branch hop).2, fun hop => ?_, fun hop => ?_,
    fun hop => ?_, fun hop => ?_, fun v hv => ⟨fun hop => ?_, fun hop => ?_, fun hop => ?_⟩⟩
  · rw [stepWith_record (stopReason_none.2 ⟨hrun, hvalid⟩) hd, runRecord_wf hwf]
  · have hb : recordResult r s = b := by simp only [recordResult, hop, operandValue, b]
    exact ⟨hb ▸ complete_storedAt hwf s hm (by simp [hop]), complete_flags_kept hwf s (by simp [hop]),
      hseq (by simp [hop])⟩
  · have hsum : recordResult r s = a + b := recordResult_add hop s
    exact ⟨hsum ▸ complete_storedAt hwf s hm (by simp [hop]),
      hsum ▸ complete_flags_arith hwf s (by simp [hop]), hseq (by simp [hop])⟩
  · have hdiff : recordResult r s = a - b := recordResult_sub (.inl hop) s
    exact ⟨hdiff ▸ complete_storedAt hwf s hm (by simp [hop]),
      hdiff ▸ complete_flags_arith hwf s (by simp [hop]), hseq (by simp [hop])⟩
  · have hdiff : recordResult r s = a - b := recordResult_sub (.inr hop) s
    exact ⟨complete_readLoc_cmp hwf s hop 0, hdiff ▸ complete_flags_arith hwf s (by simp [hop]),
      hseq (by simp [hop])⟩
  · rw [complete_ip_je s hop, hv, relOf]
  · rw [complete_ip_jne s hop, hv, relOf]
  · exact ⟨complete_readWord_c_loop s hop, by rw [complete_ip_loop s hop, hv, relOf]⟩

end Sys2Proof.Machine
end

section
/-! PROOFS. The statements about runs at one branch: JE to itself (40_execution_cycle.md R99) and LOOP to
itself (43_control_transfer.md R113). -/

namespace Sys2Proof.Machine

/-! ## A branch to itself -/

/-- A running machine at a branch `i`, with the end limit past it. -/
structure AtBranch (i : Instr) (s : State) : Prop where
  running : s.status = .running
  valid : s.memValid = true
  code : decode (fetch s) = some i
  below : s.ip.toNat < s.cfg.endLimit

theorem fetch_congr {s t : State} (hm : t.mem = s.mem) (hc : t.cfg = s.cfg) (hip : t.ip = s.ip) :
    fetch t = fetch s := by
  have hcode : codeAt t = codeAt s := funext fun k => by
    rw [codeAt, codeAt, hc, hip, State.byteAt_congr hm hc]
  rw [fetch, fetch, hcode]

theorem complete_mem_branch {r : Record} (hop : r.op ∈ ([.je, .jne, .loop] : List OpKind)) (s : State) :
    (complete r (recordBody r) s).mem = s.mem := by
  rw [complete_mem, recordBody]
  obtain hop | hop | hop := op_eq_of_branch hop <;>
    simp only [hop, jeBody, jneBody, loopBody, apply_ite State.mem, branchTo_mem, State.writeWord_mem,
      begin_mem, ite_self]

namespace AtBranch

variable {i : Instr} {s : State} (h : AtBranch i s)
include h

theorem step_eq : step s = .next (complete i.toRecord (recordBody i.toRecord) s) := by
  rw [step_instr (stopReason_none.2 ⟨h.running, h.valid⟩) h.code, exec_eq]

/-- A branch that leaves `ip` where it was is met again: it changed no byte of code. -/
theorem next_of_ip_kept (hop : i.toRecord.op ∈ ([.je, .jne, .loop] : List OpKind))
    (hip : (complete i.toRecord (recordBody i.toRecord) s).ip = s.ip) :
    AtBranch i (complete i.toRecord (recordBody i.toRecord) s) := by
  obtain ⟨hvalid, hcfg, hstatus⟩ := complete_fixed i.toRecord s
  refine ⟨?_, hvalid.trans h.valid, ?_, ?_⟩
  · rw [hstatus, hip, if_neg (Nat.not_le.2 h.below), h.running]
  · rw [fetch_congr (complete_mem_branch hop s) hcfg hip, h.code]
  · rw [hip, hcfg]
    exact h.below

end AtBranch

/-- A displacement of FE takes `ip` back over the two bytes of the branch. -/
theorem ip_self (ip : Word) : ip + BitVec.ofNat 16 2 + BitVec.ofInt 16 (sint8 0xFE) = ip := by
  rw [BitVec.add_assoc]
  exact BitVec.add_zero ip

/-! ## JE to itself (40_execution_cycle.md R99) -/

theorem atBranch_je_next {s : State} (h : AtBranch (.je 0xFE) s) (hz : s.flags.zf = true) :
    ∃ t, stepWith rd s = .next t ∧ AtBranch (.je 0xFE) t ∧ t.ip = s.ip ∧ t.flags = s.flags := by
  have hip : (complete (Instr.je 0xFE).toRecord (recordBody (Instr.je 0xFE).toRecord) s).ip = s.ip := by
    rw [complete_ip_je s rfl, if_pos hz]
    exact ip_self s.ip
  exact ⟨_, (stepIsReferenceCycle s).symm.trans h.step_eq, h.next_of_ip_kept (by decide) hip, hip,
    complete_flags_kept (toRecord_wf _) s (by decide)⟩

/-- By induction on the fuel: each step leads back to the branch with the same flags. -/
theorem atBranch_je_run {s : State} (h : AtBranch (.je 0xFE) s) (hz : s.flags.zf = true) (k : Nat) :
    ∃ t, runWith rd k s = { state := t, stop := none } ∧ t.status = .running ∧ t.ip = s.ip ∧
      t.flags = s.flags := by
  induction k generalizing s with
  | zero => exact ⟨s, rfl, h.running, rfl, rfl⟩
  | succ k ih =>
    obtain ⟨t, hstep, ht, hip, hflags⟩ := atBranch_je_next h hz
    obtain ⟨u, hrun, hstatus, huip, huflags⟩ := ih ht (hflags ▸ hz)
    exact ⟨u, (runWith_next hstep k).trans hrun, hstatus, huip.trans hip, huflags.trans hflags⟩

/-- Settles O37: the hypotheses say that the machine is at the branch. -/
theorem jeToItselfNeverEnds : Obligations.JeToItselfNeverEnds := by
  unfold Obligations.JeToItselfNeverEnds
  intro s k hrun hvalid hcode hz hbelow
  exact atBranch_je_run ⟨hrun, hvalid, hcode, hbelow⟩ hz k

/-! ## LOOP to itself (43_control_transfer.md R113) -/

/-- How many times the counter lets the branch run. -/
def loopCount (c : Word) : Nat := if c = 0 then 65536 else c.toNat

theorem loopCount_pos (c : Word) : 0 < loopCount c := by
  unfold loopCount
  split_ifs with h
  · decide
  · exact Nat.pos_of_ne_zero fun h0 => h (BitVec.eq_of_toNat_eq h0)

theorem loopCount_eq_one_iff (c : Word) : loopCount c = 1 ↔ c = 1 := by
  unfold loopCount
  split_ifs <;> bv_omega

theorem loopCount_sub_one {c : Word} (h : c ≠ 1) : loopCount (c - 1) = loopCount c - 1 := by
  unfold loopCount
  split_ifs <;> bv_omega

theorem run_succ_of_next {M : Host.Core} {s t : M.State} (h : M.step s = .next t) (k : Nat) :
    M.run (k + 1) s = M.run k t := by
  rw [Host.Core.run, h]

theorem core_run_succ {s t : State} (h : step s = .next t) (k : Nat) :
    Host.Core.run core (k + 1) s = Host.Core.run core k t :=
  run_succ_of_next (M := core) h k

theorem atBranch_loop_next {s : State} (h : AtBranch (.loop 0xFE) s) (hc : s.readWord .c ≠ 1) :
    ∃ t, step s = .next t ∧ AtBranch (.loop 0xFE) t ∧ t.ip = s.ip ∧ t.readWord .c = s.readWord .c - 1 := by
  have hip : (complete (Instr.loop 0xFE).toRecord (recordBody (Instr.loop 0xFE).toRecord) s).ip = s.ip := by
    rw [complete_ip_loop s rfl, if_neg hc]
    exact ip_self s.ip
  exact ⟨_, h.step_eq, h.next_of_ip_kept (by decide) hip, hip, complete_readWord_c_loop s rfl⟩

theorem atBranch_loop_last {s : State} (h : AtBranch (.loop 0xFE) s) (hc : s.readWord .c = 1) :
    ∃ t, step s = .next t ∧ t.readWord .c = 0 ∧ t.ip = s.ip + 2 := by
  refine ⟨_, h.step_eq, ?_, ?_⟩
  · rw [complete_readWord_c_loop s rfl, hc]
    rfl
  · rw [complete_ip_loop s rfl, if_pos hc]
    rfl

/-- The run of the loop, by induction on the count: the last step has counter 1. -/
theorem atBranch_loop_run {s : State} (h : AtBranch (.loop 0xFE) s) {n : Nat}
    (hn : loopCount (s.readWord .c) = n) :
    (∀ k, k < n → ∃ u : State, Host.Core.run core k s = .next u ∧ u.ip = s.ip) ∧
      ∃ t : State, Host.Core.run core n s = .next t ∧ t.readWord .c = 0 ∧ t.ip = s.ip + 2 := by
  induction n generalizing s with
  | zero => exact absurd hn (Nat.pos_iff_ne_zero.1 (loopCount_pos _))
  | succ n ih =>
    by_cases hc : s.readWord .c = 1
    · have hn1 : n = 0 := by
        rw [(loopCount_eq_one_iff _).2 hc] at hn
        omega
      obtain ⟨t, hstep, htc, htip⟩ := atBranch_loop_last h hc
      subst hn1
      exact ⟨fun k hk => ⟨s, by rw [Nat.lt_one_iff.1 hk]; rfl, rfl⟩, t, core_run_succ hstep 0, htc, htip⟩
    · obtain ⟨t, hstep, ht, hip, htc⟩ := atBranch_loop_next h hc
      obtain ⟨hbefore, u, hrun, huc, huip⟩ := ih ht (by rw [htc, loopCount_sub_one hc, hn]; rfl)
      refine ⟨fun k hk => ?_, u, (core_run_succ hstep n).trans hrun, huc, huip.trans (by rw [hip])⟩
      cases k with
      | zero => exact ⟨s, rfl, rfl⟩
      | succ k =>
        obtain ⟨v, hv, hvip⟩ := hbefore k (Nat.lt_of_succ_lt_succ hk)
        exact ⟨v, (core_run_succ hstep k).trans hv, hvip.trans hip⟩

/-- Settles O36: the hypotheses say that the machine is at the branch. -/
theorem loopToItselfEnds : Obligations.LoopToItselfEnds := by
  unfold Obligations.LoopToItselfEnds
  intro s n hrun hvalid hcode hbelow hn
  exact atBranch_loop_run ⟨hrun, hvalid, hcode, hbelow⟩ hn.symm

end Sys2Proof.Machine
end

section
/-! PROOFS. The statements about the end of a run (40_execution_cycle.md R97) and about reset
(70_reset_and_hazards.md section 1). -/

namespace Sys2Proof.Machine

/-! ## The end of a run -/

/-- What the step answered that left a mark. -/
def RunStop.outcome : RunStop → Host.Outcome State Fault Refusal
  | .fault f => .fault f
  | .refused r => .refused r

theorem RunStop.outcome_ne_next (m : RunStop) (t : State) : m.outcome ≠ .next t := by
  cases m <;> nofun

/-- A stopping step ends the run at the state it was taken from, and leaves its mark. -/
theorem runWith_outcome {D : Decoder} {s : State} {m : RunStop} (hs : s.status = .running)
    (h : stepWith D s = m.outcome) (k : Nat) : runWith D (k + 1) s = { state := s, stop := some m } := by
  cases m with
  | fault f => exact runWith_fault hs h k
  | refused e => exact runWith_refused hs h k

/-- A running machine's step goes on or stops with a mark. -/
theorem stepWith_next_or_stop (D : Decoder) (s : State) :
    (∃ t, stepWith D s = .next t) ∨ ∃ m : RunStop, stepWith D s = m.outcome := by
  cases h : stepWith D s with
  | next t => exact .inl ⟨t, rfl⟩
  | fault f => exact .inr ⟨.fault f, rfl⟩
  | refused e => exact .inr ⟨.refused e, rfl⟩

section
variable (D : Decoder)

/-- Every run, by what its first step does: its fuel is used up or its state is not `Running`, the step goes
on, or the step stops. -/
theorem runWith_induction {P : Nat → State → Prop}
    (zero : ∀ s, P 0 s)
    (halted : ∀ k s, s.status ≠ .running → P (k + 1) s)
    (next : ∀ k s t, stepWith D s = .next t → P k t → P (k + 1) s)
    (stop : ∀ k s (m : RunStop), s.status = .running → stepWith D s = m.outcome → P (k + 1) s)
    (k : Nat) (s : State) : P k s := by
  induction k generalizing s with
  | zero => exact zero s
  | succ k ih =>
    by_cases hs : s.status = .running
    · obtain ⟨t, ht⟩ | ⟨m, hm⟩ := stepWith_next_or_stop D s
      · exact next k s t ht (ih t)
      · exact stop k s m hs hm
    · exact halted k s hs

/-- Without a mark the fuel goes on from the state the run came to. -/
theorem runWith_add (k j : Nat) (s : State) (h : (runWith D k s).stop = none) :
    runWith D (k + j) s = runWith D j (runWith D k s).state := by
  induction k, s using runWith_induction D with
  | zero s => rw [Nat.zero_add, runWith_zero]
  | halted k s hs => rw [runWith_halted hs, runWith_halted hs, runWith_halted hs]
  | next k s t ht ih =>
    rw [runWith_next ht] at h ⊢
    rw [Nat.add_right_comm, runWith_next ht, ih h]
  | stop k s m hs hm => rw [runWith_outcome hs hm] at h; cases h

/-- A mark stays, with the state it was left at. -/
theorem runWith_add_of_stop (k j : Nat) (s : State) (h : (runWith D k s).stop ≠ none) :
    runWith D (k + j) s = runWith D k s := by
  induction k, s using runWith_induction D with
  | zero s => exact absurd rfl h
  | halted k s hs => rw [runWith_halted hs, runWith_halted hs]
  | next k s t ht ih =>
    rw [runWith_next ht] at h ⊢
    rw [Nat.add_right_comm, runWith_next ht, ih h]
  | stop k s m hs hm => rw [Nat.add_right_comm, runWith_outcome hs hm, runWith_outcome hs hm]

/-- A mark is that of the step at the state the run ended at. -/
theorem runWith_mark (k : Nat) (s : State) {m : RunStop} (h : (runWith D k s).stop = some m) :
    (runWith D k s).state.status = .running ∧ stepWith D (runWith D k s).state = m.outcome := by
  induction k, s using runWith_induction D with
  | zero s => cases h
  | halted k s hs => rw [runWith_halted hs] at h; cases h
  | next k s t ht ih =>
    rw [runWith_next ht] at h ⊢
    exact ih h
  | stop k s m' hs hm =>
    rw [runWith_outcome hs hm] at h ⊢
    obtain rfl := Option.some.inj h
    exact ⟨hs, hm⟩

end

/-- Under RD a run from a state whose memory is valid leaves no mark: each of its steps has a next state, with
the same validity flag (60_exceptions.md R118). -/
theorem runWith_rd_stop (k : Nat) (s : State) (h : s.status = .running → s.memValid = true) :
    (runWith rd k s).stop = none := by
  induction k, s using runWith_induction rd with
  | zero s => rfl
  | halted k s hs => rw [runWith_halted hs]
  | next k s t ht ih =>
    obtain ⟨hvalid, -⟩ := stepWith_fixed ht
    rw [runWith_next ht]
    exact ih fun _ => hvalid.trans (h (stepWith_next ht).1)
  | stop k s m hs hm =>
    obtain ⟨t, ht⟩ := runningMachineSteps.1 s hs (h hs)
    rw [stepIsReferenceCycle s, hm] at ht
    exact absurd ht (m.outcome_ne_next t)

theorem resetWith_valid_of_running (p : Params) (h : (State.resetWith p).status = .running) :
    (State.resetWith p).memValid = true := by
  unfold State.resetWith at *
  split_ifs at h ⊢
  rfl

/-- Settles O38: the laws of the mark and of more fuel, and RD's runs, which leave no mark. -/
theorem runEndIsFinal : Obligations.RunEndIsFinal := by
  unfold Obligations.RunEndIsFinal
  refine ⟨fun D p k => rfl, ?_, runWith_rd_stop,
    fun p k => runWith_rd_stop k _ (resetWith_valid_of_running p)⟩
  intro D k s e
  refine ⟨rfl, fun he t ht => ?_, fun he hs r hr => ?_, fun he j => ?_,
    fun r hr => runWith_mark D k s hr, fun f hf => runWith_mark D k s hf⟩
  · rw [runWith_add D k 1 s he, runWith_next ht, runWith_zero]
  · rw [runWith_add D k 1 s he, runWith_refused hs hr]
  · by_cases hstop : e.stop = none
    · have hhalt : e.state.status ≠ .running := he.resolve_left (not_not_intro hstop)
      rw [runWith_add D k j s hstop, runWith_halted hhalt, ← hstop]
    · exact runWith_add_of_stop D k j s hstop

/-! ## Reset -/

theorem State.resetWith_of_alloc {p : Params} (h : p.allocOK = true) :
    State.resetWith p =
      { regs := {}
        mem := Memory.load [] p.origin (p.program.take p.codeLength)
        memValid := true
        status := startStatus p.limit
        trace := []
        cfg := { sizePow2 := p.sizePow2, origin := p.origin, codeLength := p.codeLength,
                 endLimit := p.limit } } :=
  if_pos h

theorem State.resetWith_of_not_alloc {p : Params} (h : p.allocOK = false) :
    State.resetWith p =
      { regs := {}, mem := [], memValid := false, status := .abortedInvalidMemory, trace := []
        cfg := { sizePow2 := 0, origin := p.origin, codeLength := 0, endLimit := p.endLimit.getD 0 } } :=
  if_neg (by simp [h])

/-- An address inside the region is its own reduction (20_memory.md R35). -/
theorem State.reduce_of_lt {s : State} {a : Nat} (h : a < s.memSize) : s.reduce a = a := by
  rw [State.reduce, ← Int.natCast_mod, Int.toNat_natCast, Nat.mod_eq_of_lt h]

theorem codeLength_le (p : Params) :
    p.codeLength ≤ p.program.length ∧ p.codeLength ≤ 2 ^ p.sizePow2 - p.origin :=
  ⟨Nat.min_le_left _ _, Nat.min_le_right _ _⟩

theorem length_take_codeLength (p : Params) : (p.program.take p.codeLength).length = p.codeLength := by
  rw [List.length_take, Nat.min_eq_left (codeLength_le p).1]

/-- What an address of the region reads as after reset (20_memory.md R42, R43). -/
theorem byteAt_resetWith {p : Params} (h : p.allocOK = true) {a : Nat} (ha : a < 2 ^ p.sizePow2) :
    (State.resetWith p).byteAt a = if p.origin ≤ a ∧ a < p.origin + p.codeLength then
      (p.program.take p.codeLength).getD (a - p.origin) 0 else 0 := by
  have hsize : (State.resetWith p).memSize = 2 ^ p.sizePow2 := by
    rw [State.resetWith_of_alloc h, State.memSize]
  rw [State.byteAt, State.reduce_of_lt (hsize ▸ ha), State.resetWith_of_alloc h, Memory.get_load rfl,
    length_take_codeLength]
  rfl

theorem startStatus_eq (n : Nat) : startStatus n = if n = 0 then .haltedEndOfCode else .running := by
  simp [startStatus]

/-- Settles O52: the fields of the two branches of the reset, and memory by `byteAt_resetWith`. -/
theorem resetTable : Obligations.ResetTable := by
  unfold Obligations.ResetTable
  intro p hp s
  have horigin : p.origin < 2 ^ p.sizePow2 := of_decide_eq_true hp
  refine ⟨allRegistersZeroAtReset p, ?_, ?_, fun hok => ?_⟩
  · cases hok : p.allocOK <;> simp [s, State.resetWith, hok]
  · cases hok : p.allocOK <;> simp [s, State.resetWith, hok]
  · have hs : s = _ := State.resetWith_of_alloc hok
    obtain ⟨hlen, hcap⟩ := codeLength_le p
    refine ⟨by rw [hs, State.memSize], by rw [hs], by rw [hs]; rfl, by rw [hs]; rfl,
      by rw [hs]; exact startStatus_eq _, fun k hk => ?_, fun a ha hout => ?_⟩
    · have hk : k < p.codeLength := by rwa [hs] at hk
      have hlt : k < p.program.length := Nat.lt_of_lt_of_le hk hlen
      rw [← Nat.cast_add, byteAt_resetWith hok (by omega), if_pos (by omega), Nat.add_sub_cancel_left,
        List.getD_eq_getElem?_getD, List.getElem?_take_of_lt hk, List.getElem?_eq_getElem hlt,
        Option.getD_some]
    · have hcode : s.cfg.codeLength = p.codeLength := by rw [hs]
      have hsize : s.memSize = 2 ^ p.sizePow2 := by rw [hs, State.memSize]
      rw [byteAt_resetWith hok (hsize ▸ ha), if_neg (by omega)]

/-- Settles O53: the fields of the reset's second branch; a step is taken only while running. -/
theorem allocationFailureAborts : Obligations.AllocationFailureAborts := by
  unfold Obligations.AllocationFailureAborts
  intro p hp s
  have hs : s = _ := State.resetWith_of_not_alloc hp
  have hno : ∀ (D : Decoder) (t : State), stepWith D s ≠ .next t := by
    intro D t ht
    have hrun := (stepWith_next ht).1
    rw [hs] at hrun
    cases hrun
  exact ⟨by rw [hs], by rw [hs], by rw [hs]; rfl, by rw [hs]; rfl, allRegistersZeroAtReset p, by rw [hs],
    by rw [hs], fun t => stepIsReferenceCycle s ▸ hno rd t, hno⟩

/-- Settles O54: the empty program loads nothing, and the end limit is its length. -/
theorem defaultResetState : Obligations.DefaultResetState := by
  unfold Obligations.DefaultResetState
  exact ⟨rfl, rfl, rfl, rfl, rfl, allRegistersZeroAtReset {}⟩

/-- The load stays canonical and inside the region, the slots are 0, and the start status is the end test
at 0. -/
theorem resetWith_inv {p : Params} (hp : p.wf = true) : (State.resetWith p).Inv := by
  have horigin : p.origin < 2 ^ p.sizePow2 := of_decide_eq_true hp
  obtain ⟨-, hcap⟩ := codeLength_le p
  have hip : (State.resetWith p).ip = 0 := allRegistersZeroAtReset p .ip
  have hnone := allRegistersZeroAtReset p .none
  have hflags : (State.resetWith p).readWord .flags &&& 0xFF3B = 0 := by
    rw [allRegistersZeroAtReset p .flags]
    rfl
  cases hok : p.allocOK with
  | false =>
    rw [State.resetWith_of_not_alloc hok] at *
    exact ⟨rfl, rfl, hnone, hflags, nofun, nofun, nofun⟩
  | true =>
    rw [State.resetWith_of_alloc hok] at *
    refine ⟨Memory.wf_load rfl _ _, Memory.below_load rfl _ _ ?_, hnone, hflags, fun _ => rfl,
      fun hrun => ?_, fun v hv => ?_⟩
    · show p.origin + (p.program.take p.codeLength).length ≤ 2 ^ p.sizePow2
      rw [length_take_codeLength]
      omega
    · have hlimit : p.limit ≠ 0 := fun h0 => by simp [startStatus, h0] at hrun
      rw [hip]
      exact Nat.pos_of_ne_zero hlimit
    · simp only [startStatus] at hv
      split at hv <;> cases hv

/-- Settles O55: the default parameters have their origin inside the region. -/
theorem resetMeetsInvariant : Obligations.ResetMeetsInvariant := by
  unfold Obligations.ResetMeetsInvariant
  exact ⟨resetWith_inv (by decide), fun p hp => resetWith_inv hp⟩

end Sys2Proof.Machine
end
